-- ==== Sys2Proof/Word.lean ====
section
/-! DEFINITION. The widths the engine works with: a byte of data memory, a 16-bit texel or palette
entry, and a 32-bit register of the window (spec/00_scope.md R5, R7). -/

namespace Sys2Proof

/-- One byte of data memory (R31). -/
abbrev Byte := BitVec 8

/-- A 16-bit texel, key colour or palette entry (R35, R38). -/
abbrev Half := BitVec 16

/-- A register of the window, or a command word (R5, R47). -/
abbrev Word := BitVec 32

/-- The low 32 bits of an unbounded result (R7: `v[31:0]`). -/
abbrev Word.ofNat (n : Nat) : Word := BitVec.ofNat 32 n

end Sys2Proof
end

