-- ==== Sys2Proof/Machine/Bits.lean ====
section
/-! DEFINITION. Byte order and bit-field helpers (spec/20_memory.md R35, spec/00_scope.md R7). -/

namespace Sys2Proof.Machine

/-- Byte k of a byte list. -/
def byteAt (b : List Byte) (k : Nat) : Byte := b.getD k 0

/-- `hi << 8 | lo`, a big-endian 16-bit value (R35). -/
def be16 (hi lo : Byte) : Half := hi ++ lo

/-- The big-endian 16-bit value at bytes k, k + 1 (R8 `MemRead(a, 2)`). -/
def halfAt (b : List Byte) (k : Nat) : Half := be16 (byteAt b k) (byteAt b (k + 1))

/-- The big-endian 32-bit value at bytes k to k + 3 (R8 `MemRead(a, 4)`). -/
def wordAt (b : List Byte) (k : Nat) : Word := halfAt b k ++ halfAt b (k + 2)

/-- A 16-bit value as its two bytes, the most significant first (R8 `MemWrite(a, 2, v)`). -/
def halfBytes (v : Half) : List Byte := [v.extractLsb' 8 8, v.extractLsb' 0 8]

/-- A 32-bit value as its four bytes, the most significant first. -/
def wordBytes (v : Word) : List Byte :=
  [v.extractLsb' 24 8, v.extractLsb' 16 8, v.extractLsb' 8 8, v.extractLsb' 0 8]

/-- The 4-bit value i of a byte list, the high nibble of a byte first (R76, R84). -/
def nibbleAt (b : List Byte) (i : Nat) : BitVec 4 :=
  if i % 2 = 0 then (byteAt b (i / 2)).extractLsb' 4 4 else (byteAt b (i / 2)).extractLsb' 0 4

/-- The low and high words of a 64-bit result (R18). -/
def lowWord (n : Nat) : Word := Word.ofNat n
/-- Bits 63:32 of a 64-bit result (R18). -/
def highWord (n : Nat) : Word := Word.ofNat (n / 2 ^ 32)

end Sys2Proof.Machine
end

