-- ==== Sys2Proof/Config.lean ====
section
/-! DEFINITION. The open parameters of spec/00_scope.md R6. Each is an opaque constant without a
body, so nothing that is proved can depend on its value; the constraints the spec puts on it hold by
the way it is used. -/

namespace Sys2Proof

/-- One less than MEM_SIZE, so that 1 ≤ MEM_SIZE ≤ 2^32 for every value (R6, D36). -/
opaque Config.lastAddress : BitVec 32

/-- One less than QPOP_MAX, so that QPOP_MAX ≥ 1 for every value (R6, D40). -/
opaque Config.populationBelow : Nat

/-- REG_BASE: the host address of the register window (R6, R14, U5). -/
opaque Config.regBase : Nat

/-- INTENSITY on the red, green and blue of a colour that is not grey (R75, U4). -/
opaque Config.colourIntensity : Byte → Byte → Byte → Byte

/-- MEM_SIZE: the bytes of data memory the engine reaches (R6). -/
def Config.memSize : Nat := Config.lastAddress.toNat + 1

/-- QPOP_MAX: the largest colour population QPAL accepts (R6). -/
def Config.qpopMax : Nat := Config.populationBelow + 1

end Sys2Proof
end

