-- ==== Sys2Proof/Machine/State.lean ====
section
/-! DEFINITION. The engine's state (spec/10_state.md, spec/20_memory.md), the ways a step can stop, and
the state after reset (spec/70_reset_and_hazards.md R162). -/

namespace Sys2Proof.Machine

/-- The error codes ERRCODE can hold (spec/60_exceptions.md R149). -/
inductive ErrCode
  | none | opcode | reserved | format | argument | address | budget | length | index | dim
  deriving DecidableEq, Repr

/-- The seven bits of STATUS that hold state; bits 31:7 hold none (R20). -/
structure Status where
  busy : Bool := false
  done : Bool := false
  err : Bool := false
  palshort : Bool := false
  palabsent : Bool := false
  rangeshort : Bool := false
  wbusy : Bool := false
  deriving DecidableEq, Repr

/-- The seven argument registers (R16). PALLEN holds bits 14:0 only. -/
structure Args where
  src : Word := 0
  dst : Word := 0
  aux : Word := 0
  len : Word := 0
  dim : Word := 0
  pallen : BitVec 15 := 0
  arg : Word := 0
  deriving DecidableEq, Repr

/-- The command and arguments latched at an issue (R24, R29). -/
structure Latched where
  word : Word := 0
  args : Args := {}
  deriving DecidableEq, Repr

/-- Data memory: the bytes that differ from `unlistedByte`, by strictly rising address (R31). -/
abbrev Memory := List Host.Cell

/-- What a byte of data memory reads as before anything has written it.
DESIGN CHOICE (log 2), unsafe: R34 and R162 leave the contents at power-up open. -/
def unlistedByte : Byte := 0

/-- A step of the host (R12). A register access names its width in bits and its host address; a data-memory
access names its first byte address. -/
inductive HostOp
  | regRead (width addr : Nat)
  | regWrite (width addr : Nat) (v : Word)
  | memRead (addr : Word) (n : Nat)
  | memWrite (addr : Word) (bytes : List Byte)
  deriving DecidableEq, Repr

/-- Which agent moves: the engine, the host with one of its steps, or the platform with a reset
(R12, R161). -/
inductive Turn
  | engine
  | host (op : HostOp)
  | reset
  deriving DecidableEq, Repr

/-- What the host's latest read returned: a register's value, or bytes of data memory. -/
inductive HostReply
  | nothing
  | register (v : Word)
  | bytes (bs : List Byte)
  deriving DecidableEq, Repr

/-- The state of the engine and of what stands around it. -/
structure State where
  /-- LASTCMD, what CMD reads as (R19). -/
  lastCmd : Word
  /-- STATUS (R20). -/
  status : Status
  /-- ERRCODE (R22). -/
  errCode : ErrCode
  /-- ERRINFO (R22). -/
  errInfo : Word
  /-- SRC, DST, AUX, LEN, DIM, PALLEN, ARG (R16). -/
  args : Args
  /-- RES0 (R18). -/
  res0 : Word
  /-- RES1 (R18). -/
  res1 : Word
  /-- RES2 (R18). -/
  res2 : Word
  /-- RES3 (R18). -/
  res3 : Word
  /-- The latched command and argument snapshot (R24, R29); meaningful while BUSY = 1. -/
  latched : Latched
  /-- Data memory (R31). -/
  mem : Memory
  /-- MEM_SIZE (R6): no step changes it. -/
  memSize : Nat
  /-- QPOP_MAX (R6): no step changes it. -/
  qpopMax : Nat
  /-- REG_BASE (R6, R14): no step changes it. -/
  regBase : Nat
  /-- The MODEL's own field: who moves next, as an input. DESIGN CHOICE (log 5). -/
  agenda : List Turn
  /-- The MODEL's own field: what the host's latest read returned. DESIGN CHOICE (log 6). -/
  reply : HostReply
  deriving DecidableEq, Repr

/-- How the machine stops with a fault (R151): the model faults, which no STATUS bit shows. -/
inductive Fault
  /-- HAZ_RACE (R44), raised by a host data-memory access to the footprint of a running command.
  Safe: the chip's result is not specified. -/
  | hazRace
  /-- BAD_MEM (R151), raised by a host data-memory access at or beyond MEM_SIZE.
  Safe: there is no such byte. -/
  | badMem
  deriving DecidableEq, Repr

/-- What the model refuses. -/
inductive Refusal
  /-- BAD_REG_ACCESS (R15, R151), raised by a host register access of a width other than 32 bits, at an
  unaligned offset or outside the window (log 10). Safe: R15 says that it has no meaning. -/
  | badRegAccess
  /-- An instruction whose meaning is not written yet. No arm of `exec` answers so. Safe. -/
  | notModelled (mnemonic : String)
  deriving DecidableEq, Repr

/-- The outcome of one step of this machine. -/
abbrev Outcome := Host.Outcome State Fault Refusal

/-- The machine right after reset at power-up (R162): every register 0, no command pending, data memory
with nothing listed, the parameters of R6 at their open values. -/
def State.reset : State where
  lastCmd := 0
  status := {}
  errCode := .none
  errInfo := 0
  args := {}
  res0 := 0
  res1 := 0
  res2 := 0
  res3 := 0
  latched := {}
  mem := []
  memSize := Config.memSize
  qpopMax := Config.qpopMax
  regBase := Config.regBase
  agenda := []
  reply := .nothing

end Sys2Proof.Machine
end

