-- ==== Sys2Proof/Syntax.lean ====
section
/-! DEFINITION. The commands of the engine: one constructor of `Instr` for each row of
spec/opcode_table.json (spec/30_encoding.md R49), and the names its fields select. A field is kept as
the bits of the command word, because a value outside the spec's list is a legal command word that ends
with E_FORMAT (R50, R51, R52). -/

namespace Sys2Proof

/-- The eleven GX pixel formats (R50). -/
inductive PixelFormat
  | i4 | i8 | ia4 | ia8 | rgb565 | rgb5a3 | rgba32 | c4 | c8 | c14x2 | cmpr
  deriving DecidableEq, Repr

/-- The three palette entry formats (R51). -/
inductive PaletteFormat
  | ia8 | rgb565 | rgb5a3
  deriving DecidableEq, Repr

/-- The quantizer's palette sizes (R52). -/
inductive PaletteSize
  | colours16 | colours256 | colours16384
  deriving DecidableEq, Repr

/-- A colour: four 8-bit channels (R9). -/
structure Color where
  r : Byte
  g : Byte
  b : Byte
  a : Byte
  deriving DecidableEq, Repr

/-- The 27 commands of R49, each with the fields of the command word it uses (R48):
`fmt` FMT, `pfmt` PFMT, `f` F, `pp` PP, `qsel` QSEL, `lvl` LVL. -/
inductive Instr
  | nop
  | desc (fmt : BitVec 4)
  | palmax (fmt : BitVec 4)
  | dsize (fmt : BitVec 4) (lvl : BitVec 5)
  | tsize (fmt : BitVec 4) (lvl : BitVec 5)
  | mipcnt (fmt : BitVec 4)
  | decb (fmt : BitVec 4) (pfmt : BitVec 2) (pp : Bool)
  | deci (fmt : BitVec 4)
  | encb (fmt : BitVec 4)
  | enci (fmt : BitVec 4)
  | cdec4
  | ckey
  | cpal (f : Bool)
  | cidx
  | cenc4
  | qdist
  | qavg
  | qnear
  | qpal (f : Bool) (qsel : BitVec 2)
  | xswp
  | xreo
  | xred
  | x2c
  | c2x
  | pdec (pfmt : BitVec 2)
  | penc (pfmt : BitVec 2)
  | prange (fmt : BitVec 4) (pp : Bool)
  deriving DecidableEq, Repr

end Sys2Proof
end

