-- ==== Sys2Proof/Machine/Operands.lean ====
section
/-! DEFINITION. What a command's operands stand for: the values of the FMT, PFMT and QSEL fields
(spec/30_encoding.md R50 to R55), the two halves of DIM, the byte ranges of a footprint, and how a
colour or an index array lies in memory (spec/20_memory.md R32 to R38). -/

namespace Sys2Proof

/-- The format an FMT code names, if it names one (R50). PRESUMED by the spec itself (G1). -/
def PixelFormat.ofCode (fmt : BitVec 4) : Option PixelFormat :=
  match fmt.toNat with
  | 0 => some .i4
  | 1 => some .i8
  | 2 => some .ia4
  | 3 => some .ia8
  | 4 => some .rgb565
  | 5 => some .rgb5a3
  | 6 => some .rgba32
  | 8 => some .c4
  | 9 => some .c8
  | 10 => some .c14x2
  | 14 => some .cmpr
  | _ => none

/-- The FMT code of a format (R50). -/
def PixelFormat.code : PixelFormat → BitVec 4
  | .i4 => 0 | .i8 => 1 | .ia4 => 2 | .ia8 => 3 | .rgb565 => 4 | .rgb5a3 => 5 | .rgba32 => 6
  | .c4 => 8 | .c8 => 9 | .c14x2 => 10 | .cmpr => 14

/-- The palette format a PFMT code names, if it names one (R51). -/
def PaletteFormat.ofCode (pfmt : BitVec 2) : Option PaletteFormat :=
  match pfmt.toNat with
  | 0 => some .ia8
  | 1 => some .rgb565
  | 2 => some .rgb5a3
  | _ => none

/-- The palette size a QSEL value selects, if it selects one (R52). -/
def PaletteSize.ofCode (qsel : BitVec 2) : Option PaletteSize :=
  match qsel.toNat with
  | 0 => some .colours16
  | 1 => some .colours256
  | 2 => some .colours16384
  | _ => none

/-- The split depth of a palette size (R52). -/
def PaletteSize.depth : PaletteSize → Nat
  | .colours16 => 4 | .colours256 => 8 | .colours16384 => 14

/-- maxColors of a palette size (R52). -/
def PaletteSize.maxColors : PaletteSize → Nat
  | .colours16 => 16 | .colours256 => 256 | .colours16384 => 16384

/-- Block width in pixels (R53). -/
def PixelFormat.bw : PixelFormat → Nat
  | .i4 => 8 | .i8 => 8 | .ia4 => 8 | .ia8 => 4 | .rgb565 => 4 | .rgb5a3 => 4 | .rgba32 => 4
  | .c4 => 8 | .c8 => 8 | .c14x2 => 4 | .cmpr => 8

/-- Block height in pixels (R53). -/
def PixelFormat.bh : PixelFormat → Nat
  | .i4 => 8 | .i8 => 4 | .ia4 => 4 | .ia8 => 4 | .rgb565 => 4 | .rgb5a3 => 4 | .rgba32 => 4
  | .c4 => 8 | .c8 => 4 | .c14x2 => 4 | .cmpr => 8

/-- Bits per pixel (R53). -/
def PixelFormat.bpp : PixelFormat → Nat
  | .i4 => 4 | .i8 => 8 | .ia4 => 8 | .ia8 => 16 | .rgb565 => 16 | .rgb5a3 => 16 | .rgba32 => 32
  | .c4 => 4 | .c8 => 8 | .c14x2 => 16 | .cmpr => 4

/-- Bytes of one block (R53). -/
def PixelFormat.blockBytes : PixelFormat → Nat
  | .rgba32 => 64
  | .i4 | .i8 | .ia4 | .ia8 | .rgb565 | .rgb5a3 | .c4 | .c8 | .c14x2 | .cmpr => 32

/-- Pixels of one block (R54). -/
def PixelFormat.npix (f : PixelFormat) : Nat := f.bw * f.bh

/-- The indexed formats (R55). -/
def PixelFormat.indexed : PixelFormat → Bool
  | .c4 | .c8 | .c14x2 => true
  | .i4 | .i8 | .ia4 | .ia8 | .rgb565 | .rgb5a3 | .rgba32 | .cmpr => false

/-- The maximum palette length of an indexed format, 0 for a direct one (R53). -/
def PixelFormat.maxColours : PixelFormat → Nat
  | .c4 => 16 | .c8 => 256 | .c14x2 => 16384
  | .i4 | .i8 | .ia4 | .ia8 | .rgb565 | .rgb5a3 | .rgba32 | .cmpr => 0

/-- The largest index of an indexed format (R55). -/
def PixelFormat.maxIndex (f : PixelFormat) : Nat := f.maxColours - 1

/-- The grey counterpart of an indexed format, at FMT - 8 (R87); a direct format is its own. -/
def PixelFormat.grey : PixelFormat → PixelFormat
  | .c4 => .i4 | .c8 => .i8 | .c14x2 => .ia4
  | .i4 => .i4 | .i8 => .i8 | .ia4 => .ia4 | .ia8 => .ia8 | .rgb565 => .rgb565
  | .rgb5a3 => .rgb5a3 | .rgba32 => .rgba32 | .cmpr => .cmpr

/-- A colour as its four bytes R, G, B, A (R36). -/
def Color.bytes (c : Color) : List Byte := [c.r, c.g, c.b, c.a]

/-- A colour result in a RES register: `R << 24 | G << 16 | B << 8 | A` (R18). -/
def Color.word (c : Color) : Word := (c.r ++ c.g) ++ (c.b ++ c.a)

namespace Machine

/-- BLACK, opaque black (R9). -/
def black : Color := ⟨0, 0, 0, 255⟩
/-- WHITE, opaque white (R9). -/
def white : Color := ⟨255, 255, 255, 255⟩

/-- W = DIM[15:0] (R16). -/
def Args.width (x : Args) : Nat := (x.dim.extractLsb' 0 16).toNat
/-- H = DIM[31:16] (R16). -/
def Args.height (x : Args) : Nat := (x.dim.extractLsb' 16 16).toNat

/-- PALLEN as a register reads: bits 31:15 are 0 (R16). -/
def Args.pallenWord (x : Args) : Word := x.pallen.setWidth 32

/-- The longest palette a command takes (R5). -/
def maxPalette : Nat := 16384

/-- A byte range: its start address and its length (R32). -/
structure Range where
  start : Word
  len : Nat
  deriving DecidableEq, Repr

/-- The range lies in data memory: start + length ≤ MEM_SIZE without wrap-around; an empty range
always does (R32). -/
def Range.inMemory (memSize : Nat) (r : Range) : Bool :=
  r.len == 0 || decide (r.start.toNat + r.len ≤ memSize)

/-- The byte address a lies in the range. -/
def Range.holds (r : Range) (a : Nat) : Bool :=
  decide (r.start.toNat ≤ a) && decide (a < r.start.toNat + r.len)

/-- The two ranges share a byte. -/
def Range.meets (r t : Range) : Bool :=
  decide (max r.start.toNat t.start.toNat <
    min (r.start.toNat + r.len) (t.start.toNat + t.len))

/-- The read and write ranges of a command, in the order its rule lists them (R33). -/
structure Footprint where
  reads : List Range := []
  writes : List Range := []
  deriving DecidableEq, Repr

/-- The first range that is not in data memory, reads before writes (R150). -/
def Footprint.firstOutside (memSize : Nat) (fp : Footprint) : Option Range :=
  (fp.reads ++ fp.writes).find? (fun r => !r.inMemory memSize)

/-- A colour array as bytes (R36). -/
def colorBytes (cs : List Color) : List Byte := cs.flatMap Color.bytes

/-- An index array as bytes, two to an index (R37). -/
def indexBytes (is : List Half) : List Byte := is.flatMap halfBytes

end Machine

end Sys2Proof
end

