-- ==== Sys2Proof/Machine/Colour.lean ====
section
/-! DEFINITION. The colour model: widening and narrowing of channels, the 16-bit colour words and the
palette entries (spec/42_block_codecs.md R70 to R75, R80 to R82, R85). -/

namespace Sys2Proof.Machine

/-- `(a << 5) | (a << 2) | (a >> 1)` (R70). -/
def expand3 (a : BitVec 3) : Byte :=
  a.setWidth 8 <<< 5 ||| a.setWidth 8 <<< 2 ||| a.setWidth 8 >>> 1

/-- `(v << 3) | (v >> 2)` (R71). -/
def expand5 (v : BitVec 5) : Byte := v.setWidth 8 <<< 3 ||| v.setWidth 8 >>> 2

/-- `(v << 2) | (v >> 4)` (R71). -/
def expand6 (v : BitVec 6) : Byte := v.setWidth 8 <<< 2 ||| v.setWidth 8 >>> 4

/-- `(v << 4) | v` (R72). -/
def rep4 (v : BitVec 4) : Byte := v.setWidth 8 <<< 4 ||| v.setWidth 8

/-- `v << 4` (R73). -/
def shl4 (v : BitVec 4) : Byte := v.setWidth 8 <<< 4

/-- `Narrow_n(c) = c >> (8 - n)` (R74). -/
def narrow (n : Nat) (c : Byte) : BitVec n := (c >>> (8 - n)).setWidth n

/-- INTENSITY (R75). Law (L1) holds because alpha is not an argument, law (L2) because a grey colour
keeps its level; on any other colour the value is the open constant of Config (U4). -/
def intensity (c : Color) : Byte :=
  if c.r = c.g ∧ c.g = c.b then c.r else Config.colourIntensity c.r c.g c.b

/-- `Dec565(v)` (R80). -/
def dec565 (v : Half) : Color :=
  ⟨expand5 (v.extractLsb' 11 5), expand6 (v.extractLsb' 5 6), expand5 (v.extractLsb' 0 5), 255⟩

/-- `Enc565(p)`: alpha is ignored (R80). -/
def enc565 (p : Color) : Half := narrow 5 p.r ++ narrow 6 p.g ++ narrow 5 p.b

/-- `Dec5A3(v)`: bit 15 selects the opaque mode (R81). -/
def dec5A3 (v : Half) : Color :=
  if v.getLsbD 15 then
    ⟨expand5 (v.extractLsb' 10 5), expand5 (v.extractLsb' 5 5), expand5 (v.extractLsb' 0 5), 255⟩
  else
    ⟨shl4 (v.extractLsb' 8 4), shl4 (v.extractLsb' 4 4), shl4 (v.extractLsb' 0 4),
      expand3 (v.extractLsb' 12 3)⟩

/-- The opaque word of RGB5A3 for a colour: `0x8000 | R5 << 10 | G5 << 5 | B5` (R82). -/
def opaque5A3 (p : Color) : Half := 1#1 ++ narrow 5 p.r ++ narrow 5 p.g ++ narrow 5 p.b

/-- The alpha-mode word of RGB5A3 for a colour: `A3 << 12 | R4 << 8 | G4 << 4 | B4` (R82). -/
def alpha5A3 (p : Color) : Half :=
  0#1 ++ narrow 3 p.a ++ narrow 4 p.r ++ narrow 4 p.g ++ narrow 4 p.b

/-- `Enc5A3(p)`: exact opaque, exact alpha mode, lossy opaque, lossy alpha mode, the first that applies
(R82). -/
def enc5A3 (p : Color) : Half :=
  if p.a = 255 ∧ p.r = expand5 (narrow 5 p.r) ∧ p.g = expand5 (narrow 5 p.g) ∧
      p.b = expand5 (narrow 5 p.b) then opaque5A3 p
  else if p.a = expand3 (narrow 3 p.a) ∧ p.r.toNat % 16 = 0 ∧ p.g.toNat % 16 = 0 ∧
      p.b.toNat % 16 = 0 then alpha5A3 p
  else if p.a = 255 then opaque5A3 p
  else alpha5A3 p

/-- The colour of an IA8 word: alpha in the high byte, intensity in the low (R79). -/
def decIA8 (v : Half) : Color :=
  ⟨v.extractLsb' 0 8, v.extractLsb' 0 8, v.extractLsb' 0 8, v.extractLsb' 8 8⟩

/-- The IA8 word of a colour (R79). -/
def encIA8 (p : Color) : Half := be16 p.a (intensity p)

/-- `DecPal(PFMT, v)` (R85). -/
def decPal : PaletteFormat → Half → Color
  | .ia8, v => decIA8 v
  | .rgb565, v => dec565 v
  | .rgb5a3, v => dec5A3 v

/-- `EncPal(PFMT, p)` (R85). -/
def encPal : PaletteFormat → Color → Half
  | .ia8, p => encIA8 p
  | .rgb565, p => enc565 p
  | .rgb5a3, p => enc5A3 p

end Sys2Proof.Machine
end

