-- ==== Sys2Proof/Machine/Metric.lean ====
section
/-! DEFINITION. The colour metric that the quantizer and the CMPR encoder share: the distance, the pair
at maximum distance and the nearest colour (spec/44_quantizer.md R120, R122, R123). -/

namespace Sys2Proof.Machine

/-- The square of the difference of two channels. -/
def channelSq (x y : Byte) : Nat := ((x.toNat : Int) - y.toNat).natAbs ^ 2

/-- The scaled distance D(s, p) (R120). -/
def distance (s p : Color) : Nat :=
  195075 * channelSq s.a p.a +
    2 * (channelSq s.r p.r + channelSq s.g p.g + channelSq s.b p.b) * s.a.toNat * p.a.toNat

/-- The pairs (i, j) with i < j of a list, in lexicographic order (R122). -/
def orderedPairs : List Color → List (Color × Color)
  | [] => []
  | c :: cs => cs.map (fun d => (c, d)) ++ orderedPairs cs

/-- The later pair where it is strictly further apart, else the earlier one (R122). -/
def fartherPair (best p : Color × Color) : Color × Color :=
  if distance p.1 p.2 > distance best.1 best.2 then p else best

/-- `MaxDistancePair(S)`, for a list of two or more (R122); `none` for a shorter list. -/
def maxDistancePair (cs : List Color) : Option (Color × Color) :=
  match orderedPairs cs with
  | [] => none
  | p :: ps => some (ps.foldl fartherPair p)

/-- The last loop of `NearestColor`: the scan from entry e on, `best` the entry found so far and its
distance (R123). -/
def nearestScan (c : Color) (cs : List Color) (e : Nat) (best : Option (Nat × Nat)) : Option Nat :=
  match cs with
  | [] => best.map (·.1)
  | p :: cs =>
    if distance c p = 0 then some e
    else
      match best with
      | none => nearestScan c cs (e + 1) (some (e, distance c p))
      | some (b, d) =>
        if distance c p < d then nearestScan c cs (e + 1) (some (e, distance c p))
        else nearestScan c cs (e + 1) (some (b, d))

/-- The first entry with A = 0, looked for where the pixel has A < 16 (R123). -/
def transparentEntry (c : Color) (cs : List Color) : Option Nat :=
  if c.a.toNat < 16 then cs.findIdx? (fun p => decide (p.a = 0)) else none

/-- `NearestColor(c, L)` for a non-empty palette (R123); 0 for an empty one, which no command looks
up (R132). -/
def nearestColor (c : Color) (cs : List Color) : Nat :=
  match cs.findIdx? (fun p => decide (p = c)) with
  | some e => e
  | none =>
    match transparentEntry c cs with
    | some e => e
    | none => (nearestScan c cs 0 none).getD 0

end Sys2Proof.Machine
end

