-- ==== Sys2Proof/Decode.lean ====
section
/-! DEFINITION. The decoder and the encoder of command words (spec/30_encoding.md R47 to R49). -/

namespace Sys2Proof

/-- Why a command word is no command (spec/60_exceptions.md R149, codes 1 and 2). -/
inductive DecodeError
  /-- E_OPCODE: the OP field is not in the opcode map; carries OP. -/
  | opcode (op : BitVec 8)
  /-- E_RESERVED: a reserved bit, or a bit of an unused field, is 1; carries the offending bits. -/
  | reserved (bits : Word)
  deriving DecidableEq, Repr

/-- A row of the opcode map: OP, the mask of the bits the row fixes, and the command its fields select
(R48, R49). -/
structure OpcodeRow where
  op : BitVec 8
  mask : Word
  build : Word → Instr

/-- OP = word[7:0] (R47). -/
def opField (w : Word) : BitVec 8 := w.extractLsb' 0 8
/-- FMT = word[11:8] (R47). -/
def fmtField (w : Word) : BitVec 4 := w.extractLsb' 8 4
/-- PFMT = word[13:12] (R47). -/
def pfmtField (w : Word) : BitVec 2 := w.extractLsb' 12 2
/-- F = word[14] (R47). -/
def fField (w : Word) : Bool := w.getLsbD 14
/-- PP = word[15] (R47). -/
def ppField (w : Word) : Bool := w.getLsbD 15
/-- QSEL = word[17:16] (R47). -/
def qselField (w : Word) : BitVec 2 := w.extractLsb' 16 2
/-- LVL = word[22:18] (R47). -/
def lvlField (w : Word) : BitVec 5 := w.extractLsb' 18 5

/-- The opcode map of R49, row by row, with the masks it lists. -/
def opcodeMap : List OpcodeRow :=
  [ ⟨0x00, 0xFFFFFFFF, fun _ => .nop⟩,
    ⟨0x01, 0xFFFFF0FF, fun w => .desc (fmtField w)⟩,
    ⟨0x02, 0xFFFFF0FF, fun w => .palmax (fmtField w)⟩,
    ⟨0x03, 0xFF83F0FF, fun w => .dsize (fmtField w) (lvlField w)⟩,
    ⟨0x04, 0xFF83F0FF, fun w => .tsize (fmtField w) (lvlField w)⟩,
    ⟨0x05, 0xFFFFF0FF, fun w => .mipcnt (fmtField w)⟩,
    ⟨0x10, 0xFFFF40FF, fun w => .decb (fmtField w) (pfmtField w) (ppField w)⟩,
    ⟨0x11, 0xFFFFF0FF, fun w => .deci (fmtField w)⟩,
    ⟨0x12, 0xFFFFF0FF, fun w => .encb (fmtField w)⟩,
    ⟨0x13, 0xFFFFF0FF, fun w => .enci (fmtField w)⟩,
    ⟨0x20, 0xFFFFFFFF, fun _ => .cdec4⟩,
    ⟨0x21, 0xFFFFFFFF, fun _ => .ckey⟩,
    ⟨0x22, 0xFFFFBFFF, fun w => .cpal (fField w)⟩,
    ⟨0x23, 0xFFFFFFFF, fun _ => .cidx⟩,
    ⟨0x24, 0xFFFFFFFF, fun _ => .cenc4⟩,
    ⟨0x30, 0xFFFFFFFF, fun _ => .qdist⟩,
    ⟨0x31, 0xFFFFFFFF, fun _ => .qavg⟩,
    ⟨0x32, 0xFFFFFFFF, fun _ => .qnear⟩,
    ⟨0x33, 0xFFFCBFFF, fun w => .qpal (fField w) (qselField w)⟩,
    ⟨0x40, 0xFFFFFFFF, fun _ => .xswp⟩,
    ⟨0x41, 0xFFFFFFFF, fun _ => .xreo⟩,
    ⟨0x42, 0xFFFFFFFF, fun _ => .xred⟩,
    ⟨0x43, 0xFFFFFFFF, fun _ => .x2c⟩,
    ⟨0x44, 0xFFFFFFFF, fun _ => .c2x⟩,
    ⟨0x50, 0xFFFFCFFF, fun w => .pdec (pfmtField w)⟩,
    ⟨0x51, 0xFFFFCFFF, fun w => .penc (pfmtField w)⟩,
    ⟨0x52, 0xFFFF70FF, fun w => .prange (fmtField w) (ppField w)⟩ ]

/-- The bits of a command word that must be 0 and are not: `word & mask & 0xFFFFFF00` (R48, R149). -/
def offendingBits (mask w : Word) : Word := w &&& mask &&& 0xFFFFFF00

/-- Decodes a command word: OP first (E_OPCODE), then the row's mask (E_RESERVED) (R48, R152). -/
def decode (w : Word) : Except DecodeError Instr :=
  match opcodeMap.find? (fun row => row.op = opField w) with
  | none => .error (.opcode (opField w))
  | some row =>
    if offendingBits row.mask w = 0 then .ok (row.build w)
    else .error (.reserved (offendingBits row.mask w))

/-- The command word of the given fields, an unused field being 0:
`OP | FMT<<8 | PFMT<<12 | F<<14 | PP<<15 | QSEL<<16 | LVL<<18` (R47, R57). -/
def commandWord (op : BitVec 8) (fmt : BitVec 4 := 0) (pfmt : BitVec 2 := 0) (f : Bool := false)
    (pp : Bool := false) (qsel : BitVec 2 := 0) (lvl : BitVec 5 := 0) : Word :=
  op.setWidth 32 ||| fmt.setWidth 32 <<< 8 ||| pfmt.setWidth 32 <<< 12 |||
    (BitVec.ofBool f).setWidth 32 <<< 14 ||| (BitVec.ofBool pp).setWidth 32 <<< 15 |||
    qsel.setWidth 32 <<< 16 ||| lvl.setWidth 32 <<< 18

/-- Encodes a command as its command word (R47, R49). -/
def encode : Instr → Word
  | .nop => commandWord 0x00
  | .desc fmt => commandWord 0x01 (fmt := fmt)
  | .palmax fmt => commandWord 0x02 (fmt := fmt)
  | .dsize fmt lvl => commandWord 0x03 (fmt := fmt) (lvl := lvl)
  | .tsize fmt lvl => commandWord 0x04 (fmt := fmt) (lvl := lvl)
  | .mipcnt fmt => commandWord 0x05 (fmt := fmt)
  | .decb fmt pfmt pp => commandWord 0x10 (fmt := fmt) (pfmt := pfmt) (pp := pp)
  | .deci fmt => commandWord 0x11 (fmt := fmt)
  | .encb fmt => commandWord 0x12 (fmt := fmt)
  | .enci fmt => commandWord 0x13 (fmt := fmt)
  | .cdec4 => commandWord 0x20
  | .ckey => commandWord 0x21
  | .cpal f => commandWord 0x22 (f := f)
  | .cidx => commandWord 0x23
  | .cenc4 => commandWord 0x24
  | .qdist => commandWord 0x30
  | .qavg => commandWord 0x31
  | .qnear => commandWord 0x32
  | .qpal f qsel => commandWord 0x33 (f := f) (qsel := qsel)
  | .xswp => commandWord 0x40
  | .xreo => commandWord 0x41
  | .xred => commandWord 0x42
  | .x2c => commandWord 0x43
  | .c2x => commandWord 0x44
  | .pdec pfmt => commandWord 0x50 (pfmt := pfmt)
  | .penc pfmt => commandWord 0x51 (pfmt := pfmt)
  | .prange fmt pp => commandWord 0x52 (fmt := fmt) (pp := pp)

/-- The command word of a row of spec/opcode_table.json: its first `nbits` bits, the others 0. -/
def tableWord (nbits w : Nat) : Word := Word.ofNat (w % 2 ^ nbits)

/-- The command that the decoder reads from a table row's bits, `none` where it refuses them. -/
def decodeTableWord (nbits w : Nat) : Option Instr := (decode (tableWord nbits w)).toOption

end Sys2Proof
end

