-- ==== Sys2Proof/Machine/Flags.lean ====
section
/-! DEFINITION. What sets and clears the bits of STATUS, the engine's only flags (spec/10_state.md R20,
R21, R24, R25; spec/60_exceptions.md R153, R156), and how STATUS and ERRCODE read. -/

namespace Sys2Proof.Machine

/-- The diagnostics a command raised (R156). -/
structure Diag where
  palshort : Bool := false
  palabsent : Bool := false
  rangeshort : Bool := false
  deriving DecidableEq, Repr

/-- STATUS as the host reads it: bits 0 to 6, bits 31:7 read 0 (R20). -/
def Status.word (st : Status) : Word :=
  (0#25 ++ BitVec.ofBool st.wbusy ++ BitVec.ofBool st.rangeshort ++ BitVec.ofBool st.palabsent ++
    BitVec.ofBool st.palshort ++ BitVec.ofBool st.err ++ BitVec.ofBool st.done ++
    BitVec.ofBool st.busy : BitVec (25 + 1 + 1 + 1 + 1 + 1 + 1 + 1))

/-- An issue clears bits 5:1 and sets BUSY; WBUSY stays (R24). -/
def Status.issue (st : Status) : Status :=
  { st with
    busy := true, done := false, err := false, palshort := false, palabsent := false,
    rangeshort := false }

/-- Write-1-to-clear of bits 6:1; bit 0 ignores writes (R21). -/
def Status.clear (st : Status) (v : Word) : Status :=
  { busy := st.busy
    done := st.done && !v.getLsbD 1
    err := st.err && !v.getLsbD 2
    palshort := st.palshort && !v.getLsbD 3
    palabsent := st.palabsent && !v.getLsbD 4
    rangeshort := st.rangeshort && !v.getLsbD 5
    wbusy := st.wbusy && !v.getLsbD 6 }

/-- A host register write that BUSY dropped sets WBUSY (R25, R166). -/
def Status.dropped (st : Status) : Status := { st with wbusy := true }

/-- Completion without error: the diagnostics raised, DONE, not BUSY (R26). -/
def Status.complete (st : Status) (d : Diag) : Status :=
  { st with
    palshort := st.palshort || d.palshort
    palabsent := st.palabsent || d.palabsent
    rangeshort := st.rangeshort || d.rangeshort
    done := true, busy := false }

/-- Completion with an error: ERR, DONE, not BUSY (R153). -/
def Status.fail (st : Status) : Status := { st with err := true, done := true, busy := false }

/-- The value ERRCODE reads as (R149). -/
def ErrCode.word : ErrCode → Word
  | .none => 0 | .opcode => 1 | .reserved => 2 | .format => 3 | .argument => 4 | .address => 5
  | .budget => 6 | .length => 7 | .index => 8 | .dim => 9

end Sys2Proof.Machine
end

