-- ==== Sys2Proof/Machine/Footprint.lean ====
section
/-! DEFINITION. The footprint of every command: the byte ranges of data memory it reads and writes, as
its rule lists them, from the command and the latched arguments alone (spec/20_memory.md R33). -/

namespace Sys2Proof.Machine

/-- A range whose length depends on what a field selects: none where the field selects nothing, since
the rule then gives it no length. DEDUCED (log 8). -/
def lengthFrom {α : Type} (selected : Option α) (k : α → Range) : List Range :=
  (selected.map k).toList

/-- The footprint of DECB (R89, R90, R104): the write range is that of the grey counterpart when an
indexed format has no palette. Both lengths, and which rule applies, depend on FMT; none is listed for an
FMT that names no format. DEDUCED (log 8). -/
def decbFootprint (fmt : BitVec 4) (pp : Bool) (x : Args) : Footprint :=
  match PixelFormat.ofCode fmt with
  | none => {}
  | some f =>
    if f.indexed && pp then
      { reads := [⟨x.src, 32⟩, ⟨x.aux, 2 * x.pallen.toNat⟩], writes := [⟨x.dst, 4 * f.npix⟩] }
    else
      { reads := [⟨x.src, f.blockBytes⟩], writes := [⟨x.dst, 4 * f.grey.npix⟩] }

/-- The footprint of QPAL (R133): the read range is listed whatever QSEL is; the length of the write
range depends on LEN and QSEL only (R128). -/
def qpalFootprint (qsel : BitVec 2) (x : Args) : Footprint :=
  { reads := [⟨x.src, 4 * x.len.toNat⟩],
    writes := lengthFrom (PaletteSize.ofCode qsel) fun m =>
      ⟨x.dst, 4 * min x.len.toNat m.maxColors⟩ }

/-- The footprint of a transcoder command (R141). -/
def transcodeFootprint (x : Args) : Footprint :=
  { reads := [⟨x.src, x.len.toNat⟩], writes := [⟨x.dst, x.len.toNat⟩] }

/-- The footprint each command's rule lists. -/
def footprint (i : Instr) (x : Args) : Footprint :=
  match i with
  | .nop | .desc _ | .palmax _ | .dsize _ _ | .tsize _ _ | .mipcnt _ => {}
  | .decb fmt _ pp => decbFootprint fmt pp x
  | .deci fmt =>
      { reads := [⟨x.src, 32⟩],
        writes := lengthFrom (PixelFormat.ofCode fmt) fun f => ⟨x.dst, 2 * f.npix⟩ }
  | .encb fmt =>
      { reads := lengthFrom (PixelFormat.ofCode fmt) fun f => ⟨x.src, 4 * f.npix⟩,
        writes := lengthFrom (PixelFormat.ofCode fmt) fun f => ⟨x.dst, f.blockBytes⟩ }
  | .enci fmt =>
      { reads := lengthFrom (PixelFormat.ofCode fmt) fun f => ⟨x.src, 2 * f.npix⟩,
        writes := [⟨x.dst, 32⟩] }
  | .cdec4 => { reads := [⟨x.src, 8⟩], writes := [⟨x.dst, 64⟩] }
  | .ckey => { reads := [⟨x.src, 64⟩], writes := [⟨x.dst, 8⟩] }
  | .cpal f => { reads := if f then [⟨x.src, 8⟩] else [], writes := [⟨x.dst, 16⟩] }
  | .cidx => { reads := [⟨x.src, 64⟩, ⟨x.aux, 16⟩] }
  | .cenc4 => { reads := [⟨x.src, 64⟩], writes := [⟨x.dst, 8⟩] }
  | .qdist => { reads := [⟨x.src, 4⟩, ⟨x.aux, 4⟩] }
  | .qavg => { reads := [⟨x.src, 4 * x.len.toNat⟩] }
  | .qnear =>
      { reads := [⟨x.src, 4 * x.len.toNat⟩, ⟨x.aux, 4 * x.pallen.toNat⟩],
        writes := [⟨x.dst, 2 * x.len.toNat⟩] }
  | .qpal _ qsel => qpalFootprint qsel x
  | .xswp | .xreo | .xred | .x2c | .c2x => transcodeFootprint x
  | .pdec _ =>
      { reads := [⟨x.src, 2 * x.len.toNat⟩], writes := [⟨x.dst, 4 * x.len.toNat⟩] }
  | .penc _ =>
      { reads := [⟨x.src, 4 * x.len.toNat⟩], writes := [⟨x.dst, 2 * x.len.toNat⟩] }
  | .prange _ _ => { reads := [⟨x.src, x.len.toNat⟩] }

end Sys2Proof.Machine
end

