-- ==== Sys2Proof/Machine/Ops.lean ====
section
/-! DEFINITION. The named operations over data memory and the registers: bytes and arrays of data
memory (spec/20_memory.md), the issue of a command (spec/10_state.md R24), its completion (R26), its
completion with an error, which is this engine's only exception (spec/60_exceptions.md R153), and the
checks that lead to one (R152). There is no return operation (R155): the host's W1C write to STATUS and
the next issue clear the error, in Machine/HostAgent.lean and `State.issue`. -/

namespace Sys2Proof.Machine

/-! ### Data memory -/

/-- The byte at address a. -/
def Memory.read (m : Memory) (a : Nat) : Byte :=
  match m with
  | [] => unlistedByte
  | (k, b) :: m => if k = a then b else Memory.read m a

/-- The list with the cell (a, b) put before the first larger address. -/
def Memory.insert (m : Memory) (a : Nat) (b : Byte) : Memory :=
  match m with
  | [] => [(a, b)]
  | (k, c) :: m => if a < k then (a, b) :: (k, c) :: m else (k, c) :: Memory.insert m a b

/-- The memory with byte b at address a, in canonical form. -/
def Memory.write (m : Memory) (a : Nat) (b : Byte) : Memory :=
  let rest := m.filter (fun c => c.1 ≠ a)
  if b = unlistedByte then rest else Memory.insert rest a b

/-- The n bytes from address a. -/
def Memory.readBytes (m : Memory) (a n : Nat) : List Byte :=
  (List.range n).map fun k => m.read (a + k)

/-- The memory with the bytes written from address a on, in order. -/
def Memory.writeBytes (m : Memory) (a : Nat) (bs : List Byte) : Memory :=
  match bs with
  | [] => m
  | b :: bs => Memory.writeBytes (m.write a b) (a + 1) bs

/-- Addresses strictly rise and no listed byte is what an unlisted address reads as. -/
def Memory.wf (m : Memory) : Bool :=
  match m with
  | [] => true
  | (k, b) :: m => decide (b ≠ unlistedByte) && m.all (fun c => decide (k < c.1)) && Memory.wf m

/-- Every listed byte lies below `size`. -/
def Memory.below (size : Nat) (m : Memory) : Bool := m.all fun c => decide (c.1 < size)

/-- `ReadColor(a)` (R36). -/
def Memory.readColor (m : Memory) (a : Nat) : Color :=
  ⟨m.read a, m.read (a + 1), m.read (a + 2), m.read (a + 3)⟩

/-- The colour array of n colours at address a (R36). -/
def Memory.readColors (m : Memory) (a n : Nat) : List Color :=
  (List.range n).map fun k => m.readColor (a + 4 * k)

/-- `MemRead(a, 2)`, and `ReadIdx(a)` (R8, R37). -/
def Memory.readHalf (m : Memory) (a : Nat) : Half := be16 (m.read a) (m.read (a + 1))

/-- The array of n big-endian 16-bit values at address a: raw palette entries or indices (R37, R38). -/
def Memory.readHalves (m : Memory) (a n : Nat) : List Half :=
  (List.range n).map fun k => m.readHalf (a + 2 * k)

/-! ### Issue and completion -/

/-- The argument registers and CMD latched at an issue of v (R24). -/
def State.snapshot (s : State) (v : Word) : Latched := ⟨v, s.args⟩

/-- A host write of v to CMD while BUSY = 0 (R24). -/
def State.issue (s : State) (v : Word) : State :=
  { s with
    lastCmd := v, status := s.status.issue, errCode := .none, errInfo := 0,
    latched := s.snapshot v }

/-- What a command that ends without error leaves: the bytes it writes from DST on, the RES registers it
writes, and the diagnostics it raised (R18, R26). Every command of the engine writes at most one
range of data memory, and that range starts at DST. -/
structure Outputs where
  bytes : List Byte := []
  res0 : Option Word := none
  res1 : Option Word := none
  res2 : Option Word := none
  res3 : Option Word := none
  diag : Diag := {}
  deriving DecidableEq, Repr

/-- Completion without error (R26 steps 5 and 6). -/
def State.complete (s : State) (o : Outputs) : State :=
  { s with
    mem := s.mem.writeBytes s.latched.args.dst.toNat o.bytes
    res0 := o.res0.getD s.res0
    res1 := o.res1.getD s.res1
    res2 := o.res2.getD s.res2
    res3 := o.res3.getD s.res3
    status := s.status.complete o.diag }

/-- Error completion: the whole of the step of a command that ends with error `c` and info `v` (R153). -/
def State.errorComplete (s : State) (c : ErrCode) (v : Word) : State :=
  { s with errCode := c, errInfo := v, status := s.status.fail }

/-! ### The checks of a command, in the order of R152 -/

/-- Goes on with `k`, or ends with error `c` and info `v` where `bad` holds. -/
def State.unless (s : State) (bad : Bool) (c : ErrCode) (v : Word) (k : State) : State :=
  if bad then s.errorComplete c v else k

/-- Goes on with the format FMT names, or ends with E_FORMAT(FMT) (R50). -/
def State.withFormat (s : State) (fmt : BitVec 4) (k : PixelFormat → State) : State :=
  match PixelFormat.ofCode fmt with
  | none => s.errorComplete .format (fmt.setWidth 32)
  | some f => k f

/-- Goes on with the palette format PFMT names, or ends with E_FORMAT(PFMT) (R51). -/
def State.withPaletteFormat (s : State) (pfmt : BitVec 2) (k : PaletteFormat → State) : State :=
  match PaletteFormat.ofCode pfmt with
  | none => s.errorComplete .format (pfmt.setWidth 32)
  | some p => k p

/-- Goes on with the palette size QSEL selects, or ends with E_FORMAT(QSEL) (R52). -/
def State.withPaletteSize (s : State) (qsel : BitVec 2) (k : PaletteSize → State) : State :=
  match PaletteSize.ofCode qsel with
  | none => s.errorComplete .format (qsel.setWidth 32)
  | some m => k m

/-- Ends with E_ARGUMENT(FMT) unless the format's class is the one the command needs (R149 code 4). -/
def State.needIndexed (s : State) (f : PixelFormat) (want : Bool) (k : State) : State :=
  s.unless (f.indexed != want) .argument (f.code.setWidth 32) k

/-- Ends with E_ARGUMENT(PALLEN) where PALLEN > 16384 (R16). -/
def State.needPalette (s : State) (k : State) : State :=
  s.unless (decide (s.latched.args.pallen.toNat > maxPalette)) .argument
    s.latched.args.pallenWord k

/-- Ends with E_DIM(DIM) where W or H is 0 (R67). -/
def State.needDim (s : State) (k : State) : State :=
  s.unless (s.latched.args.width == 0 || s.latched.args.height == 0) .dim s.latched.args.dim k

/-- Ends with E_LENGTH(LEN) where `bad` holds (R149 code 7). -/
def State.needLength (s : State) (bad : Bool) (k : State) : State :=
  s.unless bad .length s.latched.args.len k

/-- Ends with E_ADDRESS where a range of the command's footprint is not in data memory (R32, R150). -/
def State.access (s : State) (i : Instr) (k : State) : State :=
  match (footprint i s.latched.args).firstOutside s.memSize with
  | none => k
  | some r => s.errorComplete .address r.start

/-- The engine step of a word that is no command (R149 codes 1 and 2). -/
def State.rejectWord (s : State) : DecodeError → State
  | .opcode op => s.errorComplete .opcode (op.setWidth 32)
  | .reserved bits => s.errorComplete .reserved bits

end Sys2Proof.Machine
end

