-- ==== Sys2Proof/Machine/Cmpr.lean ====
section
/-! DEFINITION. The CMPR sub-block decoder and encoder and the commands CDEC4, CKEY, CPAL, CIDX, CENC4
(spec/43_cmpr.md). -/

namespace Sys2Proof.Machine

/-! ### Palette and decoder -/

/-- `(2·a + b) div 3` on one channel (R99). -/
def blend21Channel (x y : Byte) : Byte := BitVec.ofNat 8 ((2 * x.toNat + y.toNat) / 3)

/-- `(a + b) div 2` on one channel (R99). -/
def avgChannel (x y : Byte) : Byte := BitVec.ofNat 8 ((x.toNat + y.toNat) / 2)

/-- `Blend21(a, b)` (R99). -/
def blend21 (p q : Color) : Color :=
  ⟨blend21Channel p.r q.r, blend21Channel p.g q.g, blend21Channel p.b q.b, 255⟩

/-- `Avg(a, b)` (R99). -/
def avgColor (p q : Color) : Color :=
  ⟨avgChannel p.r q.r, avgChannel p.g q.g, avgChannel p.b q.b, 255⟩

/-- 4-colour mode: r0 > r1 as unsigned values (R98). -/
def fourColour (r0 r1 : Half) : Bool := decide (r0.toNat > r1.toNat)

/-- `LocalPalette(a, b, four)` (R100). -/
def localPalette (p q : Color) (four : Bool) : List Color :=
  if four then [p, q, blend21 p q, blend21 q p]
  else [p, q, avgColor p q, { avgColor p q with a := 0 }]

/-- `DecPalette(r0, r1)` (R101). -/
def decPalette (r0 r1 : Half) : List Color := localPalette (dec565 r0) (dec565 r1) (fourColour r0 r1)

/-- `idx(p)`: the 2-bit index of pixel p in the index field, pixel 0 in bits 31:30 (R96). -/
def indexOf (w : Word) (p : Nat) : Nat := (w.extractLsb' (30 - 2 * p) 2).toNat

/-- `DecodeSub(s)`: the 16 colours of an 8-byte sub-block (R102). -/
def decodeSub (b : List Byte) : List Color :=
  (List.range 16).map fun p =>
    (decPalette (halfAt b 0) (halfAt b 2)).getD (indexOf (wordAt b 4) p) black

/-- Sub-block q of a 32-byte CMPR block (R97). -/
def subBlock (b : List Byte) (q : Nat) : List Byte := (b.drop (8 * q)).take 8

/-- Pixel i = 8y + x of a CMPR block: sub-block pixel 4·(y mod 4) + (x mod 4) of sub-block
2·(y div 4) + (x div 4) (R97, R104). -/
def cmprPixel (b : List Byte) (i : Nat) : Color :=
  (decodeSub (subBlock b (2 * (i / 8 / 4) + i % 8 / 4))).getD (4 * (i / 8 % 4) + i % 8 % 4) black

/-! ### Key-colour selector -/

/-- A pixel below the punch-through threshold: A < 16 (R105). -/
def punchThrough (c : Color) : Bool := decide (c.a.toNat < 16)

/-- Pixel (x, y) lies in the valid extent of DIM (R106). -/
def inExtent (x : Args) (col row : Nat) : Bool := decide (col < x.width) && decide (row < x.height)

/-- The in-bounds predicate of a 4×4 sub-block command (R106). -/
def subInBounds (x : Args) (p : Nat) : Bool := inExtent x (p % 4) (p / 4)

/-- The keys that `SelectKeys` picks: two colours, their raw words and the four flags (R107). -/
structure Keys where
  k0 : Color
  k1 : Color
  r0 : Half
  r1 : Half
  pt : Bool := false
  dflt : Bool := false
  tie : Bool := false
  swp : Bool := false
  deriving DecidableEq, Repr

/-- The flags value: PT bit 0, DEF bit 1, TIE bit 2, SWP bit 3 (R107). -/
def Keys.flags (k : Keys) : Word :=
  (BitVec.ofBool k.swp ++ BitVec.ofBool k.tie ++ BitVec.ofBool k.dflt ++
    BitVec.ofBool k.pt : BitVec (1 + 1 + 1 + 1)).setWidth 32

/-- The raw words in one register: `r0 << 16 | r1` (R111). -/
def Keys.raw (k : Keys) : Word := k.r0 ++ k.r1

/-- The in-bounds pixels, in pixel order. -/
def coveredPixels (ps : List Color) (inb : Nat → Bool) : List Color :=
  (ps.zipIdx.filter fun cp => inb cp.2).map (·.1)

/-- needPT: some in-bounds pixel is a punch-through pixel (R105, R107). -/
def needsPunchThrough (ps : List Color) (inb : Nat → Bool) : Bool :=
  (coveredPixels ps inb).any punchThrough

/-- S: the in-bounds pixels that are not punch-through pixels, in pixel order (R107). -/
def survivors (ps : List Color) (inb : Nat → Bool) : List Color :=
  (coveredPixels ps inb).filter fun c => !punchThrough c

/-- The picks before the tie-break: BLACK and WHITE for no survivor, the survivor twice for one, else
the pair at maximum distance (R107, R108). -/
def pickKeys (cs : List Color) : Keys :=
  match cs with
  | [] => { k0 := black, k1 := white, r0 := enc565 black, r1 := enc565 white, dflt := true }
  | c :: cs =>
    let (ka, kb) := (maxDistancePair (c :: cs)).getD (c, c)
    { k0 := ka, k1 := kb, r0 := enc565 ka, r1 := enc565 kb }

/-- The tie-break: two different picks with one raw word; the later becomes BLACK, or WHITE where the
shared word is 0 (R109). The default picks have different words, so the rule's |S| ≥ 1 needs no
test. -/
def tieBreak (k : Keys) : Keys :=
  if k.r0 = k.r1 ∧ k.k0 ≠ k.k1 then
    let kb := if k.r0 = 0 then white else black
    { k with k1 := kb, r1 := enc565 kb, tie := true }
  else k

/-- The ordering: r0 ≤ r1 where the sub-block needs punch-through, r0 > r1 where it does not and the
words differ (R110). -/
def orderKeys (needPT : Bool) (k : Keys) : Keys :=
  if (needPT && fourColour k.r0 k.r1) || (!needPT && fourColour k.r1 k.r0) then
    { k with k0 := k.k1, k1 := k.k0, r0 := k.r1, r1 := k.r0, swp := true }
  else k

/-- `SelectKeys(P, inb)` (R107). -/
def selectKeys (ps : List Color) (inb : Nat → Bool) : Keys :=
  { orderKeys (needsPunchThrough ps inb) (tieBreak (pickKeys (survivors ps inb))) with
    pt := needsPunchThrough ps inb }

/-! ### Indexer and encoder -/

/-- `EncPalette(k0, k1, r0, r1)` (R112). -/
def encPalette (k : Keys) : List Color := localPalette k.k0 k.k1 (fourColour k.r0 k.r1)

/-- `Index(P, inb, L)`: the nearest entry of each in-bounds pixel, 0 for the others, pixel p in bits
31 − 2p : 30 − 2p (R114). -/
def indexField (ps : List Color) (inb : Nat → Bool) (palette : List Color) : Word :=
  Word.ofNat (ps.zipIdx.map fun cp =>
    (if inb cp.2 then nearestColor cp.1 palette else 0) <<< (30 - 2 * cp.2)).sum

/-- The index field of `EncodeSub` (R116). -/
def encodeIndices (ps : List Color) (inb : Nat → Bool) : Word :=
  indexField ps inb (encPalette (selectKeys ps inb))

/-- `EncodeSub(P, inb)`: the 8 bytes of the compressed sub-block (R116). -/
def encodeSub (ps : List Color) (inb : Nat → Bool) : List Byte :=
  halfBytes (selectKeys ps inb).r0 ++ halfBytes (selectKeys ps inb).r1 ++
    wordBytes (encodeIndices ps inb)

/-- Block column of pixel p of sub-block q (R118). -/
def subColumn (q p : Nat) : Nat := 4 * (q % 2) + p % 4
/-- Block row of pixel p of sub-block q (R118). -/
def subRow (q p : Nat) : Nat := 4 * (q / 2) + p / 4

/-- The 16 pixels of sub-block q of an 8×8 block in row-major order (R118). -/
def subPixels (ps : List Color) (q : Nat) : List Color :=
  (List.range 16).map fun p => ps.getD (8 * subRow q p + subColumn q p) black

/-- The 32 bytes of a compressed 8×8 block, DIM being the extent of the whole block (R118). -/
def encodeCmpr (ps : List Color) (x : Args) : List Byte :=
  (List.range 4).flatMap fun q =>
    encodeSub (subPixels ps q) fun p => inExtent x (subColumn q p) (subRow q p)

/-! ### Commands -/

/-- CDEC4 (R103). -/
def execCdec4 (s : State) : Outcome := .next <|
  s.access .cdec4 <|
  s.complete (
    let b := s.mem.readBytes s.latched.args.src.toNat 8
    { bytes := colorBytes (decodeSub b), res0 := some (wordAt b 0), res1 := some (wordAt b 4) })

/-- CKEY (R111). -/
def execCkey (s : State) : Outcome := .next <|
  s.access .ckey <|
  s.complete (
    let k := selectKeys (s.mem.readColors s.latched.args.src.toNat 16) (subInBounds s.latched.args)
    { bytes := colorBytes [k.k0, k.k1], res0 := some k.raw, res1 := some k.flags })

/-- The palette of CPAL: the decoder's from two raw words, or the encoder's from two colours with the
mode taken from the words (R113). -/
def cpalPalette (f : Bool) (x : Args) (m : Memory) : List Color :=
  if f then
    localPalette (m.readColor x.src.toNat) (m.readColor (x.src.toNat + 4))
      (fourColour (x.arg.extractLsb' 16 16) (x.arg.extractLsb' 0 16))
  else decPalette (x.arg.extractLsb' 16 16) (x.arg.extractLsb' 0 16)

/-- CPAL (R113). -/
def execCpal (f : Bool) (s : State) : Outcome := .next <|
  s.access (.cpal f) <|
  s.complete { bytes := colorBytes (cpalPalette f s.latched.args s.mem) }

/-- CIDX (R115). -/
def execCidx (s : State) : Outcome := .next <|
  s.access .cidx <|
  s.complete
    { res0 := some (indexField (s.mem.readColors s.latched.args.src.toNat 16)
        (subInBounds s.latched.args) (s.mem.readColors s.latched.args.aux.toNat 4)) }

/-- CENC4 (R117). -/
def execCenc4 (s : State) : Outcome := .next <|
  s.access .cenc4 <|
  s.complete (
    let ps := s.mem.readColors s.latched.args.src.toNat 16
    let inb := subInBounds s.latched.args
    { bytes := encodeSub ps inb
      res0 := some (selectKeys ps inb).raw
      res1 := some (selectKeys ps inb).flags
      res2 := some (encodeIndices ps inb) })

end Sys2Proof.Machine
end

