-- ==== Sys2Proof/Machine/BlockCodec.lean ====
section
/-! DEFINITION. The block layouts of the eleven formats and the commands DECB, DECI, ENCB, ENCI, PDEC,
PENC (spec/42_block_codecs.md; the CMPR arms of DECB and ENCB: spec/43_cmpr.md R104, R118). -/

namespace Sys2Proof.Machine

/-! ### Decode -/

/-- The colour with one intensity in its three channels. -/
def greyColor (i a : Byte) : Color := ⟨i, i, i, a⟩

/-- `Decode_f(b, i)`: pixel i of a block (R76 to R83; CMPR: R104). An indexed format decodes as its grey
counterpart (R87). -/
def decodePixel (f : PixelFormat) (b : List Byte) (i : Nat) : Color :=
  match f with
  | .i4 | .c4 => greyColor (rep4 (nibbleAt b i)) (rep4 (nibbleAt b i))
  | .i8 | .c8 => greyColor (byteAt b i) (byteAt b i)
  | .ia4 | .c14x2 =>
    greyColor (rep4 ((byteAt b i).extractLsb' 0 4)) (rep4 ((byteAt b i).extractLsb' 4 4))
  | .ia8 => decIA8 (halfAt b (2 * i))
  | .rgb565 => dec565 (halfAt b (2 * i))
  | .rgb5a3 => dec5A3 (halfAt b (2 * i))
  | .rgba32 =>
    ⟨byteAt b (2 * i + 1), byteAt b (32 + 2 * i), byteAt b (33 + 2 * i), byteAt b (2 * i)⟩
  | .cmpr => cmprPixel b i

/-- The pixels of a block (R89, R104). -/
def decodeBlock (f : PixelFormat) (b : List Byte) : List Color :=
  (List.range f.npix).map (decodePixel f b)

/-- `idx_i`: index i of a block or index list of an indexed format (R84, R147); 0 for a direct format,
which DECI, ENCI and PRANGE refuse with E_ARGUMENT. -/
def indexAt (f : PixelFormat) (b : List Byte) (i : Nat) : Half :=
  match f with
  | .c4 => (nibbleAt b i).setWidth 16
  | .c8 => (byteAt b i).setWidth 16
  | .c14x2 => halfAt b (2 * i) &&& 0x3FFF
  | .i4 | .i8 | .ia4 | .ia8 | .rgb565 | .rgb5a3 | .rgba32 | .cmpr => 0

/-- The indices of a block (R84, R91). -/
def decodeIndices (f : PixelFormat) (b : List Byte) : List Half :=
  (List.range f.npix).map (indexAt f b)

/-- `Resolve(k)` with the raw entries of the palette: BLACK at or beyond its length (R86). -/
def resolveIndex (p : PaletteFormat) (entries : List Half) (k : Half) : Color :=
  match entries[k.toNat]? with
  | some v => decPal p v
  | none => black

/-! ### Encode -/

/-- Two 4-bit values in each byte, the first in the high nibble (R76, R84). -/
def packNibbles (vs : List (BitVec 4)) : List Byte :=
  (List.range (vs.length / 2)).map fun k => vs.getD (2 * k) 0 ++ vs.getD (2 * k + 1) 0

/-- `Encode_f(P)` (R76 to R80, R82, R83, R92). CMPR is encoded by `encodeCmpr` (R118), and an indexed format has
no encoding from colours (ENCB refuses it with E_ARGUMENT). -/
def encodeBlock (f : PixelFormat) (ps : List Color) : List Byte :=
  match f with
  | .i4 => packNibbles (ps.map fun p => narrow 4 (intensity p))
  | .i8 => ps.map intensity
  | .ia4 => ps.map fun p => narrow 4 p.a ++ narrow 4 (intensity p)
  | .ia8 => ps.flatMap fun p => halfBytes (encIA8 p)
  | .rgb565 => ps.flatMap fun p => halfBytes (enc565 p)
  | .rgb5a3 => ps.flatMap fun p => halfBytes (enc5A3 p)
  | .rgba32 => (ps.flatMap fun p => [p.a, p.r]) ++ ps.flatMap fun p => [p.g, p.b]
  | .cmpr | .c4 | .c8 | .c14x2 => []

/-- The packing of R84 (R93). -/
def encodeIndexBlock (f : PixelFormat) (is : List Half) : List Byte :=
  match f with
  | .c4 => packNibbles (is.map fun v => v.setWidth 4)
  | .c8 => is.map fun v => v.setWidth 8
  | .c14x2 => is.flatMap fun v => halfBytes (v &&& 0x3FFF)
  | .i4 | .i8 | .ia4 | .ia8 | .rgb565 | .rgb5a3 | .rgba32 | .cmpr => []

/-- The lowest pixel number whose index is above maxIndex (R93). -/
def firstBadIndex (f : PixelFormat) (is : List Half) : Option Nat :=
  is.findIdx? fun v => decide (v.toNat > f.maxIndex)

/-! ### Commands -/

/-- The completion of a DECB that decodes as format g (R89, R90 with PP = 0, R104). -/
def decbOutputs (g : PixelFormat) (d : Diag) (x : Args) (m : Memory) : Outputs :=
  { bytes := colorBytes (decodeBlock g (m.readBytes x.src.toNat g.blockBytes))
    res0 := some (g.code.setWidth 32)
    res1 := some (Word.ofNat g.npix)
    diag := d }

/-- The completion of a DECB of an indexed format through its palette (R90 with PP = 1): PALSHORT where
some index is at or beyond PALLEN. -/
def decbIndexedOutputs (f : PixelFormat) (p : PaletteFormat) (x : Args) (m : Memory) : Outputs :=
  let is := decodeIndices f (m.readBytes x.src.toNat 32)
  let entries := m.readHalves x.aux.toNat x.pallen.toNat
  { bytes := colorBytes (is.map (resolveIndex p entries))
    res0 := some (f.code.setWidth 32)
    res1 := some (Word.ofNat f.npix)
    diag := { palshort := is.any fun k => decide (x.pallen.toNat ≤ k.toNat) } }

/-- DECB (R89, R90, R104). -/
def execDecb (fmt : BitVec 4) (pfmt : BitVec 2) (pp : Bool) (s : State) : Outcome := .next <|
  s.withFormat fmt fun f =>
  if f.indexed && pp then
    s.withPaletteFormat pfmt fun p =>
    s.needPalette <|
    s.access (.decb fmt pfmt pp) <|
    s.complete (decbIndexedOutputs f p s.latched.args s.mem)
  else
    s.access (.decb fmt pfmt pp) <|
    s.complete (decbOutputs f.grey { palabsent := f.indexed } s.latched.args s.mem)

/-- DECI (R91). -/
def execDeci (fmt : BitVec 4) (s : State) : Outcome := .next <|
  s.withFormat fmt fun f =>
  s.needIndexed f true <|
  s.access (.deci fmt) <|
  s.complete
    { bytes := indexBytes (decodeIndices f (s.mem.readBytes s.latched.args.src.toNat 32))
      res0 := some (Word.ofNat f.npix) }

/-- ENCB (R92, R118). -/
def execEncb (fmt : BitVec 4) (s : State) : Outcome := .next <|
  s.withFormat fmt fun f =>
  s.needIndexed f false <|
  s.access (.encb fmt) <|
  s.complete (
    let ps := s.mem.readColors s.latched.args.src.toNat f.npix
    { bytes := if f = .cmpr then encodeCmpr ps s.latched.args else encodeBlock f ps })

/-- ENCI (R93). -/
def execEnci (fmt : BitVec 4) (s : State) : Outcome := .next <|
  s.withFormat fmt fun f =>
  s.needIndexed f true <|
  s.access (.enci fmt) <|
  (let is := s.mem.readHalves s.latched.args.src.toNat f.npix
   match firstBadIndex f is with
   | some i => s.errorComplete .index (Word.ofNat i)
   | none => s.complete { bytes := encodeIndexBlock f is })

/-- PDEC (R94). -/
def execPdec (pfmt : BitVec 2) (s : State) : Outcome := .next <|
  s.withPaletteFormat pfmt fun p =>
  s.access (.pdec pfmt) <|
  s.complete
    { bytes := colorBytes
        ((s.mem.readHalves s.latched.args.src.toNat s.latched.args.len.toNat).map (decPal p)) }

/-- PENC (R95). -/
def execPenc (pfmt : BitVec 2) (s : State) : Outcome := .next <|
  s.withPaletteFormat pfmt fun p =>
  s.access (.penc pfmt) <|
  s.complete
    { bytes := indexBytes
        ((s.mem.readColors s.latched.args.src.toNat s.latched.args.len.toNat).map (encPal p)) }

end Sys2Proof.Machine
end

