-- ==== Sys2Proof/Machine/Descriptor.lean ====
section
/-! DEFINITION. Size arithmetic and the commands NOP, DESC, PALMAX, DSIZE, TSIZE, MIPCNT
(spec/41_descriptor.md). -/

namespace Sys2Proof.Machine

/-- `pad(v, b)`: v rounded up to a multiple of b (R59). -/
def pad (v b : Nat) : Nat := (v + b - 1) / b * b

/-- `dataSize(f, w, h)` (R60). -/
def dataSize (f : PixelFormat) (w h : Nat) : Nat := pad w f.bw * pad h f.bh * f.bpp / 8

/-- `dataSizeAt(f, w, h, l)` (R61). -/
def dataSizeAt (f : PixelFormat) (w h l : Nat) : Nat :=
  dataSize f (max 1 (w >>> l)) (max 1 (h >>> l))

/-- `totalDataSize(f, w, h, n)`: the sum over the mip levels 0 to n (R62). -/
def totalDataSize (f : PixelFormat) (w h n : Nat) : Nat :=
  match n with
  | 0 => dataSizeAt f w h 0
  | n + 1 => totalDataSize f w h n + dataSizeAt f w h (n + 1)

/-- The `count` of R63's loop, run for at most `fuel` levels. -/
def mipLevels (f : PixelFormat) (fuel size w h : Nat) : Nat :=
  match fuel with
  | 0 => 0
  | fuel + 1 =>
    if 0 < w ∧ 0 < h ∧ dataSize f w h ≤ size then
      mipLevels f fuel (size - dataSize f w h) (w >>> 1) (h >>> 1) + 1
    else 0

/-- The levels that fit whole in the byte budget (R63). W and H are 16-bit, so a dimension has reached
0 after 16 halvings. -/
def wholeLevels (f : PixelFormat) (x : Args) : Nat :=
  mipLevels f 16 x.len.toNat x.width x.height

/-- The descriptor packed as RES0 of DESC (R65). -/
def descriptorWord (f : PixelFormat) : Word :=
  Word.ofNat (f.bw ||| f.bh <<< 8 ||| f.bpp <<< 16 ||| (if f.indexed then 1 else 0) <<< 24)

/-- A 64-bit size in RES0 and RES1 (R18). -/
def sizeOutputs (n : Nat) : Outputs := { res0 := some (lowWord n), res1 := some (highWord n) }

/-- NOP (R64). -/
def execNop (s : State) : Outcome := .next (s.complete {})

/-- DESC (R65). -/
def execDesc (fmt : BitVec 4) (s : State) : Outcome := .next <|
  s.withFormat fmt fun f =>
  s.complete { res0 := some (descriptorWord f), res1 := some (Word.ofNat f.blockBytes) }

/-- PALMAX (R66). -/
def execPalmax (fmt : BitVec 4) (s : State) : Outcome := .next <|
  s.withFormat fmt fun f =>
  s.needIndexed f true <|
  s.complete { res0 := some (Word.ofNat f.maxColours), res1 := some (Word.ofNat (2 * f.maxColours)) }

/-- DSIZE (R67). -/
def execDsize (fmt : BitVec 4) (lvl : BitVec 5) (s : State) : Outcome := .next <|
  s.withFormat fmt fun f =>
  s.needDim <|
  s.complete (sizeOutputs (dataSizeAt f s.latched.args.width s.latched.args.height lvl.toNat))

/-- TSIZE (R68). -/
def execTsize (fmt : BitVec 4) (lvl : BitVec 5) (s : State) : Outcome := .next <|
  s.withFormat fmt fun f =>
  s.needDim <|
  s.complete (sizeOutputs (totalDataSize f s.latched.args.width s.latched.args.height lvl.toNat))

/-- MIPCNT (R69). -/
def execMipcnt (fmt : BitVec 4) (s : State) : Outcome := .next <|
  s.withFormat fmt fun f =>
  s.needDim <|
  s.unless (wholeLevels f s.latched.args == 0) .budget s.latched.args.len <|
  s.complete { res0 := some (Word.ofNat (wholeLevels f s.latched.args - 1)) }

end Sys2Proof.Machine
end

