-- ==== Sys2Proof/Machine/PaletteRange.lean ====
section
/-! DEFINITION. The used palette range and the command PRANGE (spec/46_palette_range.md). -/

namespace Sys2Proof.Machine

/-- The number of indices in `len` raw index bytes (R147). -/
def indexCount (f : PixelFormat) (len : Nat) : Nat :=
  match f with
  | .c4 => 2 * len
  | .c8 => len
  | .c14x2 => len / 2
  | .i4 | .i8 | .ia4 | .ia8 | .rgb565 | .rgb5a3 | .rgba32 | .cmpr => 0

/-- The index list of raw index bytes (R147). -/
def usedIndices (f : PixelFormat) (b : List Byte) : List Nat :=
  (List.range (indexCount f b.length)).map fun i => (indexAt f b i).toNat

/-- min of an index list (R147). -/
def minIndex (is : List Nat) : Nat := is.foldl min 65535
/-- max of an index list (R147). -/
def topIndex (is : List Nat) : Nat := is.foldl max 0

/-- The results and diagnostics of PRANGE (R148). -/
def prangeOutputs (f : PixelFormat) (pp : Bool) (x : Args) (m : Memory) : Outputs :=
  let is := usedIndices f (m.readBytes x.src.toNat x.len.toNat)
  { res0 := some (Word.ofNat (minIndex is))
    res1 := some (Word.ofNat (topIndex is))
    res2 := some (Word.ofNat (2 * minIndex is))
    res3 := some (Word.ofNat (2 * (topIndex is + 1)))
    diag :=
      { palabsent := !pp
        rangeshort := pp && decide (x.pallen.toNat < topIndex is + 1) } }

/-- PRANGE (R148). -/
def execPrange (fmt : BitVec 4) (pp : Bool) (s : State) : Outcome := .next <|
  s.withFormat fmt fun f =>
  s.needIndexed f true <|
  s.needPalette <|
  s.needLength
    (s.latched.args.len == 0 || (decide (f = .c14x2) && s.latched.args.len.toNat % 2 != 0)) <|
  s.access (.prange fmt pp) <|
  s.complete (prangeOutputs f pp s.latched.args s.mem)

end Sys2Proof.Machine
end

