-- ==== Sys2Proof/Machine/Quantizer.lean ====
section
/-! DEFINITION. The median cut and the commands QDIST, QAVG, QNEAR, QPAL (spec/44_quantizer.md). -/

namespace Sys2Proof.Machine

/-- The floor mean of one channel over a list (R124). -/
def channelMean (k : Color → Byte) (cs : List Color) : Byte :=
  BitVec.ofNat 8 ((cs.map fun c => (k c).toNat).sum / cs.length)

/-- `Average(C)`: the first zero-alpha member where there is one, else the floor mean of each channel
(R124). -/
def averageColor (cs : List Color) : Color :=
  match cs.find? (fun c => decide (c.a = 0)) with
  | some c => c
  | none => ⟨channelMean (·.r) cs, channelMean (·.g) cs, channelMean (·.b) cs, channelMean (·.a) cs⟩

/-- max − min of one channel over a non-empty list (R125). -/
def channelRange (k : Color → Byte) (cs : List Color) : Nat :=
  (cs.map fun c => (k c).toNat).foldl max 0 - (cs.map fun c => (k c).toNat).foldl min 255

/-- The channel of the largest range: green, then red, then blue on ties (R125). -/
def splitChannel (cs : List Color) : Color → Byte :=
  if channelRange (·.g) cs ≥ channelRange (·.r) cs ∧ channelRange (·.g) cs ≥ channelRange (·.b) cs
  then (·.g)
  else if channelRange (·.r) cs ≥ channelRange (·.b) cs then (·.r)
  else (·.b)

/-- The sort key (A, channel) as one number (R126). -/
def sortKey (k : Color → Byte) (c : Color) : Nat := c.a.toNat * 256 + (k c).toNat

/-- Puts x before the first element whose key is not smaller than its own. -/
def insertByKey (key : Color → Nat) (x : Color) : List Color → List Color
  | [] => [x]
  | y :: ys => if key x ≤ key y then x :: y :: ys else y :: insertByKey key x ys

/-- The stable ascending sort by key (R126). -/
def sortByKey (key : Color → Nat) (cs : List Color) : List Color :=
  cs.foldr (insertByKey key) []

/-- `SplitToBuckets(C, d)`: the upper half first; an empty bucket gives no entry (R126). -/
def splitToBuckets (d : Nat) (cs : List Color) : List Color :=
  match d with
  | 0 => if cs = [] then [] else [averageColor cs]
  | d + 1 =>
    if cs = [] then []
    else
      let sorted := sortByKey (sortKey (splitChannel cs)) cs
      splitToBuckets d (sorted.drop (sorted.length / 2)) ++
        splitToBuckets d (sorted.take (sorted.length / 2))

/-- `BuildLimitedPalette(C, maxColors, allowAlpha)` (R127). -/
def buildLimitedPalette (cs : List Color) (m : PaletteSize) (allowAlpha : Bool) : List Color :=
  splitToBuckets m.depth (if allowAlpha then cs else cs.map fun c => { c with a := 255 })

/-- QDIST (R130). -/
def execQdist (s : State) : Outcome := .next <|
  s.access .qdist <|
  s.complete (
    let v := distance (s.mem.readColor s.latched.args.src.toNat)
      (s.mem.readColor s.latched.args.aux.toNat)
    { res0 := some (lowWord v), res1 := some (highWord v) })

/-- QAVG (R131). -/
def execQavg (s : State) : Outcome := .next <|
  s.needLength (s.latched.args.len == 0) <|
  s.access .qavg <|
  s.complete
    { res0 := some
        (averageColor (s.mem.readColors s.latched.args.src.toNat s.latched.args.len.toNat)).word }

/-- QNEAR (R132). -/
def execQnear (s : State) : Outcome := .next <|
  s.unless (s.latched.args.pallen == 0) .argument s.latched.args.pallenWord <|
  s.needPalette <|
  s.access .qnear <|
  s.complete (
    let palette := s.mem.readColors s.latched.args.aux.toNat s.latched.args.pallen.toNat
    let pixels := s.mem.readColors s.latched.args.src.toNat s.latched.args.len.toNat
    { bytes := indexBytes (pixels.map fun c => BitVec.ofNat 16 (nearestColor c palette)) })

/-- QPAL (R133). -/
def execQpal (f : Bool) (qsel : BitVec 2) (s : State) : Outcome := .next <|
  s.withPaletteSize qsel fun m =>
  s.needLength (decide (s.latched.args.len.toNat > s.qpopMax)) <|
  s.access (.qpal f qsel) <|
  s.complete (
    let palette := buildLimitedPalette
      (s.mem.readColors s.latched.args.src.toNat s.latched.args.len.toNat) m f
    { bytes := colorBytes palette, res0 := some (Word.ofNat palette.length) })

end Sys2Proof.Machine
end

