-- ==== Sys2Proof/Machine/Transcoder.lean ====
section
/-! DEFINITION. The CMPR to DXT1 transcoder and the commands XSWP, XREO, XRED, X2C, C2X
(spec/45_transcoder.md). -/

namespace Sys2Proof.Machine

/-- `Rev2(x)`: the four 2-bit groups of a byte in reverse order (R136). -/
def rev2 (x : Byte) : Byte :=
  x.extractLsb' 0 2 ++ x.extractLsb' 2 2 ++ x.extractLsb' 4 2 ++ x.extractLsb' 6 2

/-- `Swap(w)` of one 8-byte word (R137). -/
def swapWord (w : List Byte) : List Byte :=
  [byteAt w 1, byteAt w 0, byteAt w 3, byteAt w 2,
    rev2 (byteAt w 4), rev2 (byteAt w 5), rev2 (byteAt w 6), rev2 (byteAt w 7)]

/-- The 8-byte word number n of a buffer (R134). -/
def dxtWord (b : List Byte) (n : Nat) : List Byte := (b.drop (8 * n)).take 8

/-- Every word of a buffer swapped (R142). -/
def swapWords (b : List Byte) : List Byte :=
  (List.range (b.length / 8)).flatMap fun n => swapWord (dxtWord b n)

/-- The foreign word that local word n = s·2·Wb + 4k + q comes from: (2s + q div 2)·Wb + 2k + q mod 2
(R138). -/
def foreignIndex (wb n : Nat) : Nat :=
  (2 * (n / (2 * wb)) + n % (2 * wb) % 4 / 2) * wb + 2 * (n % (2 * wb) / 4) + n % (2 * wb) % 4 % 2

/-- The local word that holds foreign word n, the sub-block (bx, by) = (n mod Wb, n div Wb) (R135, R138). -/
def localIndex (wb n : Nat) : Nat :=
  n / wb / 2 * (2 * wb) + 4 * (n % wb / 2) + 2 * (n / wb % 2) + n % wb % 2

/-- `ReorderEncode(buf)`, foreign order to local order (R138). -/
def reorderEncode (wb : Nat) (b : List Byte) : List Byte :=
  (List.range (b.length / 8)).flatMap fun n => dxtWord b (foreignIndex wb n)

/-- `ReorderDecode(buf)`, local order to foreign order (R138). -/
def reorderDecode (wb : Nat) (b : List Byte) : List Byte :=
  (List.range (b.length / 8)).flatMap fun n => dxtWord b (localIndex wb n)

/-- `ForeignToLocal`: reorder, then swap each word (R139). -/
def foreignToLocal (wb : Nat) (b : List Byte) : List Byte := swapWords (reorderEncode wb b)

/-- `LocalToForeign`: swap each word, then reorder (R139). -/
def localToForeign (wb : Nat) (b : List Byte) : List Byte := reorderDecode wb (swapWords b)

/-- Wb = W / 4, the sub-blocks of a row of the image (R138). -/
def Args.wordsAcross (x : Args) : Nat := x.width / 4

/-- W or H is 0 or no multiple of 8 (R141). -/
def badExtent (x : Args) : Bool :=
  x.width == 0 || x.width % 8 != 0 || x.height == 0 || x.height % 8 != 0

/-- The shared checks of the reorder commands (R141). -/
def State.needImage (s : State) (k : State) : State :=
  s.unless (badExtent s.latched.args) .dim s.latched.args.dim <|
  s.needLength (s.latched.args.len.toNat != s.latched.args.width * s.latched.args.height / 2) k

/-- The LEN bytes at SRC (R141). -/
def State.buffer (s : State) : List Byte :=
  s.mem.readBytes s.latched.args.src.toNat s.latched.args.len.toNat

/-- XSWP (R142). -/
def execXswp (s : State) : Outcome := .next <|
  s.needLength (s.latched.args.len.toNat % 8 != 0) <|
  s.access .xswp <|
  s.complete { bytes := swapWords s.buffer }

/-- XREO (R143). -/
def execXreo (s : State) : Outcome := .next <|
  s.needImage <|
  s.access .xreo <|
  s.complete { bytes := reorderEncode s.latched.args.wordsAcross s.buffer }

/-- XRED (R144). -/
def execXred (s : State) : Outcome := .next <|
  s.needImage <|
  s.access .xred <|
  s.complete { bytes := reorderDecode s.latched.args.wordsAcross s.buffer }

/-- X2C (R145). -/
def execX2c (s : State) : Outcome := .next <|
  s.needImage <|
  s.access .x2c <|
  s.complete { bytes := foreignToLocal s.latched.args.wordsAcross s.buffer }

/-- C2X (R146). -/
def execC2x (s : State) : Outcome := .next <|
  s.needImage <|
  s.access .c2x <|
  s.complete { bytes := localToForeign s.latched.args.wordsAcross s.buffer }

end Sys2Proof.Machine
end

