-- ==== Sys2Proof/Machine/Dispatch.lean ====
section
/-! DEFINITION. The meaning of every command: the engine step of R26 for the latched command, one arm per
constructor of `Instr`. -/

namespace Sys2Proof.Machine

def exec (i : Instr) (s : State) : Host.Outcome State Fault Refusal :=
  match i with
  | .nop => Sys2Proof.Machine.execNop s
  | .desc fmt => Sys2Proof.Machine.execDesc fmt s
  | .palmax fmt => Sys2Proof.Machine.execPalmax fmt s
  | .dsize fmt lvl => Sys2Proof.Machine.execDsize fmt lvl s
  | .tsize fmt lvl => Sys2Proof.Machine.execTsize fmt lvl s
  | .mipcnt fmt => Sys2Proof.Machine.execMipcnt fmt s
  | .decb fmt pfmt pp => Sys2Proof.Machine.execDecb fmt pfmt pp s
  | .deci fmt => Sys2Proof.Machine.execDeci fmt s
  | .encb fmt => Sys2Proof.Machine.execEncb fmt s
  | .enci fmt => Sys2Proof.Machine.execEnci fmt s
  | .cdec4 => Sys2Proof.Machine.execCdec4 s
  | .ckey => Sys2Proof.Machine.execCkey s
  | .cpal f => Sys2Proof.Machine.execCpal f s
  | .cidx => Sys2Proof.Machine.execCidx s
  | .cenc4 => Sys2Proof.Machine.execCenc4 s
  | .qdist => Sys2Proof.Machine.execQdist s
  | .qavg => Sys2Proof.Machine.execQavg s
  | .qnear => Sys2Proof.Machine.execQnear s
  | .qpal f qsel => Sys2Proof.Machine.execQpal f qsel s
  | .xswp => Sys2Proof.Machine.execXswp s
  | .xreo => Sys2Proof.Machine.execXreo s
  | .xred => Sys2Proof.Machine.execXred s
  | .x2c => Sys2Proof.Machine.execX2c s
  | .c2x => Sys2Proof.Machine.execC2x s
  | .pdec pfmt => Sys2Proof.Machine.execPdec pfmt s
  | .penc pfmt => Sys2Proof.Machine.execPenc pfmt s
  | .prange fmt pp => Sys2Proof.Machine.execPrange fmt pp s

end Sys2Proof.Machine
end

