-- ==== Sys2Proof/Machine/HostAgent.lean ====
section
/-! DEFINITION. The host's steps: register reads and writes, data-memory reads and writes, and the
platform's reset (spec/10_state.md R12, R14, R15, R19, R21, R25; spec/20_memory.md R44;
spec/60_exceptions.md R151; spec/70_reset_and_hazards.md R161). -/

namespace Sys2Proof.Machine

/-- The identification constant (R23). -/
def idWord : Word := 0x434D5052

/-- An aligned 32-bit access inside the window (R15). -/
def regAccessOk (width offset : Nat) : Bool :=
  width == 32 && offset % 4 == 0 && decide (offset < 0x100)

/-- The offset in the window of a host access at an address, where the access is defined (R14, R15); an
access outside the window is none. DEDUCED (log 10). -/
def State.windowOffset (s : State) (width addr : Nat) : Option Nat :=
  if s.regBase ≤ addr ∧ regAccessOk width (addr - s.regBase) then some (addr - s.regBase) else none

/-- What the register at an offset reads as; a reserved offset reads 0 (R14, R15). -/
def State.regRead (s : State) (offset : Nat) : Word :=
  match offset with
  | 0x00 => s.lastCmd
  | 0x04 => s.status.word
  | 0x08 => s.errCode.word
  | 0x0C => s.errInfo
  | 0x10 => s.args.src
  | 0x14 => s.args.dst
  | 0x18 => s.args.aux
  | 0x1C => s.args.len
  | 0x20 => s.args.dim
  | 0x24 => s.args.pallenWord
  | 0x28 => s.args.arg
  | 0x30 => s.res0
  | 0x34 => s.res1
  | 0x38 => s.res2
  | 0x3C => s.res3
  | 0x40 => idWord
  | _ => 0

/-- A host register write while BUSY = 0: CMD issues, STATUS clears, an argument register takes the
value, and a read-only register or a reserved offset changes nothing (R14, R15, R16, R21, R24). -/
def State.regWriteIdle (s : State) (offset : Nat) (v : Word) : State :=
  match offset with
  | 0x00 => s.issue v
  | 0x04 => { s with status := s.status.clear v }
  | 0x10 => { s with args := { s.args with src := v } }
  | 0x14 => { s with args := { s.args with dst := v } }
  | 0x18 => { s with args := { s.args with aux := v } }
  | 0x1C => { s with args := { s.args with len := v } }
  | 0x20 => { s with args := { s.args with dim := v } }
  | 0x24 => { s with args := { s.args with pallen := v.setWidth 15 } }
  | 0x28 => { s with args := { s.args with arg := v } }
  | _ => s

/-- A host register write. While BUSY = 1 every one is dropped and only sets WBUSY (R25, R166), one to a
read-only register or a reserved offset too; while BUSY = 0 such a write changes and sets nothing (R15).
DEDUCED (log 9). -/
def State.regWrite (s : State) (offset : Nat) (v : Word) : State :=
  if s.status.busy then { s with status := s.status.dropped } else s.regWriteIdle offset v

/-- The footprint of the latched command; a word that is no command has none (R33). -/
def State.runningFootprint (s : State) : Footprint :=
  match decode s.latched.word with
  | .ok i => footprint i s.latched.args
  | .error _ => {}

/-- A host data-memory read of r races the running command: r meets a write range (R44). -/
def State.readRaces (s : State) (r : Range) : Bool :=
  s.status.busy && s.runningFootprint.writes.any r.meets

/-- A host data-memory write of r races the running command: r meets a read or write range (R44). -/
def State.writeRaces (s : State) (r : Range) : Bool :=
  s.status.busy && (s.runningFootprint.reads ++ s.runningFootprint.writes).any r.meets

/-- A host data-memory read of n bytes (R12, R44, R151). -/
def State.hostMemRead (s : State) (addr : Word) (n : Nat) : Outcome :=
  if !(Range.inMemory s.memSize ⟨addr, n⟩) then .fault .badMem
  else if s.readRaces ⟨addr, n⟩ then .fault .hazRace
  else .next { s with reply := .bytes (s.mem.readBytes addr.toNat n) }

/-- A host data-memory write (R12, R44, R151). -/
def State.hostMemWrite (s : State) (addr : Word) (bs : List Byte) : Outcome :=
  if !(Range.inMemory s.memSize ⟨addr, bs.length⟩) then .fault .badMem
  else if s.writeRaces ⟨addr, bs.length⟩ then .fault .hazRace
  else .next { s with mem := s.mem.writeBytes addr.toNat bs }

/-- One step of the host (R12). -/
def hostStep (op : HostOp) (s : State) : Outcome :=
  match op with
  | .regRead width addr =>
    match s.windowOffset width addr with
    | some offset => .next { s with reply := .register (s.regRead offset) }
    | none => .refused .badRegAccess
  | .regWrite width addr v =>
    match s.windowOffset width addr with
    | some offset => .next (s.regWrite offset v)
    | none => .refused .badRegAccess
  | .memRead addr n => s.hostMemRead addr n
  | .memWrite addr bs => s.hostMemWrite addr bs

/-- A reset of the platform: every register as after power-up, a pending command abandoned, data memory
unchanged (R161, R162). The parameters of R6 and the model's own fields stay. -/
def State.platformReset (s : State) : State :=
  { State.reset with
    mem := s.mem, memSize := s.memSize, qpopMax := s.qpopMax, regBase := s.regBase,
    agenda := s.agenda, reply := s.reply }

end Sys2Proof.Machine
end

