-- ==== Sys2Proof/Machine/Step.lean ====
section
/-! DEFINITION. One step of the machine: the agent that the agenda names moves (spec/10_state.md R12,
R26; spec/70_reset_and_hazards.md R161). -/

namespace Sys2Proof.Machine

/-- The engine step: the latched word is decoded and its command performed, or it ends with E_OPCODE or
E_RESERVED (R26, R47, R152). -/
def engineStep (s : State) : Outcome :=
  match decode s.latched.word with
  | .ok i => exec i s
  | .error e => .next (s.rejectWord e)

/-- The engine's turn: its step is enabled exactly when BUSY = 1; else it keeps all its state
(R12, R160). -/
def engineTurn (s : State) : Outcome := if s.status.busy then engineStep s else .next s

/-- One step. The first turn of the agenda is taken from it and made; with none left the engine moves, so
that a pending engine step is eventually taken (R27). -/
def step (s : State) : Host.Outcome State Fault Refusal :=
  match s.agenda with
  | [] => engineTurn s
  | .engine :: rest => engineTurn { s with agenda := rest }
  | .host op :: rest => hostStep op { s with agenda := rest }
  | .reset :: rest => .next { s with agenda := rest }.platformReset

/-- The state in which the command word of a table row has just been issued (R24) and the engine moves
next. The engine has no program counter and no instruction memory (R28), so this stands for the host's
write to CMD (log 7). -/
def State.withFetchWord (s : State) (nbits w : Nat) : State :=
  { s.issue (tableWord nbits w) with agenda := [] }

end Sys2Proof.Machine
end

