-- ==== Sys2Proof/WellFormed.lean ====
section
/-! DEFINITION. Which commands name something the spec defines: every field value is one of those listed
in spec/30_encoding.md R50 to R52, and the format is of the class the command needs (R55,
spec/60_exceptions.md R149). An ill-formed command is still a command: it decodes, and its step ends with
E_FORMAT or E_ARGUMENT. -/

namespace Sys2Proof

/-- FMT names a format (R50). -/
def fmtNamed (fmt : BitVec 4) : Bool := (PixelFormat.ofCode fmt).isSome

/-- FMT names an indexed format (R55). -/
def fmtIndexed (fmt : BitVec 4) : Bool := (PixelFormat.ofCode fmt).any PixelFormat.indexed

/-- FMT names a direct format (R55). -/
def fmtDirect (fmt : BitVec 4) : Bool := (PixelFormat.ofCode fmt).any fun f => !f.indexed

/-- PFMT names a palette format (R51). -/
def pfmtNamed (pfmt : BitVec 2) : Bool := (PaletteFormat.ofCode pfmt).isSome

/-- QSEL selects a palette size (R52). -/
def qselNamed (qsel : BitVec 2) : Bool := (PaletteSize.ofCode qsel).isSome

/-- Every field of the command that it uses has a value the command can work with. DECB looks at PFMT
only with an indexed format and a palette (R152). -/
def Instr.wellFormed : Instr → Bool
  | .nop | .cdec4 | .ckey | .cpal _ | .cidx | .cenc4 | .qdist | .qavg | .qnear
  | .xswp | .xreo | .xred | .x2c | .c2x => true
  | .desc fmt | .dsize fmt _ | .tsize fmt _ | .mipcnt fmt => fmtNamed fmt
  | .palmax fmt | .deci fmt | .enci fmt | .prange fmt _ => fmtIndexed fmt
  | .encb fmt => fmtDirect fmt
  | .decb fmt pfmt pp => fmtNamed fmt && (!(fmtIndexed fmt && pp) || pfmtNamed pfmt)
  | .qpal _ qsel => qselNamed qsel
  | .pdec pfmt | .penc pfmt => pfmtNamed pfmt

end Sys2Proof
end

