-- ==== Sys2Proof/Safety.lean ====
section
/-! DEFINITION. The terms the claims are stated in: when a command's footprint lies in data memory, what
the step of a completing command and of an erring command leaves, and the invariant of every step. -/

namespace Sys2Proof.Machine

/-- Every range of the footprint of command i, with the latched arguments, is in range: it is empty or
ends at or below MEM_SIZE, without wrap-around (R32). -/
def State.reaches (s : State) (i : Instr) : Prop :=
  ∀ r ∈ (footprint i s.latched.args).reads ++ (footprint i s.latched.args).writes,
    r.len = 0 ∨ r.start.toNat + r.len ≤ s.memSize

/-- The well-formed command i passes every check of R152 that comes before that of its addresses: PALLEN
(E_ARGUMENT), DIM (E_DIM) and LEN (E_LENGTH), each where the command uses it. -/
def State.passesChecks (s : State) (i : Instr) : Prop :=
  let x := s.latched.args
  match i with
  | .nop | .desc _ | .palmax _ | .deci _ | .encb _ | .enci _ | .cdec4 | .ckey | .cpal _ | .cidx
  | .cenc4 | .qdist | .pdec _ | .penc _ => True
  | .dsize _ _ | .tsize _ _ | .mipcnt _ => 0 < x.width ∧ 0 < x.height
  | .decb fmt _ pp => fmtIndexed fmt = true → pp = true → x.pallen.toNat ≤ 16384
  | .qavg => x.len ≠ 0
  | .qnear => x.pallen ≠ 0 ∧ x.pallen.toNat ≤ 16384
  | .qpal _ _ => x.len.toNat ≤ s.qpopMax
  | .xswp => x.len.toNat % 8 = 0
  | .xreo | .xred | .x2c | .c2x =>
    0 < x.width ∧ 0 < x.height ∧ x.width % 8 = 0 ∧ x.height % 8 = 0 ∧
      x.len.toNat = x.width * x.height / 2
  | .prange fmt _ =>
    x.pallen.toNat ≤ 16384 ∧ x.len ≠ 0 ∧
      (PixelFormat.ofCode fmt = some .c14x2 → x.len.toNat % 2 = 0)

/-- The bytes `out` stand from address a on in m', and every other byte of m' reads as in m. -/
structure MemoryUpdate (m m' : Memory) (a : Nat) (out : List Byte) : Prop where
  written : ∀ k, (h : k < out.length) → m'.read (a + k) = out[k]
  kept : ∀ x, x < a ∨ a + out.length ≤ x → m'.read x = m.read x

/-- Everything that no engine step writes: the registers the host writes, the latch, the parameters, the
agenda and the host's reply, and WBUSY (R16, R20, R22). -/
structure EngineFrame (s t : State) : Prop where
  lastCmd : t.lastCmd = s.lastCmd
  args : t.args = s.args
  latched : t.latched = s.latched
  wbusy : t.status.wbusy = s.status.wbusy
  memSize : t.memSize = s.memSize
  qpopMax : t.qpopMax = s.qpopMax
  regBase : t.regBase = s.regBase
  agenda : t.agenda = s.agenda
  reply : t.reply = s.reply

/-- t is s after the step of a command that completed without error, raised the diagnostics d, wrote the
bytes `out` at the latched DST, and left r0 to r3 in RES0 to RES3 (R26). -/
structure Completion (s t : State) (d : Diag) (out : List Byte) (r0 r1 r2 r3 : Word) : Prop where
  frame : EngineFrame s t
  busy : t.status.busy = false
  done : t.status.done = true
  err : t.status.err = s.status.err
  errCode : t.errCode = s.errCode
  errInfo : t.errInfo = s.errInfo
  palshort : t.status.palshort = (s.status.palshort || d.palshort)
  palabsent : t.status.palabsent = (s.status.palabsent || d.palabsent)
  rangeshort : t.status.rangeshort = (s.status.rangeshort || d.rangeshort)
  res0 : t.res0 = r0
  res1 : t.res1 = r1
  res2 : t.res2 = r2
  res3 : t.res3 = r3
  mem : MemoryUpdate s.mem t.mem s.latched.args.dst.toNat out

/-- s after the step of a command that ended with error c and info v (R153): five writes and nothing
else. -/
def State.erred (s : State) (c : ErrCode) (v : Word) : State :=
  { s with
    errCode := c
    errInfo := v
    status := { s.status with err := true, done := true, busy := false } }

/-- The invariant that every step keeps. -/
structure State.Inv (s : State) : Prop where
  /-- Data memory is in its canonical form. -/
  memWf : s.mem.wf = true
  /-- Data memory lists no byte at or beyond MEM_SIZE (R31). -/
  memBelow : s.mem.below s.memSize = true
  /-- 1 ≤ MEM_SIZE ≤ 2^32 (R6). -/
  memSizeLegal : 1 ≤ s.memSize ∧ s.memSize ≤ 2 ^ 32
  /-- QPOP_MAX ≥ 1 (R6). -/
  qpopMaxLegal : 1 ≤ s.qpopMax
  /-- While a command runs, the latch holds LASTCMD and the argument registers as they stand (R17, R24). -/
  latchedCurrent : s.status.busy = true → s.latched = s.snapshot s.lastCmd
  /-- While a command runs, DONE, ERR, the diagnostics, ERRCODE and ERRINFO are clear (R24). -/
  busyClear : s.status.busy = true →
    s.status.done = false ∧ s.status.err = false ∧ s.status.palshort = false ∧
      s.status.palabsent = false ∧ s.status.rangeshort = false ∧
      s.errCode = .none ∧ s.errInfo = 0
  /-- ERRCODE 0 goes with ERRINFO 0 and ERR 0 (R149, R153). -/
  noError : s.errCode = .none → s.errInfo = 0 ∧ s.status.err = false
  /-- An error leaves no diagnostic (R154). -/
  errNoDiag : s.status.err = true →
    s.status.palshort = false ∧ s.status.palabsent = false ∧ s.status.rangeshort = false

end Sys2Proof.Machine
end

