-- ==== Sys2Proof/Certificates/Slice0/Obligations.lean ====
section
/-! DEFINITION. The statements for the provers. Each docstring names the rules of spec/ the statement
formalises; a choice of the model that a statement rests on is named with its log entry. -/

open Sys2Proof Sys2Proof.Machine

/-! ### Encoding -/

/-- R47 to R49: the decoder reads every command back from its own command word, with every field at
every value. -/
def Obligations.DecodeOfEncode : Prop := ∀ i : Instr, decode (encode i) = .ok i

/-- R48: a command word that decodes is the encoding of what it decodes to: no bit is dropped. -/
def Obligations.EncodeOfDecode : Prop := ∀ (w : Word) (i : Instr), decode w = .ok i → encode i = w

/-- R48, R49, R149: a word with a listed OP decodes exactly when `(word & mask) == match`, and otherwise
is refused with the offending bits; a word with any other OP is refused with its OP, and those are the OP
values R49 lists as illegal. -/
def Obligations.WordsRefusedByName : Prop :=
  (∀ row ∈ opcodeMap, ∀ w : Word, opField w = row.op →
    (w &&& row.mask = row.op.setWidth 32 → decode w = .ok (row.build w)) ∧
    (w &&& row.mask ≠ row.op.setWidth 32 →
      decode w = .error (.reserved (w &&& row.mask &&& 0xFFFFFF00)))) ∧
  ∀ w : Word, decode w = .error (.opcode (opField w)) ↔
    (0x06 ≤ (opField w).toNat ∧ (opField w).toNat ≤ 0x0F) ∨
    (0x14 ≤ (opField w).toNat ∧ (opField w).toNat ≤ 0x1F) ∨
    (0x25 ≤ (opField w).toNat ∧ (opField w).toNat ≤ 0x2F) ∨
    (0x34 ≤ (opField w).toNat ∧ (opField w).toNat ≤ 0x3F) ∨
    (0x45 ≤ (opField w).toNat ∧ (opField w).toNat ≤ 0x4F) ∨ 0x53 ≤ (opField w).toNat

/-- Command words of spec/95_test_vectors.md, one for each family, and the commands they stand for. -/
def Obligations.DecodedWords : Prop :=
  decode 0x00000000 = .ok .nop ∧
  decode 0x00140E03 = .ok (.dsize 14 5) ∧
  decode 0x0000A810 = .ok (.decb 8 2 true) ∧
  decode 0x00004022 = .ok (.cpal true) ∧
  decode 0x00014033 = .ok (.qpal true 1) ∧
  decode 0x00000043 = .ok .x2c ∧
  decode 0x00002051 = .ok (.penc 2) ∧
  decode 0x00008A52 = .ok (.prange 10 true) ∧
  decode 0x80000006 = .error (.opcode 6) ∧
  decode 0x00030133 = .error (.reserved 0x00000100)

/-! ### Steps -/

/-- R26, R47, R149, R152: the engine's turn with BUSY = 1 is the step of the command that the latched
word decodes to, or the error completion of a word that is no command; with BUSY = 0 it changes nothing.
An engine turn that stands in the agenda is taken from it. The agenda is the model's own (log 5), and
`withFetchWord` stands for an issue (log 7). -/
def Obligations.StepRunsDecodedCommand : Prop :=
  (∀ s u : State,
    (s.agenda = [] ∧ u = s) ∨ (∃ rest, s.agenda = .engine :: rest ∧ u = { s with agenda := rest }) →
    (s.status.busy = true →
      (∀ i, decode s.latched.word = .ok i → step s = exec i u) ∧
      (∀ op, decode s.latched.word = .error (.opcode op) →
        step s = .next (u.erred .opcode (op.setWidth 32))) ∧
      ∀ bits, decode s.latched.word = .error (.reserved bits) →
        step s = .next (u.erred .reserved bits)) ∧
    (s.status.busy = false → step s = .next u)) ∧
  ∀ (s : State) (nbits w : Nat) (i : Instr), decodeTableWord nbits w = some i →
    step (s.withFetchWord nbits w) = exec i (s.withFetchWord nbits w)

/-- R6, R17, R24, R31, R149, R153, R154: every step keeps the invariant. Which agent a step moves is the
model's own agenda (log 5), and the canonical form of memory rests on what an unlisted byte reads as
(log 2). -/
def Obligations.StepKeepsInv : Prop :=
  ∀ s t : State, s.Inv → step s = .next t → t.Inv

/-- R162: the state after reset has the invariant. Its memory with nothing listed, and what that reads
as, are the model's choice (log 2). -/
def Obligations.ResetHasInv : Prop := State.reset.Inv

/-! ### Host accesses -/

/-- R24: a host write of v to CMD while BUSY = 0. A word that is no command, and a command with a field
value it cannot work with, is accepted and ends with an error at its engine step. -/
def Obligations.IssueLatchesCommand : Prop :=
  ∀ (s : State) (v : Word), s.status.busy = false →
    hostStep (.regWrite 32 (s.regBase + 0x00) v) s = .next
      { s with
        lastCmd := v
        status :=
          { busy := true, done := false, err := false, palshort := false, palabsent := false,
            rangeshort := false, wbusy := s.status.wbusy }
        errCode := .none
        errInfo := 0
        latched := { word := v, args := s.args } } ∧
    ∀ t, (∀ i, decode v = .ok i → i.wellFormed = false) →
      hostStep (.regWrite 32 (s.regBase + 0x00) v) s = .next t →
      ∃ u, engineStep t = .next u ∧ u.status.err = true ∧ u.status.done = true ∧
        u.status.busy = false

/-- R25: while BUSY = 1 a host write to CMD, STATUS or an argument register changes nothing but WBUSY,
and a host register read returns the current value. -/
def Obligations.BusyWritesDropped : Prop :=
  ∀ s : State, s.status.busy = true →
    (∀ off ∈ [0x00, 0x04, 0x10, 0x14, 0x18, 0x1C, 0x20, 0x24, 0x28], ∀ v : Word,
      hostStep (.regWrite 32 (s.regBase + off) v) s =
        .next { s with status := { s.status with wbusy := true } }) ∧
    ∀ off, off % 4 = 0 → off < 0x100 →
      hostStep (.regRead 32 (s.regBase + off)) s =
        .next { s with reply := .register (s.regRead off) }

/-- R21: a host write to STATUS while BUSY = 0 clears each of the bits 1 to 6 that is 1 in v, and changes
nothing else. -/
def Obligations.StatusWriteOneToClear : Prop :=
  ∀ (s : State) (v : Word), s.status.busy = false →
    ∃ t, hostStep (.regWrite 32 (s.regBase + 0x04) v) s = .next t ∧ t = { s with status := t.status } ∧
      ∀ i, t.status.word.getLsbD i =
        (s.status.word.getLsbD i && !(decide (1 ≤ i ∧ i ≤ 6) && v.getLsbD i))

/-- R14, R16, R18, R19, R20, R22, R23, R25: whatever BUSY is, a host read of the register at each offset
of the window changes nothing but the reply, which is that register; with the bits of STATUS and the value
of ERRCODE. The reply is the model's own field (log 6). -/
def Obligations.StatusAndErrorCodeRead : Prop :=
  ∀ s : State,
    (∀ off, off % 4 = 0 → off < 0x100 →
      hostStep (.regRead 32 (s.regBase + off)) s =
        .next { s with reply := .register (s.regRead off) }) ∧
    (∀ row ∈ [(0x00, s.lastCmd), (0x04, s.status.word), (0x08, s.errCode.word), (0x0C, s.errInfo),
        (0x10, s.args.src), (0x14, s.args.dst), (0x18, s.args.aux), (0x1C, s.args.len),
        (0x20, s.args.dim), (0x24, s.args.pallen.setWidth 32), (0x28, s.args.arg), (0x30, s.res0),
        (0x34, s.res1), (0x38, s.res2), (0x3C, s.res3), (0x40, 0x434D5052)],
      hostStep (.regRead 32 (s.regBase + row.1)) s =
        .next { s with reply := .register row.2 }) ∧
    (∀ i, (s.regRead 0x04).getLsbD i =
      match i with
      | 0 => s.status.busy
      | 1 => s.status.done
      | 2 => s.status.err
      | 3 => s.status.palshort
      | 4 => s.status.palabsent
      | 5 => s.status.rangeshort
      | 6 => s.status.wbusy
      | _ => false) ∧
    (s.regRead 0x08).toNat =
      match s.errCode with
      | .none => 0
      | .opcode => 1
      | .reserved => 2
      | .format => 3
      | .argument => 4
      | .address => 5
      | .budget => 6
      | .length => 7
      | .index => 8
      | .dim => 9

/-- R14, R16: a host write to an argument register while BUSY = 0 gives that register the value, PALLEN
its bits 14:0, and changes nothing else; the register reads back, and every other register of the window
reads as before. -/
def Obligations.ArgumentWritesReadBack : Prop :=
  ∀ (s : State) (v : Word), s.status.busy = false →
    ∀ row ∈ [(0x10, { s.args with src := v }), (0x14, { s.args with dst := v }),
        (0x18, { s.args with aux := v }), (0x1C, { s.args with len := v }),
        (0x20, { s.args with dim := v }), (0x24, { s.args with pallen := v.setWidth 15 }),
        (0x28, { s.args with arg := v })],
      hostStep (.regWrite 32 (s.regBase + row.1) v) s = .next { s with args := row.2 } ∧
      ∀ off, State.regRead { s with args := row.2 } off =
        if off = row.1 then (if off = 0x24 then v &&& 0x7FFF else v) else s.regRead off

/-- R14, R15, R166: an access of another width, at an unaligned offset or outside the window at REG_BASE
is refused; a write to a read-only register or a reserved offset changes nothing and sets nothing while
BUSY = 0, and is dropped and only sets WBUSY while BUSY = 1; a reserved offset reads 0. That such a write
sets WBUSY while BUSY = 1, and that an access outside the window is refused like an unaligned one, is the
model's reading (logs 9, 10). -/
def Obligations.UndefinedRegisterAccesses : Prop :=
  ∀ s : State,
    (∀ width addr v,
      width ≠ 32 ∨ addr < s.regBase ∨ (addr - s.regBase) % 4 ≠ 0 ∨ s.regBase + 0xFC < addr →
      hostStep (.regRead width addr) s = .refused .badRegAccess ∧
      hostStep (.regWrite width addr v) s = .refused .badRegAccess) ∧
    (∀ off v, off % 4 = 0 →
      (off ∈ [0x08, 0x0C, 0x2C, 0x30, 0x34, 0x38, 0x3C, 0x40] ∨ 0x44 ≤ off ∧ off ≤ 0xFC) →
      (s.status.busy = false → hostStep (.regWrite 32 (s.regBase + off) v) s = .next s) ∧
      (s.status.busy = true → hostStep (.regWrite 32 (s.regBase + off) v) s =
        .next { s with status := { s.status with wbusy := true } })) ∧
    ∀ off, off % 4 = 0 → off = 0x2C ∨ 0x44 ≤ off ∧ off ≤ 0xFC →
      hostStep (.regRead 32 (s.regBase + off)) s = .next { s with reply := .register 0 }

/-- R44: while a command runs, a host write that touches a byte of its footprint, or a host read that
touches a byte of its write ranges, is the fault HAZ_RACE; any other host access in data memory is
made. Three readings are the model's: a host read of bytes that the command only reads is made (log 21);
an access to several bytes is one step, faulted whole (log 12); a range whose length depends on an FMT or
QSEL value that selects nothing is not listed (log 8). A latched word that is no command is not spoken of
here. -/
def Obligations.HostRacesFault : Prop :=
  ∀ (s : State) (i : Instr) (addr : Word), s.status.busy = true →
    decode s.latched.word = .ok i →
    (∀ bs : List Byte, bs ≠ [] → addr.toNat + bs.length ≤ s.memSize →
      ((∃ r ∈ (footprint i s.latched.args).reads ++ (footprint i s.latched.args).writes,
          ∃ k < bs.length, r.holds (addr.toNat + k) = true) →
        hostStep (.memWrite addr bs) s = .fault .hazRace) ∧
      ((∀ r ∈ (footprint i s.latched.args).reads ++ (footprint i s.latched.args).writes,
          ∀ k < bs.length, r.holds (addr.toNat + k) = false) →
        hostStep (.memWrite addr bs) s =
          .next { s with mem := s.mem.writeBytes addr.toNat bs })) ∧
    ∀ n, 0 < n → addr.toNat + n ≤ s.memSize →
      ((∃ r ∈ (footprint i s.latched.args).writes,
          ∃ k < n, r.holds (addr.toNat + k) = true) →
        hostStep (.memRead addr n) s = .fault .hazRace) ∧
      ((∀ r ∈ (footprint i s.latched.args).writes,
          ∀ k < n, r.holds (addr.toNat + k) = false) →
        hostStep (.memRead addr n) s =
          .next { s with reply := .bytes (s.mem.readBytes addr.toNat n) })

/-- R12, R151: a host data-memory access at or beyond MEM_SIZE is the fault BAD_MEM; while BUSY = 0 every
other one is made, and writes its own bytes only. Two readings are the model's: BAD_MEM is the fault in a
race as well (log 11); an access to several bytes is one step, and one byte beyond MEM_SIZE faults all of
it, with nothing written (log 12). -/
def Obligations.HostMemoryAccesses : Prop :=
  ∀ (s : State) (addr : Word),
    (∀ bs : List Byte, bs ≠ [] → s.memSize < addr.toNat + bs.length →
      hostStep (.memWrite addr bs) s = .fault .badMem) ∧
    (∀ n, 0 < n → s.memSize < addr.toNat + n →
      hostStep (.memRead addr n) s = .fault .badMem) ∧
    (∀ bs : List Byte, s.status.busy = false → addr.toNat + bs.length ≤ s.memSize →
      ∃ t, hostStep (.memWrite addr bs) s = .next t ∧ t = { s with mem := t.mem } ∧
        MemoryUpdate s.mem t.mem addr.toNat bs) ∧
    ∀ n, s.status.busy = false → addr.toNat + n ≤ s.memSize →
      hostStep (.memRead addr n) s =
        .next { s with reply := .bytes (s.mem.readBytes addr.toNat n) }

/-- R161, R162: a reset leaves every register reading 0 but ID, no command pending and data memory as it
was; so does State.reset. When a reset comes is the model's own agenda (log 5). -/
def Obligations.ResetClearsRegisters : Prop :=
  (∀ (s : State) (rest : List Turn), s.agenda = .reset :: rest →
    ∃ t, step s = .next t ∧ t.mem = s.mem ∧ t.memSize = s.memSize ∧ t.qpopMax = s.qpopMax ∧
      t.regBase = s.regBase ∧ t.agenda = rest ∧ t.status.busy = false ∧
      ∀ off, t.regRead off = if off = 0x40 then 0x434D5052 else 0) ∧
  State.reset.status.busy = false ∧
  ∀ off, State.reset.regRead off = if off = 0x40 then 0x434D5052 else 0

/-! ### Every command -/

/-- R33, R64 to R69, R89 to R95, R103, R104, R111, R113, R115, R117, R118, R130 to R133, R141 to R148: an
engine step writes no byte outside the write ranges of its command's footprint; and the ranges of every
command's footprint, reads and then writes, as its rule lists them. A range whose length depends on an FMT
or QSEL value that selects nothing is not listed, the model's reading (log 8). -/
def Obligations.EngineWritesOnlyFootprint : Prop :=
  (∀ (i : Instr) (s t : State), exec i s = .next t →
    ∀ a, (∀ r ∈ (footprint i s.latched.args).writes, r.holds a = false) →
      t.mem.read a = s.mem.read a) ∧
  ∀ (x : Args) (fmt : BitVec 4) (lvl : BitVec 5) (pfmt : BitVec 2) (pp f : Bool),
    let n := x.len.toNat
    (∀ i ∈ [Instr.nop, .desc fmt, .palmax fmt, .dsize fmt lvl, .tsize fmt lvl, .mipcnt fmt],
      footprint i x = ⟨[], []⟩) ∧
    -- FMT, pixels and bytes of a block of each direct format
    (∀ row ∈ [(0, 64, 32), (1, 32, 32), (2, 32, 32), (3, 16, 32), (4, 16, 32), (5, 16, 32),
        (6, 16, 64), (14, 64, 32)],
      footprint (.decb (BitVec.ofNat 4 row.1) pfmt pp) x =
        ⟨[⟨x.src, row.2.2⟩], [⟨x.dst, 4 * row.2.1⟩]⟩ ∧
      footprint (.encb (BitVec.ofNat 4 row.1)) x =
        ⟨[⟨x.src, 4 * row.2.1⟩], [⟨x.dst, row.2.2⟩]⟩ ∧
      footprint (.deci (BitVec.ofNat 4 row.1)) x = ⟨[⟨x.src, 32⟩], [⟨x.dst, 2 * row.2.1⟩]⟩ ∧
      footprint (.enci (BitVec.ofNat 4 row.1)) x = ⟨[⟨x.src, 2 * row.2.1⟩], [⟨x.dst, 32⟩]⟩) ∧
    -- FMT and pixels of a block of each indexed format, and pixels of its grey counterpart
    (∀ row ∈ [(8, 64, 64), (9, 32, 32), (10, 16, 32)],
      footprint (.decb (BitVec.ofNat 4 row.1) pfmt true) x =
        ⟨[⟨x.src, 32⟩, ⟨x.aux, 2 * x.pallen.toNat⟩], [⟨x.dst, 4 * row.2.1⟩]⟩ ∧
      footprint (.decb (BitVec.ofNat 4 row.1) pfmt false) x =
        ⟨[⟨x.src, 32⟩], [⟨x.dst, 4 * row.2.2⟩]⟩ ∧
      footprint (.encb (BitVec.ofNat 4 row.1)) x = ⟨[⟨x.src, 4 * row.2.1⟩], [⟨x.dst, 32⟩]⟩ ∧
      footprint (.deci (BitVec.ofNat 4 row.1)) x = ⟨[⟨x.src, 32⟩], [⟨x.dst, 2 * row.2.1⟩]⟩ ∧
      footprint (.enci (BitVec.ofNat 4 row.1)) x = ⟨[⟨x.src, 2 * row.2.1⟩], [⟨x.dst, 32⟩]⟩) ∧
    (PixelFormat.ofCode fmt = none →
      footprint (.decb fmt pfmt pp) x = ⟨[], []⟩ ∧ footprint (.encb fmt) x = ⟨[], []⟩ ∧
      footprint (.deci fmt) x = ⟨[⟨x.src, 32⟩], []⟩ ∧
      footprint (.enci fmt) x = ⟨[], [⟨x.dst, 32⟩]⟩) ∧
    footprint (.pdec pfmt) x = ⟨[⟨x.src, 2 * n⟩], [⟨x.dst, 4 * n⟩]⟩ ∧
    footprint (.penc pfmt) x = ⟨[⟨x.src, 4 * n⟩], [⟨x.dst, 2 * n⟩]⟩ ∧
    footprint .cdec4 x = ⟨[⟨x.src, 8⟩], [⟨x.dst, 64⟩]⟩ ∧
    footprint .ckey x = ⟨[⟨x.src, 64⟩], [⟨x.dst, 8⟩]⟩ ∧
    footprint (.cpal false) x = ⟨[], [⟨x.dst, 16⟩]⟩ ∧
    footprint (.cpal true) x = ⟨[⟨x.src, 8⟩], [⟨x.dst, 16⟩]⟩ ∧
    footprint .cidx x = ⟨[⟨x.src, 64⟩, ⟨x.aux, 16⟩], []⟩ ∧
    footprint .cenc4 x = ⟨[⟨x.src, 64⟩], [⟨x.dst, 8⟩]⟩ ∧
    footprint .qdist x = ⟨[⟨x.src, 4⟩, ⟨x.aux, 4⟩], []⟩ ∧
    footprint .qavg x = ⟨[⟨x.src, 4 * n⟩], []⟩ ∧
    footprint .qnear x =
      ⟨[⟨x.src, 4 * n⟩, ⟨x.aux, 4 * x.pallen.toNat⟩], [⟨x.dst, 2 * n⟩]⟩ ∧
    (∀ row ∈ [(0, 16), (1, 256), (2, 16384)],
      footprint (.qpal f (BitVec.ofNat 2 row.1)) x =
        ⟨[⟨x.src, 4 * n⟩], [⟨x.dst, 4 * min n row.2⟩]⟩) ∧
    footprint (.qpal f 3) x = ⟨[⟨x.src, 4 * n⟩], []⟩ ∧
    (∀ i ∈ [Instr.xswp, .xreo, .xred, .x2c, .c2x],
      footprint i x = ⟨[⟨x.src, n⟩], [⟨x.dst, n⟩]⟩) ∧
    footprint (.prange fmt pp) x = ⟨[⟨x.src, n⟩], []⟩

/-- R16, R20, R26, R153, R154: an engine step ends BUSY, sets DONE, leaves the host's registers, LASTCMD,
WBUSY and the parameters alone, and either is the error completion and nothing else or sets no error; the
step of a word that is no command is the error completion. That the latch, the agenda and the host's reply
stay too is the model's choice (logs 1, 5, 6). -/
def Obligations.EngineStepEnds : Prop :=
  (∀ (s : State) (e : DecodeError), decode s.latched.word = .error e →
    ∃ c v, c ≠ ErrCode.none ∧ engineStep s = .next (s.erred c v)) ∧
  ∀ (i : Instr) (s t : State), exec i s = .next t →
    EngineFrame s t ∧ t.status.busy = false ∧ t.status.done = true ∧
      ((∃ c v, c ≠ ErrCode.none ∧ t = s.erred c v) ∨
        (t.status.err = s.status.err ∧ t.errCode = s.errCode ∧ t.errInfo = s.errInfo))

/-- R13: from two states with the same latched word and arguments, the same parameters and the same bytes
in the command's read ranges, whatever else they hold, an engine step ends with one and the same error, or
it completes with the same bytes written at DST, the same diagnostics, and each of RES0 to RES3 either
kept in both or set to one value in both. -/
def Obligations.ResultDependsOnlyOnInputs : Prop :=
  (∀ (i : Instr) (s s' : State), s.latched = s'.latched → s.memSize = s'.memSize →
    s.qpopMax = s'.qpopMax →
    (∀ r ∈ (footprint i s.latched.args).reads, ∀ a, r.holds a = true →
      s.mem.read a = s'.mem.read a) →
    (∃ c v, c ≠ ErrCode.none ∧ exec i s = .next (s.erred c v) ∧
      exec i s' = .next (s'.erred c v)) ∨
    ∃ (t t' : State) (d : Diag) (out : List Byte) (r0 r1 r2 r3 : Option Word),
      exec i s = .next t ∧ exec i s' = .next t' ∧
      Completion s t d out (r0.getD s.res0) (r1.getD s.res1) (r2.getD s.res2) (r3.getD s.res3) ∧
      Completion s' t' d out (r0.getD s'.res0) (r1.getD s'.res1) (r2.getD s'.res2)
        (r3.getD s'.res3)) ∧
  ∀ (s s' : State) (e : DecodeError), s.latched = s'.latched → decode s.latched.word = .error e →
    ∃ c v, c ≠ ErrCode.none ∧ engineStep s = .next (s.erred c v) ∧
      engineStep s' = .next (s'.erred c v)

/-- R50, R51, R52, R149, R152: a command with a field value it cannot work with ends with E_FORMAT and
that value, or, for a format of the wrong class, with E_ARGUMENT and FMT, whatever its addresses and
lengths are. -/
def Obligations.IllFormedCommandsEndInError : Prop :=
  (∀ (s : State) (fmt : BitVec 4) (lvl : BitVec 5) (pfmt : BitVec 2) (pp : Bool),
    PixelFormat.ofCode fmt = none →
    ∀ i ∈ [Instr.desc fmt, .palmax fmt, .dsize fmt lvl, .tsize fmt lvl, .mipcnt fmt,
        .decb fmt pfmt pp, .deci fmt, .encb fmt, .enci fmt, .prange fmt pp],
      exec i s = .next (s.erred .format (fmt.setWidth 32))) ∧
  (∀ (s : State) (f : Bool),
    exec (.pdec 3) s = .next (s.erred .format 3) ∧
    exec (.penc 3) s = .next (s.erred .format 3) ∧
    exec (.qpal f 3) s = .next (s.erred .format 3)) ∧
  (∀ (s : State) (fmt : BitVec 4) (f : PixelFormat), PixelFormat.ofCode fmt = some f →
    f.indexed = true →
    exec (.decb fmt 3 true) s = .next (s.erred .format 3) ∧
    exec (.encb fmt) s = .next (s.erred .argument (fmt.setWidth 32))) ∧
  (∀ (s : State) (fmt : BitVec 4) (f : PixelFormat) (pp : Bool),
    PixelFormat.ofCode fmt = some f → f.indexed = false →
    ∀ i ∈ [Instr.palmax fmt, .deci fmt, .enci fmt, .prange fmt pp],
      exec i s = .next (s.erred .argument (fmt.setWidth 32))) ∧
  ∀ (i : Instr) (s t : State), i.wellFormed = true → s.errCode = .none → exec i s = .next t →
    t.errCode ≠ .format

/-- R16, R149, R152: a palette length above 16384, or 0 for QNEAR, ends a command that uses PALLEN with
E_ARGUMENT and PALLEN, whatever its addresses and lengths are. -/
def Obligations.BadPaletteLengthEndsInError : Prop :=
  ∀ (s : State) (fmt : BitVec 4) (pfmt : BitVec 2) (f : PixelFormat) (p : PaletteFormat)
    (pp : Bool), PixelFormat.ofCode fmt = some f → f.indexed = true →
    PaletteFormat.ofCode pfmt = some p →
    (16384 < s.latched.args.pallen.toNat →
      exec (.decb fmt pfmt true) s = .next (s.erred .argument (s.latched.args.pallen.setWidth 32)) ∧
      exec (.prange fmt pp) s = .next (s.erred .argument (s.latched.args.pallen.setWidth 32)) ∧
      exec .qnear s = .next (s.erred .argument (s.latched.args.pallen.setWidth 32))) ∧
    (s.latched.args.pallen = 0 → exec .qnear s = .next (s.erred .argument 0))

/-- R67 to R69, R131, R133, R141, R142, R148, R152: the dimensions and lengths that end a command with
E_DIM and DIM, or with E_LENGTH and LEN, before any address is looked at. -/
def Obligations.BadDimensionsAndLengthsEndInError : Prop :=
  ∀ s : State,
    (∀ (fmt : BitVec 4) (lvl : BitVec 5), (PixelFormat.ofCode fmt).isSome = true →
      s.latched.args.width = 0 ∨ s.latched.args.height = 0 →
      ∀ i ∈ [Instr.dsize fmt lvl, .tsize fmt lvl, .mipcnt fmt],
        exec i s = .next (s.erred .dim s.latched.args.dim)) ∧
    (∀ i ∈ [Instr.xreo, .xred, .x2c, .c2x],
      (s.latched.args.width = 0 ∨ s.latched.args.height = 0 ∨ s.latched.args.width % 8 ≠ 0 ∨
          s.latched.args.height % 8 ≠ 0 →
        exec i s = .next (s.erred .dim s.latched.args.dim)) ∧
      (0 < s.latched.args.width → 0 < s.latched.args.height → s.latched.args.width % 8 = 0 →
        s.latched.args.height % 8 = 0 →
        s.latched.args.len.toNat ≠ s.latched.args.width * s.latched.args.height / 2 →
        exec i s = .next (s.erred .length s.latched.args.len))) ∧
    (s.latched.args.len.toNat % 8 ≠ 0 →
      exec .xswp s = .next (s.erred .length s.latched.args.len)) ∧
    (s.latched.args.len = 0 → exec .qavg s = .next (s.erred .length 0)) ∧
    (∀ (f : Bool) (qsel : BitVec 2), qsel ≠ 3 → s.qpopMax < s.latched.args.len.toNat →
      exec (.qpal f qsel) s = .next (s.erred .length s.latched.args.len)) ∧
    ∀ (fmt : BitVec 4) (f : PixelFormat) (pp : Bool), PixelFormat.ofCode fmt = some f →
      f.indexed = true → s.latched.args.pallen.toNat ≤ 16384 →
      s.latched.args.len = 0 ∨ (f = .c14x2 ∧ s.latched.args.len.toNat % 2 = 1) →
      exec (.prange fmt pp) s = .next (s.erred .length s.latched.args.len)

/-- R32, R150, R152: a command whose footprint is not in range ends with E_ADDRESS, or with an error that
is checked before it; and the info of E_ADDRESS is the start of the first range, reads before writes, that
is not in range. A well-formed command that passes those earlier checks ends with exactly that
E_ADDRESS. -/
def Obligations.AddressErrorNamesFirstRange : Prop :=
  (∀ (i : Instr) (s : State), i.wellFormed = true → s.passesChecks i →
    ∀ before r after,
      (footprint i s.latched.args).reads ++ (footprint i s.latched.args).writes =
        before ++ r :: after →
      (∀ q ∈ before, q.len = 0 ∨ q.start.toNat + q.len ≤ s.memSize) →
      0 < r.len → s.memSize < r.start.toNat + r.len →
      exec i s = .next (s.erred .address r.start)) ∧
  ∀ (i : Instr) (s t : State), exec i s = .next t → s.status.err = false → s.errCode = .none →
    (¬ s.reaches i → t.status.err = true ∧
      t.errCode ∈ [ErrCode.format, .argument, .dim, .length, .address]) ∧
    (t.errCode = .address →
      ∃ before r after,
        (footprint i s.latched.args).reads ++ (footprint i s.latched.args).writes =
          before ++ r :: after ∧
        (∀ q ∈ before, q.len = 0 ∨ q.start.toNat + q.len ≤ s.memSize) ∧
        0 < r.len ∧ s.memSize < r.start.toNat + r.len ∧ t.errInfo = r.start)

/-! ### Each command's result -/

/-- R64: NOP sets DONE and ends BUSY, and changes nothing else. -/
def Obligations.NopCompletes : Prop :=
  ∀ s : State, exec .nop s =
    .next { s with status := { s.status with done := true, busy := false } }

/-- R53, R65, R66: DESC and PALMAX give the constants of the descriptor table, format by format. -/
def Obligations.DescriptorTable : Prop :=
  (∀ s : State, ∀ row ∈ [(0, 0x00040808, 32), (1, 0x00080408, 32), (2, 0x00080408, 32),
      (3, 0x00100404, 32), (4, 0x00100404, 32), (5, 0x00100404, 32), (6, 0x00200404, 64),
      (8, 0x01040808, 32), (9, 0x01080408, 32), (10, 0x01100404, 32), (14, 0x00040808, 32)],
    exec (.desc (BitVec.ofNat 4 row.1)) s = .next
      { s with
        res0 := BitVec.ofNat 32 row.2.1
        res1 := BitVec.ofNat 32 row.2.2
        status := { s.status with done := true, busy := false } }) ∧
  ∀ s : State, ∀ row ∈ [(8, 16, 32), (9, 256, 512), (10, 16384, 32768)],
    exec (.palmax (BitVec.ofNat 4 row.1)) s = .next
      { s with
        res0 := BitVec.ofNat 32 row.2.1
        res1 := BitVec.ofNat 32 row.2.2
        status := { s.status with done := true, busy := false } }

/-- R59 to R62, R67, R68: DSIZE gives the size of one mip level and TSIZE the sum over the levels 0 to
LVL, as 64-bit numbers in RES1:RES0. -/
def Obligations.SizeCommandsComplete : Prop :=
  ∀ (s : State) (fmt : BitVec 4) (lvl : BitVec 5) (f : PixelFormat),
    PixelFormat.ofCode fmt = some f → 0 < s.latched.args.width → 0 < s.latched.args.height →
    let size := fun l =>
      let w := max 1 (s.latched.args.width / 2 ^ l)
      let h := max 1 (s.latched.args.height / 2 ^ l)
      (w + f.bw - 1) / f.bw * f.bw * ((h + f.bh - 1) / f.bh * f.bh) * f.bpp / 8
    (∃ t, exec (.dsize fmt lvl) s = .next t ∧
      Completion s t {} [] t.res0 t.res1 s.res2 s.res3 ∧
      t.res1.toNat * 2 ^ 32 + t.res0.toNat = size lvl.toNat) ∧
    ∃ t, exec (.tsize fmt lvl) s = .next t ∧
      Completion s t {} [] t.res0 t.res1 s.res2 s.res3 ∧
      t.res1.toNat * 2 ^ 32 + t.res0.toNat = ∑ l ∈ Finset.range (lvl.toNat + 1), size l

/-- R63, R69: MIPCNT gives one less than the number n of levels that fit whole in LEN bytes, the levels
being halved by a plain shift; a budget below the base level is E_BUDGET. -/
def Obligations.MipcntCountsWholeLevels : Prop :=
  ∀ (s : State) (fmt : BitVec 4) (f : PixelFormat), PixelFormat.ofCode fmt = some f →
    0 < s.latched.args.width → 0 < s.latched.args.height →
    let w := fun l => s.latched.args.width / 2 ^ l
    let h := fun l => s.latched.args.height / 2 ^ l
    let upTo := fun n => ∑ l ∈ Finset.range n, dataSize f (w l) (h l)
    (s.latched.args.len.toNat < dataSize f s.latched.args.width s.latched.args.height →
      exec (.mipcnt fmt) s = .next (s.erred .budget s.latched.args.len)) ∧
    (dataSize f s.latched.args.width s.latched.args.height ≤ s.latched.args.len.toNat →
      ∃ t n, exec (.mipcnt fmt) s = .next t ∧ 0 < n ∧
        Completion s t {} [] (BitVec.ofNat 32 (n - 1)) s.res1 s.res2 s.res3 ∧
        (∀ l < n, 0 < w l ∧ 0 < h l) ∧ upTo n ≤ s.latched.args.len.toNat ∧
        (w n = 0 ∨ h n = 0 ∨ s.latched.args.len.toNat < upTo (n + 1)))

/-- R89, R104: DECB of a direct format writes the pixels of the block at SRC, whatever PFMT, PP and
PALLEN are. -/
def Obligations.DecbDirectCompletes : Prop :=
  ∀ (s : State) (fmt : BitVec 4) (pfmt : BitVec 2) (pp : Bool) (f : PixelFormat),
    PixelFormat.ofCode fmt = some f → f.indexed = false → s.reaches (.decb fmt pfmt pp) →
    ∃ t, exec (.decb fmt pfmt pp) s = .next t ∧
      Completion s t {}
        (colorBytes ((List.range f.npix).map
          (decodePixel f (s.mem.readBytes s.latched.args.src.toNat f.blockBytes))))
        (fmt.setWidth 32) (BitVec.ofNat 32 f.npix) s.res2 s.res3

/-- R87, R90: DECB of an indexed format with PP = 0 decodes the 32 bytes as format FMT - 8, with that
format's pixel count, and raises PALABSENT, whatever PFMT and PALLEN are. -/
def Obligations.DecbAbsentPaletteDegrades : Prop :=
  ∀ (s : State) (fmt : BitVec 4) (pfmt : BitVec 2) (f : PixelFormat),
    PixelFormat.ofCode fmt = some f → f.indexed = true → s.reaches (.decb fmt pfmt false) →
    ∃ g, PixelFormat.ofCode (fmt - 8) = some g ∧ g.indexed = false ∧
      ∃ t, exec (.decb fmt pfmt false) s = .next t ∧
        Completion s t { palabsent := true }
          (colorBytes ((List.range g.npix).map
            (decodePixel g (s.mem.readBytes s.latched.args.src.toNat 32))))
          ((fmt - 8).setWidth 32) (BitVec.ofNat 32 g.npix) s.res2 s.res3

/-- R84, R86, R90: DECB of an indexed format with PP = 1 writes the palette's colour for every index
below PALLEN and BLACK for every other, and raises PALSHORT exactly where there is such another. -/
def Obligations.DecbPaletteResolves : Prop :=
  ∀ (s : State) (fmt : BitVec 4) (pfmt : BitVec 2) (f : PixelFormat) (p : PaletteFormat),
    PixelFormat.ofCode fmt = some f → f.indexed = true → PaletteFormat.ofCode pfmt = some p →
    s.latched.args.pallen.toNat ≤ 16384 → s.reaches (.decb fmt pfmt true) →
    let is := (List.range f.npix).map
      (indexAt f (s.mem.readBytes s.latched.args.src.toNat 32))
    ∃ t, exec (.decb fmt pfmt true) s = .next t ∧
      Completion s t { palshort := is.any fun k => s.latched.args.pallen.toNat ≤ k.toNat }
        (colorBytes (is.map fun k =>
          if k.toNat < s.latched.args.pallen.toNat then
            decPal p (s.mem.readHalf (s.latched.args.aux.toNat + 2 * k.toNat))
          else ⟨0, 0, 0, 255⟩))
        (fmt.setWidth 32) (BitVec.ofNat 32 f.npix) s.res2 s.res3

/-- R84, R91, R93: DECI writes the indices of a block. ENCI packs 16-bit indices into one, or ends with
E_INDEX and the lowest pixel number whose index is above the format's maximum. -/
def Obligations.IndexCommandsComplete : Prop :=
  ∀ (s : State) (fmt : BitVec 4) (f : PixelFormat), PixelFormat.ofCode fmt = some f →
    f.indexed = true →
    (s.reaches (.deci fmt) →
      ∃ t, exec (.deci fmt) s = .next t ∧
        Completion s t {}
          (indexBytes ((List.range f.npix).map
            (indexAt f (s.mem.readBytes s.latched.args.src.toNat 32))))
          (BitVec.ofNat 32 f.npix) s.res1 s.res2 s.res3) ∧
    (s.reaches (.enci fmt) →
      let is := s.mem.readHalves s.latched.args.src.toNat f.npix
      ((∀ v ∈ is, v.toNat ≤ f.maxIndex) →
        ∃ t, exec (.enci fmt) s = .next t ∧
          Completion s t {} (encodeIndexBlock f is) s.res0 s.res1 s.res2 s.res3) ∧
      ∀ i, (h : i < is.length) → f.maxIndex < is[i].toNat →
        (∀ j, (hj : j < i) → is[j].toNat ≤ f.maxIndex) →
        exec (.enci fmt) s = .next (s.erred .index (BitVec.ofNat 32 i)))

/-- R92, R118: ENCB of a direct format writes the encoding of the colours at SRC; for CMPR, the four
compressed sub-blocks, each with the part of the extent that covers it. -/
def Obligations.EncbCompletes : Prop :=
  ∀ (s : State) (fmt : BitVec 4) (f : PixelFormat), PixelFormat.ofCode fmt = some f →
    f.indexed = false → s.reaches (.encb fmt) →
    let ps := s.mem.readColors s.latched.args.src.toNat f.npix
    (f ≠ .cmpr → ∃ t, exec (.encb fmt) s = .next t ∧
      Completion s t {} (encodeBlock f ps) s.res0 s.res1 s.res2 s.res3) ∧
    (f = .cmpr → ∃ t, exec (.encb fmt) s = .next t ∧
      Completion s t {}
        ((List.range 4).flatMap fun q =>
          encodeSub
            ((List.range 16).map fun p =>
              ps.getD (8 * (4 * (q / 2) + p / 4) + (4 * (q % 2) + p % 4)) ⟨0, 0, 0, 255⟩)
            fun p =>
              decide (4 * (q % 2) + p % 4 < s.latched.args.width) &&
                decide (4 * (q / 2) + p / 4 < s.latched.args.height))
        s.res0 s.res1 s.res2 s.res3)

/-- R35 to R38, R94, R95: PDEC decodes and PENC encodes LEN palette entries; and the byte layout of the
colour, index and palette arrays that every command reads and writes. -/
def Obligations.PaletteCommandsComplete : Prop :=
  (∀ cs : List Color, (colorBytes cs).length = 4 * cs.length ∧
    ∀ k, (h : k < cs.length) →
      (colorBytes cs)[4 * k]? = some cs[k].r ∧ (colorBytes cs)[4 * k + 1]? = some cs[k].g ∧
      (colorBytes cs)[4 * k + 2]? = some cs[k].b ∧ (colorBytes cs)[4 * k + 3]? = some cs[k].a) ∧
  (∀ is : List Half, (indexBytes is).length = 2 * is.length ∧
    ∀ k, (h : k < is.length) →
      (indexBytes is)[2 * k]?.map BitVec.toNat = some (is[k].toNat / 256) ∧
      (indexBytes is)[2 * k + 1]?.map BitVec.toNat = some (is[k].toNat % 256)) ∧
  (∀ (m : Memory) (a n : Nat),
    m.readBytes a n = ((List.range n).map fun k => m.read (a + k)) ∧
    m.readColor a = ⟨m.read a, m.read (a + 1), m.read (a + 2), m.read (a + 3)⟩ ∧
    m.readColors a n = ((List.range n).map fun k => m.readColor (a + 4 * k)) ∧
    (m.readHalf a).toNat = 256 * (m.read a).toNat + (m.read (a + 1)).toNat ∧
    m.readHalves a n = (List.range n).map fun k => m.readHalf (a + 2 * k)) ∧
  (∀ (v : Half) (w : Word) (hi lo : Byte),
    (halfBytes v).map BitVec.toNat = [v.toNat / 256, v.toNat % 256] ∧
    (wordBytes w).map BitVec.toNat = [w.toNat / 2 ^ 24, w.toNat / 2 ^ 16 % 256,
      w.toNat / 2 ^ 8 % 256, w.toNat % 256] ∧
    (be16 hi lo).toNat = 256 * hi.toNat + lo.toNat) ∧
  (∀ (b : List Byte) (k : Nat), (h : k < b.length) → byteAt b k = b[k]) ∧
  ∀ (s : State) (pfmt : BitVec 2) (p : PaletteFormat), PaletteFormat.ofCode pfmt = some p →
    (s.reaches (.pdec pfmt) →
      ∃ t, exec (.pdec pfmt) s = .next t ∧
        Completion s t {}
          (colorBytes ((List.range s.latched.args.len.toNat).map fun k =>
            decPal p (s.mem.readHalf (s.latched.args.src.toNat + 2 * k))))
          s.res0 s.res1 s.res2 s.res3) ∧
    (s.reaches (.penc pfmt) →
      ∃ t, exec (.penc pfmt) s = .next t ∧
        Completion s t {}
          (indexBytes ((List.range s.latched.args.len.toNat).map fun k =>
            encPal p (s.mem.readColor (s.latched.args.src.toNat + 4 * k))))
          s.res0 s.res1 s.res2 s.res3)

/-- R103, R113: CDEC4 writes the 16 colours of a sub-block and gives its key words and its index field;
CPAL writes the decoder's palette of the two words of ARG, or with F = 1 the palette of the two colours
at SRC in the mode of those words. -/
def Obligations.SubBlockPaletteCommandsComplete : Prop :=
  ∀ s : State,
    (s.reaches .cdec4 →
      let b := s.mem.readBytes s.latched.args.src.toNat 8
      ∃ t, exec .cdec4 s = .next t ∧
        Completion s t {} (colorBytes (decodeSub b)) t.res0 t.res1 s.res2 s.res3 ∧
        t.res0.toNat = (s.mem.readHalf s.latched.args.src.toNat).toNat * 2 ^ 16 +
          (s.mem.readHalf (s.latched.args.src.toNat + 2)).toNat ∧
        t.res1.toNat = (s.mem.readHalf (s.latched.args.src.toNat + 4)).toNat * 2 ^ 16 +
          (s.mem.readHalf (s.latched.args.src.toNat + 6)).toNat) ∧
    let r0 : Half := s.latched.args.arg.extractLsb' 16 16
    let r1 : Half := s.latched.args.arg.extractLsb' 0 16
    (s.reaches (.cpal false) →
      ∃ t, exec (.cpal false) s = .next t ∧
        Completion s t {} (colorBytes (decPalette r0 r1)) s.res0 s.res1 s.res2 s.res3) ∧
    (s.reaches (.cpal true) →
      ∃ t, exec (.cpal true) s = .next t ∧
        Completion s t {}
          (colorBytes (localPalette (s.mem.readColor s.latched.args.src.toNat)
            (s.mem.readColor (s.latched.args.src.toNat + 4)) (decide (r1.toNat < r0.toNat))))
          s.res0 s.res1 s.res2 s.res3)

/-- R106, R111, R115, R117: CKEY writes the two key colours, CENC4 the compressed sub-block, and both
give the key words and the flags; CIDX, and RES2 of CENC4, give the index field. -/
def Obligations.EncoderCommandsComplete : Prop :=
  ∀ s : State,
    let ps := s.mem.readColors s.latched.args.src.toNat 16
    let inb := fun p =>
      decide (p % 4 < s.latched.args.width) && decide (p / 4 < s.latched.args.height)
    let k := selectKeys ps inb
    let raw := k.r0.toNat * 2 ^ 16 + k.r1.toNat
    let flags := k.pt.toNat + 2 * k.dflt.toNat + 4 * k.tie.toNat + 8 * k.swp.toNat
    (s.reaches .ckey →
      ∃ t, exec .ckey s = .next t ∧
        Completion s t {} (colorBytes [k.k0, k.k1]) t.res0 t.res1 s.res2 s.res3 ∧
        t.res0.toNat = raw ∧ t.res1.toNat = flags) ∧
    (s.reaches .cidx →
      ∃ t, exec .cidx s = .next t ∧
        Completion s t {} []
          (indexField ps inb (s.mem.readColors s.latched.args.aux.toNat 4))
          s.res1 s.res2 s.res3) ∧
    (s.reaches .cenc4 →
      ∃ t, exec .cenc4 s = .next t ∧
        Completion s t {} (halfBytes k.r0 ++ halfBytes k.r1 ++ wordBytes t.res2)
          t.res0 t.res1 t.res2 s.res3 ∧
        t.res0.toNat = raw ∧ t.res1.toNat = flags ∧
        t.res2 = indexField ps inb
          (localPalette k.k0 k.k1 (decide (k.r1.toNat < k.r0.toNat))))

/-- R130, R131: QDIST gives the distance of two colours as a 64-bit number in RES1:RES0, QAVG the average
of LEN colours packed in RES0. -/
def Obligations.MetricCommandsComplete : Prop :=
  ∀ s : State,
    (s.reaches .qdist →
      ∃ t, exec .qdist s = .next t ∧ Completion s t {} [] t.res0 t.res1 s.res2 s.res3 ∧
        t.res1.toNat * 2 ^ 32 + t.res0.toNat =
          distance (s.mem.readColor s.latched.args.src.toNat)
            (s.mem.readColor s.latched.args.aux.toNat)) ∧
    (s.latched.args.len ≠ 0 → s.reaches .qavg →
      let a := averageColor
        (s.mem.readColors s.latched.args.src.toNat s.latched.args.len.toNat)
      ∃ t, exec .qavg s = .next t ∧ Completion s t {} [] t.res0 s.res1 s.res2 s.res3 ∧
        t.res0.toNat =
          a.r.toNat * 2 ^ 24 + a.g.toNat * 2 ^ 16 + a.b.toNat * 2 ^ 8 + a.a.toNat)

/-- R132, R133: QNEAR writes the nearest palette index of each of LEN colours, QPAL the limited palette
of LEN colours and its length. -/
def Obligations.PaletteBuildingCommandsComplete : Prop :=
  ∀ s : State,
    (s.latched.args.pallen ≠ 0 → s.latched.args.pallen.toNat ≤ 16384 → s.reaches .qnear →
      ∃ t, exec .qnear s = .next t ∧
        Completion s t {}
          (indexBytes ((List.range s.latched.args.len.toNat).map fun k =>
            BitVec.ofNat 16 (nearestColor (s.mem.readColor (s.latched.args.src.toNat + 4 * k))
              (s.mem.readColors s.latched.args.aux.toNat s.latched.args.pallen.toNat))))
          s.res0 s.res1 s.res2 s.res3) ∧
    ∀ (f : Bool) (qsel : BitVec 2) (m : PaletteSize), PaletteSize.ofCode qsel = some m →
      s.latched.args.len.toNat ≤ s.qpopMax → s.reaches (.qpal f qsel) →
      ∃ t, exec (.qpal f qsel) s = .next t ∧
        Completion s t {}
          (colorBytes (buildLimitedPalette
            (s.mem.readColors s.latched.args.src.toNat s.latched.args.len.toNat) m f))
          (BitVec.ofNat 32 (min s.latched.args.len.toNat m.maxColors)) s.res1 s.res2 s.res3

/-- R141 to R146: the transcoder commands write the transform of the LEN bytes at SRC. -/
def Obligations.TranscoderCommandsComplete : Prop :=
  ∀ s : State,
    let b := s.mem.readBytes s.latched.args.src.toNat s.latched.args.len.toNat
    let wb := s.latched.args.width / 4
    (s.latched.args.len.toNat % 8 = 0 → s.reaches .xswp →
      ∃ t, exec .xswp s = .next t ∧
        Completion s t {} (swapWords b) s.res0 s.res1 s.res2 s.res3) ∧
    (0 < s.latched.args.width → 0 < s.latched.args.height → s.latched.args.width % 8 = 0 →
      s.latched.args.height % 8 = 0 →
      s.latched.args.len.toNat = s.latched.args.width * s.latched.args.height / 2 →
      ∀ row ∈ [(Instr.xreo, reorderEncode wb b), (.xred, reorderDecode wb b),
          (.x2c, swapWords (reorderEncode wb b)), (.c2x, reorderDecode wb (swapWords b))],
        s.reaches row.1 →
        ∃ t, exec row.1 s = .next t ∧
          Completion s t {} row.2 s.res0 s.res1 s.res2 s.res3)

/-- R147, R148: PRANGE gives the least and the greatest index used, the bounds of the palette slice, and
PALABSENT or RANGESHORT. -/
def Obligations.PrangeCompletes : Prop :=
  ∀ (s : State) (fmt : BitVec 4) (f : PixelFormat) (pp : Bool),
    PixelFormat.ofCode fmt = some f → f.indexed = true →
    s.latched.args.pallen.toNat ≤ 16384 → s.latched.args.len ≠ 0 →
    (f = .c14x2 → s.latched.args.len.toNat % 2 = 0) → s.reaches (.prange fmt pp) →
    let n := if f = .c4 then 2 * s.latched.args.len.toNat
      else if f = .c8 then s.latched.args.len.toNat else s.latched.args.len.toNat / 2
    let is := (List.range n).map fun i => (indexAt f
      (s.mem.readBytes s.latched.args.src.toNat s.latched.args.len.toNat) i).toNat
    ∃ t mn mx, exec (.prange fmt pp) s = .next t ∧ mn ∈ is ∧ mx ∈ is ∧
      (∀ k ∈ is, mn ≤ k ∧ k ≤ mx) ∧
      Completion s t
        { palabsent := !pp
          rangeshort := pp && decide (s.latched.args.pallen.toNat < mx + 1) }
        [] (BitVec.ofNat 32 mn) (BitVec.ofNat 32 mx) (BitVec.ofNat 32 (2 * mn))
        (BitVec.ofNat 32 (2 * (mx + 1)))

/-! ### Block layouts -/

/-- R70 to R73, R76 to R81, R83, R85: the channels of every pixel of the direct formats other than CMPR,
computed from the bytes of the block in plain arithmetic; a palette entry decodes as a pixel of the same
name; a block of any format decodes pixel by pixel. -/
def Obligations.DecodedPixels : Prop :=
  ∀ (b : List Byte) (i : Nat),
    let x := fun k => (byteAt b k).toNat
    let v := 256 * x (2 * i) + x (2 * i + 1)
    let chans := fun f => ((decodePixel f b i).r.toNat, (decodePixel f b i).g.toNat,
      (decodePixel f b i).b.toNat, (decodePixel f b i).a.toNat)
    let five := fun u => 8 * (u % 32) + u % 32 / 4
    let six := fun u => 4 * (u % 64) + u % 64 / 16
    let nib := if i % 2 = 0 then x (i / 2) / 16 else x (i / 2) % 16
    chans .i4 = (17 * nib, 17 * nib, 17 * nib, 17 * nib) ∧
    chans .i8 = (x i, x i, x i, x i) ∧
    chans .ia4 = (17 * (x i % 16), 17 * (x i % 16), 17 * (x i % 16), 17 * (x i / 16)) ∧
    chans .ia8 = (x (2 * i + 1), x (2 * i + 1), x (2 * i + 1), x (2 * i)) ∧
    chans .rgb565 = (five (v / 2048), six (v / 32), five v, 255) ∧
    chans .rgb5a3 =
      (if 32768 ≤ v then (five (v / 1024), five (v / 32), five v, 255)
      else (16 * (v / 256 % 16), 16 * (v / 16 % 16), 16 * (v % 16),
        32 * (v / 4096 % 8) + 4 * (v / 4096 % 8) + v / 4096 % 8 / 2)) ∧
    chans .rgba32 = (x (2 * i + 1), x (32 + 2 * i), x (33 + 2 * i), x (2 * i)) ∧
    decPal .ia8 (halfAt b (2 * i)) = decodePixel .ia8 b i ∧
    decPal .rgb565 (halfAt b (2 * i)) = decodePixel .rgb565 b i ∧
    decPal .rgb5a3 (halfAt b (2 * i)) = decodePixel .rgb5a3 b i ∧
    ∀ f, decodeBlock f b = (List.range f.npix).map (decodePixel f b)

/-- R74, R76 to R80, R82, R83, R85: the bytes that encoding leaves for pixel i of every direct format
other than CMPR, computed from its channels and its intensity in plain arithmetic; a palette entry is the
word of a pixel of the same name, and that of RGB565 is a raw key word. The intensity of a colour that is
not grey is open (log 4). -/
def Obligations.EncodedPixels : Prop :=
  ∀ (ps : List Color) (i : Nat) (hi : i < ps.length),
    let p := ps[i]
    let y := (intensity p).toNat
    let r := p.r.toNat
    let g := p.g.toNat
    let b := p.b.toNat
    let a := p.a.toNat
    let byte := fun f k => (byteAt (encodeBlock f ps) k).toNat
    let word := fun f => 256 * byte f (2 * i) + byte f (2 * i + 1)
    let opaqueWord := 32768 + 1024 * (r / 8) + 32 * (g / 8) + b / 8
    let alphaWord := 4096 * (a / 32) + 256 * (r / 16) + 16 * (g / 16) + b / 16
    let exact5 := fun c => c = 8 * (c / 8) + c / 32
    (ps.length % 2 = 0 →
      (if i % 2 = 0 then byte .i4 (i / 2) / 16 else byte .i4 (i / 2) % 16) = y / 16) ∧
    byte .i8 i = y ∧
    byte .ia4 i = 16 * (a / 16) + y / 16 ∧
    word .ia8 = 256 * a + y ∧
    word .rgb565 = 2048 * (r / 8) + 32 * (g / 4) + b / 8 ∧
    word .rgb5a3 =
      (if a = 255 ∧ exact5 r ∧ exact5 g ∧ exact5 b then opaqueWord
      else if a = 32 * (a / 32) + 4 * (a / 32) + a / 64 ∧ r % 16 = 0 ∧ g % 16 = 0 ∧ b % 16 = 0 then
        alphaWord
      else if a = 255 then opaqueWord
      else alphaWord) ∧
    (ps.length = 16 → byte .rgba32 (2 * i) = a ∧ byte .rgba32 (2 * i + 1) = r ∧
      byte .rgba32 (32 + 2 * i) = g ∧ byte .rgba32 (33 + 2 * i) = b) ∧
    (encPal .ia8 p).toNat = word .ia8 ∧ (encPal .rgb565 p).toNat = word .rgb565 ∧
    (encPal .rgb5a3 p).toNat = word .rgb5a3 ∧ (enc565 p).toNat = word .rgb565

/-- R88: decoding after encoding gives back every pixel grid that a decode can produce, for every direct
format but CMPR, and encoding after decoding gives back the block for every one of them but RGB5A3; there
an alpha-mode word with alpha 7 and channels exact in 5-bit form comes back as an opaque word, 0x7000 as
0x8000. -/
def Obligations.DirectFormatsRoundTrip : Prop :=
  (∀ f : PixelFormat, f.indexed = false → f ≠ .cmpr →
    ∀ b : List Byte, b.length = f.blockBytes →
      decodeBlock f (encodeBlock f (decodeBlock f b)) = decodeBlock f b ∧
      (f ≠ .rgb5a3 → encodeBlock f (decodeBlock f b) = b)) ∧
  (∀ v : Half, v.getLsbD 15 = false → v.extractLsb' 12 3 = 7 →
    (∀ k ∈ [Color.r, Color.g, Color.b], expand5 (narrow 5 (k (dec5A3 v))) = k (dec5A3 v)) →
    (enc5A3 (dec5A3 v)).getLsbD 15 = true) ∧
  dec5A3 0x7000 = ⟨0, 0, 0, 255⟩ ∧ enc5A3 (dec5A3 0x7000) = 0x8000

/-- R55, R84, R93: the largest index of each format; index i of C4 is nibble i, high nibble first, of C8
byte i, and of C14X2 bits 13:0 of the big-endian value i; packing the indices of a block gives the block
back, but that bits 15:14 of each C14X2 value become 0; no index of a block is above the format's
maximum. -/
def Obligations.IndexBlocksRoundTrip : Prop :=
  (PixelFormat.c4.maxIndex = 15 ∧ PixelFormat.c8.maxIndex = 255 ∧
    PixelFormat.c14x2.maxIndex = 16383) ∧
  (∀ (b : List Byte) (i : Nat),
    let x := fun k => (byteAt b k).toNat
    (indexAt .c4 b i).toNat = (if i % 2 = 0 then x (i / 2) / 16 else x (i / 2) % 16) ∧
    (indexAt .c8 b i).toNat = x i ∧
    (indexAt .c14x2 b i).toNat = (256 * x (2 * i) + x (2 * i + 1)) % 16384 ∧
    ∀ f, decodeIndices f b = (List.range f.npix).map (indexAt f b)) ∧
  ∀ (f : PixelFormat) (b : List Byte), f.indexed = true → b.length = 32 →
    (∀ v ∈ decodeIndices f b, v.toNat ≤ f.maxIndex) ∧
    (f ≠ .c14x2 → encodeIndexBlock f (decodeIndices f b) = b) ∧
    (f = .c14x2 → ∀ k < 32, (encodeIndexBlock f (decodeIndices f b)).getD k 0 =
      if k % 2 = 0 then byteAt b k &&& 0x3F else byteAt b k)

/-- R75: the two laws of INTENSITY. Its value on any other colour is open (log 4). -/
def Obligations.IntensityLaws : Prop :=
  (∀ (c : Color) (a : Byte), intensity { c with a := a } = intensity c) ∧
  ∀ v a : Byte, intensity ⟨v, v, v, a⟩ = v

/-- R74: narrowing to n = 3, 4, 5, 6 bits drops the low bits, and inverts each widening function. -/
def Obligations.NarrowingInvertsWidening : Prop :=
  (∀ c : Byte, ∀ n ∈ [3, 4, 5, 6], (narrow n c).toNat = c.toNat / 2 ^ (8 - n)) ∧
  (∀ v, narrow 5 (expand5 v) = v) ∧ (∀ v, narrow 6 (expand6 v) = v) ∧
  (∀ v, narrow 4 (rep4 v) = v) ∧ (∀ v, narrow 4 (shl4 v) = v) ∧ ∀ a, narrow 3 (expand3 a) = a

/-! ### CMPR -/

/-- R80, R98 to R101: the local palette of any two colours in either mode, the colours themselves and
their floor blends, and the decoder's palette, which is that of the two key words in the mode r0 > r1.
There entries 0 and 1 are opaque, and entry 3 is transparent exactly in 3-colour mode, r0 ≤ r1. -/
def Obligations.DecoderPaletteRule : Prop :=
  (∀ p q : Color,
    let blend := fun (k : Color → Byte) (a b : Color) =>
      BitVec.ofNat 8 ((2 * (k a).toNat + (k b).toNat) / 3)
    let mean := fun (k : Color → Byte) => BitVec.ofNat 8 (((k p).toNat + (k q).toNat) / 2)
    localPalette p q true = [p, q,
      ⟨blend Color.r p q, blend Color.g p q, blend Color.b p q, 255⟩,
      ⟨blend Color.r q p, blend Color.g q p, blend Color.b q p, 255⟩] ∧
    localPalette p q false = [p, q, ⟨mean Color.r, mean Color.g, mean Color.b, 255⟩,
      ⟨mean Color.r, mean Color.g, mean Color.b, 0⟩]) ∧
  (∀ v : Half,
    (dec565 v).r.toNat = 8 * (v.toNat / 2048) + v.toNat / 2048 / 4 ∧
    (dec565 v).g.toNat = 4 * (v.toNat / 32 % 64) + v.toNat / 32 % 64 / 16 ∧
    (dec565 v).b.toNat = 8 * (v.toNat % 32) + v.toNat % 32 / 4 ∧ (dec565 v).a = 255) ∧
  ∀ r0 r1 : Half, ∃ e2 e3 : Color,
    let p := dec565 r0
    let q := dec565 r1
    decPalette r0 r1 = localPalette p q (decide (r1.toNat < r0.toNat)) ∧
    decPalette r0 r1 = [p, q, e2, e3] ∧ p.a = 255 ∧ q.a = 255 ∧ e2.a = 255 ∧
    (e3.a = 0 ↔ r0.toNat ≤ r1.toNat) ∧ (e3.a = 255 ↔ r1.toNat < r0.toNat) ∧
    ∀ k ∈ [Color.r, Color.g, Color.b],
      (r1.toNat < r0.toNat →
        (k e2).toNat = (2 * (k p).toNat + (k q).toNat) / 3 ∧
        (k e3).toNat = (2 * (k q).toNat + (k p).toNat) / 3) ∧
      (r0.toNat ≤ r1.toNat →
        (k e2).toNat = ((k p).toNat + (k q).toNat) / 2 ∧ k e3 = k e2)

/-- R96, R97, R102: pixel p of a sub-block selects the palette entry given by bits 7 − 2(p mod 4) and
6 − 2(p mod 4) of byte 4 + p div 4, and pixel (x, y) of a CMPR block is a pixel of the sub-block that
covers it. -/
def Obligations.SubBlockDecoding : Prop :=
  (∀ b : List Byte, (decodeSub b).length = 16) ∧
  (∀ (b : List Byte) (p : Nat), p < 16 →
    (decodeSub b)[p]? =
      (decPalette (be16 (byteAt b 0) (byteAt b 1)) (be16 (byteAt b 2) (byteAt b 3)))[
        (byteAt b (4 + p / 4)).toNat / 4 ^ (3 - p % 4) % 4]?) ∧
  ∀ (b : List Byte) (x y : Nat), b.length = 32 → x < 8 → y < 8 →
    some (decodePixel .cmpr b (8 * y + x)) =
      (decodeSub ((List.range 8).map fun k => byteAt b (8 * (2 * (y / 4) + x / 4) + k)))[
        4 * (y % 4) + x % 4]?

/-- R105, R107 to R110: what the key-colour selector picks among the survivors, the in-bounds pixels with
A ≥ 16 in pixel order; when it breaks a tie; when it swaps; and its flags. -/
def Obligations.SelectKeysRule : Prop :=
  ∀ (ps : List Color) (inb : Nat → Bool),
    let k := selectKeys ps inb
    let a := if k.swp then k.k1 else k.k0
    let b := if k.swp then k.k0 else k.k1
    let pixel := fun p => ps.getD p ⟨0, 0, 0, 255⟩
    let cs := ((List.range ps.length).filter fun p => inb p && decide (16 ≤ (pixel p).a.toNat)).map pixel
    k.flags.toNat = k.pt.toNat + 2 * k.dflt.toNat + 4 * k.tie.toNat + 8 * k.swp.toNat ∧
    k.r0 = enc565 k.k0 ∧ k.r1 = enc565 k.k1 ∧
    (k.pt = true ↔ ∃ p c, ps[p]? = some c ∧ inb p = true ∧ c.a.toNat < 16) ∧
    (k.dflt = true ↔ cs = []) ∧
    (cs = [] → a = ⟨0, 0, 0, 255⟩ ∧ b = ⟨255, 255, 255, 255⟩ ∧ k.tie = false) ∧
    (cs ≠ [] → ∃ x y,
      (cs.length = 1 → cs = [x] ∧ y = x) ∧
      (2 ≤ cs.length → maxDistancePair cs = some (x, y)) ∧
      a = x ∧ (k.tie = true ↔ enc565 x = enc565 y ∧ x ≠ y) ∧
      (k.tie = false → b = y) ∧
      (k.tie = true → b = if enc565 x = 0 then ⟨255, 255, 255, 255⟩ else ⟨0, 0, 0, 255⟩)) ∧
    (k.swp = true ↔
      (k.pt = true ∧ (enc565 b).toNat < (enc565 a).toNat) ∨
      (k.pt = false ∧ (enc565 a).toNat < (enc565 b).toNat)) ∧
    (k.pt = true → k.r0.toNat ≤ k.r1.toNat) ∧ (k.pt = false → k.r1.toNat ≤ k.r0.toNat)

/-- R109, R116, R117: a sub-block whose 16 pixels are one colour with A ≥ 16, some of them in bounds,
compresses to that colour's word twice and 16 indices 0, with no flag set. -/
def Obligations.UniformSubBlock : Prop :=
  ∀ (c : Color) (inb : Nat → Bool), 16 ≤ c.a.toNat → (∃ p < 16, inb p = true) →
    (selectKeys (List.replicate 16 c) inb).flags = 0 ∧
    encodeSub (List.replicate 16 c) inb =
      halfBytes (enc565 c) ++ halfBytes (enc565 c) ++ [0, 0, 0, 0]

/-- R114: the index field of 16 pixels holds, at bits 31 − 2p and 30 − 2p, the nearest palette entry of
pixel p, or 0 where the pixel is out of bounds. -/
def Obligations.IndexFieldLayout : Prop :=
  ∀ (ps palette : List Color) (inb : Nat → Bool) (p : Nat), ps.length = 16 →
    palette.length = 4 → (h : p < ps.length) →
    (indexField ps inb palette).toNat / 4 ^ (15 - p) % 4 =
      if inb p then nearestColor ps[p] palette else 0

/-! ### Quantizer -/

/-- R120: the scaled distance is 390150 times the source's metric, exactly; it is symmetric, bounded, and
0 exactly for equal alphas with equal RGB or alpha 0. -/
def Obligations.DistanceIsScaledMetric : Prop :=
  ∀ s p : Color,
    let sq := fun x y : Byte => ((x.toNat : ℚ) - y.toNat) ^ 2
    (distance s p : ℚ) = 390150 *
      (sq s.a p.a / 2 +
        (sq s.r p.r + sq s.g p.g + sq s.b p.b) / 3 * s.a.toNat * p.a.toNat / 65025) ∧
    distance s p = distance p s ∧
    distance s p ≤ 195075 * (s.a.toNat ^ 2 + p.a.toNat ^ 2) ∧
    195075 * (s.a.toNat ^ 2 + p.a.toNat ^ 2) ≤ 25369503750 ∧
    (distance s p = 0 ↔
      s.a = p.a ∧ ((s.r = p.r ∧ s.g = p.g ∧ s.b = p.b) ∨ s.a = 0))

/-- R122: of the pairs at maximum distance, the first in lexicographic order. -/
def Obligations.MaxDistancePairIsFirst : Prop :=
  ∀ cs : List Color, 2 ≤ cs.length →
    ∃ i j, ∃ (hi : i < cs.length) (hj : j < cs.length), i < j ∧
      maxDistancePair cs = some (cs[i], cs[j]) ∧
      ∀ i' j', (hi' : i' < cs.length) → (hj' : j' < cs.length) → i' < j' →
        distance cs[i'] cs[j'] ≤ distance cs[i] cs[j] ∧
        (i' < i ∨ (i' = i ∧ j' < j) → distance cs[i'] cs[j'] < distance cs[i] cs[j])

/-- R123: the nearest colour of a non-empty palette: the first equal entry; else, for A < 16, the first
entry with A = 0; else the first entry at minimum distance. -/
def Obligations.NearestColorRule : Prop :=
  ∀ (c : Color) (cs : List Color), cs ≠ [] →
    ∃ h : nearestColor c cs < cs.length,
      let e := nearestColor c cs
      (c ∈ cs → cs[e] = c ∧ ∀ j, (hj : j < e) → cs[j] ≠ c) ∧
      (c ∉ cs → c.a.toNat < 16 → (∃ p ∈ cs, p.a = 0) →
        cs[e].a = 0 ∧ ∀ j, (hj : j < e) → cs[j].a ≠ 0) ∧
      (c ∉ cs → (16 ≤ c.a.toNat ∨ ∀ p ∈ cs, p.a ≠ 0) →
        (∀ p ∈ cs, distance c cs[e] ≤ distance c p) ∧
        ∀ j, (hj : j < e) → distance c cs[e] < distance c cs[j])

/-- R124: the average of a non-empty list is its first zero-alpha member, or, where there is none, the
floor mean of each channel. -/
def Obligations.AverageRule : Prop :=
  ∀ cs : List Color, cs ≠ [] →
    (∀ before c after, cs = before ++ c :: after → c.a = 0 → (∀ d ∈ before, d.a ≠ 0) →
      averageColor cs = c) ∧
    ((∀ c ∈ cs, c.a ≠ 0) →
      ∀ k ∈ [Color.r, Color.g, Color.b, Color.a],
        (k (averageColor cs)).toNat = (cs.map fun c => (k c).toNat).sum / cs.length)

/-- R128: the limited palette of n colours has min(n, maxColors) entries. -/
def Obligations.LimitedPaletteLength : Prop :=
  ∀ (cs : List Color) (m : PaletteSize) (allowAlpha : Bool),
    (buildLimitedPalette cs m allowAlpha).length = min cs.length m.maxColors

/-- R127, R129, R133: with allowAlpha a fully transparent colour of the population stands in the palette
unaveraged, and every fully transparent entry is a colour of the population; without it, every entry is
opaque. -/
def Obligations.TransparentEntriesKept : Prop :=
  ∀ (cs : List Color) (m : PaletteSize),
    ((∃ c ∈ cs, c.a = 0) → ∃ e ∈ buildLimitedPalette cs m true, e.a = 0) ∧
    (∀ e ∈ buildLimitedPalette cs m true, e.a = 0 → e ∈ cs) ∧
    ∀ e ∈ buildLimitedPalette cs m false, e.a = 255

/-- R52, R125 to R127: the limited palette is the split, at depth 4, 8 or 14, of the colours, or without
allowAlpha of the colours with alpha 255; an empty bucket gives no entry, a bucket at depth 0 its
average; a split sorts by (A, split channel), stably and ascending, and goes on with the upper half
before the lower; the split channel is one of the largest range, green before red before blue. -/
def Obligations.BucketSplitRule : Prop :=
  -- QSEL, maxColors and depth
  (∀ row ∈ [(0, 16, 4), (1, 256, 8), (2, 16384, 14)], ∃ m,
    PaletteSize.ofCode (BitVec.ofNat 2 row.1) = some m ∧ m.maxColors = row.2.1 ∧
    ∀ cs : List Color,
      buildLimitedPalette cs m true = splitToBuckets row.2.2 cs ∧
      buildLimitedPalette cs m false =
        splitToBuckets row.2.2 (cs.map fun c => ⟨c.r, c.g, c.b, 255⟩)) ∧
  (∀ d, splitToBuckets d [] = []) ∧
  (∀ cs : List Color, cs ≠ [] → splitToBuckets 0 cs = [averageColor cs] ∧
    ∀ d, ∃ sorted, sorted = sortByKey (sortKey (splitChannel cs)) cs ∧
      splitToBuckets (d + 1) cs =
        splitToBuckets d (sorted.drop (cs.length / 2)) ++
          splitToBuckets d (sorted.take (cs.length / 2))) ∧
  (∀ (k : Color → Byte) (cs : List Color),
    (sortByKey (sortKey k) cs).Perm cs ∧
    (sortByKey (sortKey k) cs).Pairwise
      (fun c d => c.a.toNat < d.a.toNat ∨ (c.a = d.a ∧ (k c).toNat ≤ (k d).toNat)) ∧
    ∀ (a v : Byte),
      (sortByKey (sortKey k) cs).filter (fun c => decide (c.a = a ∧ k c = v)) =
        cs.filter fun c => decide (c.a = a ∧ k c = v)) ∧
  ∀ cs : List Color, cs ≠ [] →
    let spread := fun k => channelRange k cs
    (∀ k ∈ [Color.r, Color.g, Color.b],
      (∀ c ∈ cs, ∀ d ∈ cs, (k c).toNat ≤ (k d).toNat + spread k) ∧
      ∃ c ∈ cs, ∃ d ∈ cs, (k c).toNat = (k d).toNat + spread k) ∧
    (spread Color.r ≤ spread Color.g → spread Color.b ≤ spread Color.g →
      splitChannel cs = Color.g) ∧
    ((spread Color.g < spread Color.r ∨ spread Color.g < spread Color.b) →
      splitChannel cs = if spread Color.b ≤ spread Color.r then Color.r else Color.b)

/-! ### Transcoder -/

/-- R134, R136, R137, R142: Rev2 reverses the four 2-bit groups of a byte; Swap exchanges the bytes of
each key word and reverses the groups of each index byte; swapping a word twice gives it back; and the
swapped word decodes, pixel by pixel, to the colour that the foreign word's little-endian keys and index
field select. Swapping a buffer of whole words swaps each of its 8-byte words in place. -/
def Obligations.SwapKeepsColours : Prop :=
  (∀ x : Byte, rev2 (rev2 x) = x ∧
    ∀ k, k < 4 → (rev2 x).toNat / 4 ^ k % 4 = x.toNat / 4 ^ (3 - k) % 4) ∧
  (∀ b : List Byte, b.length % 8 = 0 → (swapWords b).length = b.length ∧
    ∀ n, n < b.length / 8 →
      dxtWord b n = ((List.range 8).map fun k => byteAt b (8 * n + k)) ∧
      dxtWord (swapWords b) n = swapWord (dxtWord b n)) ∧
  ∀ w : List Byte, w.length = 8 →
    (∀ k < 4, byteAt (swapWord w) k = byteAt w (if k % 2 = 0 then k + 1 else k - 1)) ∧
    (∀ k, 4 ≤ k → k < 8 → byteAt (swapWord w) k = rev2 (byteAt w k)) ∧
    swapWord (swapWord w) = w ∧
    ∀ p, p < 16 →
      (decodeSub (swapWord w))[p]? =
        (decPalette (be16 (byteAt w 1) (byteAt w 0)) (be16 (byteAt w 3) (byteAt w 2)))[
          (byteAt w (4 + p / 4)).toNat / 4 ^ (p % 4) % 4]?

/-- R138: the word permutation between the foreign and the local order, in both directions. -/
def Obligations.ReorderPermutesWords : Prop :=
  ∀ (w h : Nat) (b : List Byte), 0 < w → 0 < h → w % 8 = 0 → h % 8 = 0 →
    b.length = w * h / 2 →
    let wb := w / 4
    let hb := h / 4
    (reorderEncode wb b).length = b.length ∧ (reorderDecode wb b).length = b.length ∧
    ∀ s k q, s < hb / 2 → k < wb / 2 → q < 4 →
      dxtWord (reorderEncode wb b) (s * 2 * wb + 4 * k + q) =
        dxtWord b ((2 * s + q / 2) * wb + 2 * k + q % 2) ∧
      dxtWord (reorderDecode wb b) ((2 * s + q / 2) * wb + 2 * k + q % 2) =
        dxtWord b (s * 2 * wb + 4 * k + q)

/-- R140: every transcoding has its inverse, for every valid W and H and every buffer of W·H/2 bytes; for
W = 8 the reorder is the identity. -/
def Obligations.TranscoderRoundTrips : Prop :=
  ∀ (w h : Nat) (b : List Byte), 0 < w → 0 < h → w % 8 = 0 → h % 8 = 0 →
    b.length = w * h / 2 →
    localToForeign (w / 4) (foreignToLocal (w / 4) b) = b ∧
    foreignToLocal (w / 4) (localToForeign (w / 4) b) = b ∧
    reorderDecode (w / 4) (reorderEncode (w / 4) b) = b ∧
    reorderEncode (w / 4) (reorderDecode (w / 4) b) = b ∧
    swapWords (swapWords b) = b ∧
    (w = 8 → reorderEncode (w / 4) b = b ∧ reorderDecode (w / 4) b = b)
end

