-- ==== Sys2Proof/Laws/State.lean ====
section
/-! SUPPORT. One lemma for each field and each update of the state: the update's own fields as it sets
them, every other field as it was. -/

namespace Sys2Proof.Machine

section Issue
variable (s : State) (v : Word)

@[simp] theorem issue_lastCmd : (s.issue v).lastCmd = v := rfl
@[simp] theorem issue_status : (s.issue v).status = s.status.issue := rfl
@[simp] theorem issue_errCode : (s.issue v).errCode = .none := rfl
@[simp] theorem issue_errInfo : (s.issue v).errInfo = 0 := rfl
@[simp] theorem issue_args : (s.issue v).args = s.args := rfl
@[simp] theorem issue_res0 : (s.issue v).res0 = s.res0 := rfl
@[simp] theorem issue_res1 : (s.issue v).res1 = s.res1 := rfl
@[simp] theorem issue_res2 : (s.issue v).res2 = s.res2 := rfl
@[simp] theorem issue_res3 : (s.issue v).res3 = s.res3 := rfl
@[simp] theorem issue_latched : (s.issue v).latched = s.snapshot v := rfl
@[simp] theorem issue_mem : (s.issue v).mem = s.mem := rfl
@[simp] theorem issue_memSize : (s.issue v).memSize = s.memSize := rfl
@[simp] theorem issue_qpopMax : (s.issue v).qpopMax = s.qpopMax := rfl
@[simp] theorem issue_regBase : (s.issue v).regBase = s.regBase := rfl
@[simp] theorem issue_agenda : (s.issue v).agenda = s.agenda := rfl
@[simp] theorem issue_reply : (s.issue v).reply = s.reply := rfl
@[simp] theorem snapshot_word : (s.snapshot v).word = v := rfl
@[simp] theorem snapshot_args : (s.snapshot v).args = s.args := rfl

end Issue

section Complete
variable (s : State) (o : Outputs)

@[simp] theorem complete_lastCmd : (s.complete o).lastCmd = s.lastCmd := rfl
@[simp] theorem complete_status : (s.complete o).status = s.status.complete o.diag := rfl
@[simp] theorem complete_errCode : (s.complete o).errCode = s.errCode := rfl
@[simp] theorem complete_errInfo : (s.complete o).errInfo = s.errInfo := rfl
@[simp] theorem complete_args : (s.complete o).args = s.args := rfl
@[simp] theorem complete_res0 : (s.complete o).res0 = o.res0.getD s.res0 := rfl
@[simp] theorem complete_res1 : (s.complete o).res1 = o.res1.getD s.res1 := rfl
@[simp] theorem complete_res2 : (s.complete o).res2 = o.res2.getD s.res2 := rfl
@[simp] theorem complete_res3 : (s.complete o).res3 = o.res3.getD s.res3 := rfl
@[simp] theorem complete_latched : (s.complete o).latched = s.latched := rfl
@[simp] theorem complete_mem :
    (s.complete o).mem = s.mem.writeBytes s.latched.args.dst.toNat o.bytes := rfl
@[simp] theorem complete_memSize : (s.complete o).memSize = s.memSize := rfl
@[simp] theorem complete_qpopMax : (s.complete o).qpopMax = s.qpopMax := rfl
@[simp] theorem complete_regBase : (s.complete o).regBase = s.regBase := rfl
@[simp] theorem complete_agenda : (s.complete o).agenda = s.agenda := rfl
@[simp] theorem complete_reply : (s.complete o).reply = s.reply := rfl

end Complete

section ErrorComplete
variable (s : State) (c : ErrCode) (v : Word)

@[simp] theorem errorComplete_lastCmd : (s.errorComplete c v).lastCmd = s.lastCmd := rfl
@[simp] theorem errorComplete_status : (s.errorComplete c v).status = s.status.fail := rfl
@[simp] theorem errorComplete_errCode : (s.errorComplete c v).errCode = c := rfl
@[simp] theorem errorComplete_errInfo : (s.errorComplete c v).errInfo = v := rfl
@[simp] theorem errorComplete_args : (s.errorComplete c v).args = s.args := rfl
@[simp] theorem errorComplete_res0 : (s.errorComplete c v).res0 = s.res0 := rfl
@[simp] theorem errorComplete_res1 : (s.errorComplete c v).res1 = s.res1 := rfl
@[simp] theorem errorComplete_res2 : (s.errorComplete c v).res2 = s.res2 := rfl
@[simp] theorem errorComplete_res3 : (s.errorComplete c v).res3 = s.res3 := rfl
@[simp] theorem errorComplete_latched : (s.errorComplete c v).latched = s.latched := rfl
@[simp] theorem errorComplete_mem : (s.errorComplete c v).mem = s.mem := rfl
@[simp] theorem errorComplete_memSize : (s.errorComplete c v).memSize = s.memSize := rfl
@[simp] theorem errorComplete_qpopMax : (s.errorComplete c v).qpopMax = s.qpopMax := rfl
@[simp] theorem errorComplete_regBase : (s.errorComplete c v).regBase = s.regBase := rfl
@[simp] theorem errorComplete_agenda : (s.errorComplete c v).agenda = s.agenda := rfl
@[simp] theorem errorComplete_reply : (s.errorComplete c v).reply = s.reply := rfl

end ErrorComplete

section PlatformReset
variable (s : State)

@[simp] theorem platformReset_lastCmd : s.platformReset.lastCmd = 0 := rfl
@[simp] theorem platformReset_status : s.platformReset.status = {} := rfl
@[simp] theorem platformReset_errCode : s.platformReset.errCode = .none := rfl
@[simp] theorem platformReset_errInfo : s.platformReset.errInfo = 0 := rfl
@[simp] theorem platformReset_args : s.platformReset.args = {} := rfl
@[simp] theorem platformReset_res0 : s.platformReset.res0 = 0 := rfl
@[simp] theorem platformReset_res1 : s.platformReset.res1 = 0 := rfl
@[simp] theorem platformReset_res2 : s.platformReset.res2 = 0 := rfl
@[simp] theorem platformReset_res3 : s.platformReset.res3 = 0 := rfl
@[simp] theorem platformReset_latched : s.platformReset.latched = {} := rfl
@[simp] theorem platformReset_mem : s.platformReset.mem = s.mem := rfl
@[simp] theorem platformReset_memSize : s.platformReset.memSize = s.memSize := rfl
@[simp] theorem platformReset_qpopMax : s.platformReset.qpopMax = s.qpopMax := rfl
@[simp] theorem platformReset_regBase : s.platformReset.regBase = s.regBase := rfl
@[simp] theorem platformReset_agenda : s.platformReset.agenda = s.agenda := rfl
@[simp] theorem platformReset_reply : s.platformReset.reply = s.reply := rfl

end PlatformReset

section Flags
variable (st : Status) (d : Diag) (v : Word)

@[simp] theorem status_issue_busy : st.issue.busy = true := rfl
@[simp] theorem status_issue_done : st.issue.done = false := rfl
@[simp] theorem status_issue_err : st.issue.err = false := rfl
@[simp] theorem status_issue_palshort : st.issue.palshort = false := rfl
@[simp] theorem status_issue_palabsent : st.issue.palabsent = false := rfl
@[simp] theorem status_issue_rangeshort : st.issue.rangeshort = false := rfl
@[simp] theorem status_issue_wbusy : st.issue.wbusy = st.wbusy := rfl

@[simp] theorem status_complete_busy : (st.complete d).busy = false := rfl
@[simp] theorem status_complete_done : (st.complete d).done = true := rfl
@[simp] theorem status_complete_err : (st.complete d).err = st.err := rfl
@[simp] theorem status_complete_palshort :
    (st.complete d).palshort = (st.palshort || d.palshort) := rfl
@[simp] theorem status_complete_palabsent :
    (st.complete d).palabsent = (st.palabsent || d.palabsent) := rfl
@[simp] theorem status_complete_rangeshort :
    (st.complete d).rangeshort = (st.rangeshort || d.rangeshort) := rfl
@[simp] theorem status_complete_wbusy : (st.complete d).wbusy = st.wbusy := rfl

@[simp] theorem status_fail_busy : st.fail.busy = false := rfl
@[simp] theorem status_fail_done : st.fail.done = true := rfl
@[simp] theorem status_fail_err : st.fail.err = true := rfl
@[simp] theorem status_fail_palshort : st.fail.palshort = st.palshort := rfl
@[simp] theorem status_fail_palabsent : st.fail.palabsent = st.palabsent := rfl
@[simp] theorem status_fail_rangeshort : st.fail.rangeshort = st.rangeshort := rfl
@[simp] theorem status_fail_wbusy : st.fail.wbusy = st.wbusy := rfl

@[simp] theorem status_clear_busy : (st.clear v).busy = st.busy := rfl
@[simp] theorem status_clear_done : (st.clear v).done = (st.done && !v.getLsbD 1) := rfl
@[simp] theorem status_clear_err : (st.clear v).err = (st.err && !v.getLsbD 2) := rfl
@[simp] theorem status_clear_palshort :
    (st.clear v).palshort = (st.palshort && !v.getLsbD 3) := rfl
@[simp] theorem status_clear_palabsent :
    (st.clear v).palabsent = (st.palabsent && !v.getLsbD 4) := rfl
@[simp] theorem status_clear_rangeshort :
    (st.clear v).rangeshort = (st.rangeshort && !v.getLsbD 5) := rfl
@[simp] theorem status_clear_wbusy : (st.clear v).wbusy = (st.wbusy && !v.getLsbD 6) := rfl

@[simp] theorem status_dropped_wbusy : st.dropped.wbusy = true := rfl
@[simp] theorem status_dropped_busy : st.dropped.busy = st.busy := rfl

end Flags

end Sys2Proof.Machine
end

