-- ==== Sys2Proof/Laws/Memory.lean ====
section
/-! SUPPORT. The laws of data memory: what a byte reads as after a write, and that every operation keeps
the canonical form and the bound. -/

namespace Sys2Proof.Machine

@[simp] theorem read_nil (a : Nat) : Memory.read [] a = unlistedByte := rfl

theorem read_cons (k : Nat) (b : Byte) (m : Memory) (a : Nat) :
    Memory.read ((k, b) :: m) a = if k = a then b else Memory.read m a := rfl

/-- A byte taken out of the list reads as an unlisted one, every other byte as before. -/
theorem read_filter_ne (m : Memory) (a x : Nat) :
    Memory.read (m.filter fun c => c.1 ≠ a) x = if x = a then unlistedByte else m.read x := by
  induction m with
  | nil => simp
  | cons c m ih =>
    obtain ⟨k, b⟩ := c
    by_cases hk : k = a
    · subst hk
      by_cases hx : x = k
      · subst hx; simpa using ih
      · simp only [ne_eq, not_true_eq_false, decide_false, Bool.false_eq_true, not_false_eq_true,
          List.filter_cons_of_neg, hx, if_false] at ih ⊢
        rw [ih, read_cons, if_neg (fun h => hx h.symm)]
    · rw [List.filter_cons_of_pos (by simpa using hk), read_cons, read_cons, ih]
      by_cases hx : x = a
      · subst hx; simp [hk]
      · simp [hx]

/-- An inserted byte reads back where the list did not hold its address; every other byte as before. -/
theorem read_insert (m : Memory) (a : Nat) (b : Byte) (x : Nat) (hm : ∀ c ∈ m, c.1 ≠ a) :
    Memory.read (Memory.insert m a b) x = if x = a then b else m.read x := by
  induction m with
  | nil => simp [Memory.insert, read_cons, eq_comm]
  | cons c m ih =>
    obtain ⟨k, e⟩ := c
    have hk : k ≠ a := hm (k, e) (by simp)
    have hm' : ∀ c ∈ m, c.1 ≠ a := fun c hc => hm c (by simp [hc])
    unfold Memory.insert
    split
    · rw [read_cons]; simp [eq_comm]
    · rw [read_cons, read_cons, ih hm']
      by_cases hx : x = a
      · subst hx; simp [hk]
      · simp [hx]

/-- A byte reads back as it was written, and a write leaves every other byte alone. -/
theorem read_write (m : Memory) (a : Nat) (b : Byte) (x : Nat) :
    (m.write a b).read x = if x = a then b else m.read x := by
  unfold Memory.write
  split
  · rename_i hb
    rw [read_filter_ne, hb]
  · rw [read_insert _ _ _ _ (by simp), read_filter_ne]
    split <;> rfl

/-- What a byte reads as after a run of bytes is written. -/
theorem read_writeBytes (m : Memory) (a : Nat) (bs : List Byte) (x : Nat) :
    (m.writeBytes a bs).read x =
      if a ≤ x ∧ x < a + bs.length then bs.getD (x - a) 0 else m.read x := by
  induction bs generalizing m a with
  | nil => simp [Memory.writeBytes]
  | cons b bs ih =>
    rw [Memory.writeBytes, ih, read_write]
    by_cases hx : x = a
    · subst hx; simp
    · by_cases h1 : a + 1 ≤ x ∧ x < a + 1 + bs.length
      · have h2 : a ≤ x ∧ x < a + (b :: bs).length := by simp; omega
        rw [if_pos h1, if_pos h2]
        obtain ⟨d, rfl⟩ := Nat.exists_eq_add_of_le h1.1
        have : a + 1 + d - a = d + 1 := by omega
        rw [this, List.getD_cons_succ]
        congr 1; omega
      · have h2 : ¬ (a ≤ x ∧ x < a + (b :: bs).length) := by simp; omega
        rw [if_neg h1, if_neg h2, if_neg hx]

/-- A run of bytes written from a on is an update of memory there, and nowhere else. -/
theorem writeBytes_update (m : Memory) (a : Nat) (bs : List Byte) :
    MemoryUpdate m (m.writeBytes a bs) a bs where
  written k h := by
    rw [read_writeBytes, if_pos ⟨by omega, by omega⟩]
    simp [h]
  kept x h := by rw [read_writeBytes, if_neg (by omega)]

@[simp] theorem readBytes_length (m : Memory) (a n : Nat) : (m.readBytes a n).length = n := by
  simp [Memory.readBytes]

@[simp] theorem readColors_length (m : Memory) (a n : Nat) : (m.readColors a n).length = n := by
  simp [Memory.readColors]

@[simp] theorem readHalves_length (m : Memory) (a n : Nat) : (m.readHalves a n).length = n := by
  simp [Memory.readHalves]

theorem readBytes_getElem (m : Memory) (a n k : Nat) (h : k < (m.readBytes a n).length) :
    (m.readBytes a n)[k] = m.read (a + k) := by
  simp [Memory.readBytes]

/-- Two memories that agree on the bytes of a range read alike there. -/
theorem readBytes_congr {m m' : Memory} {a n : Nat}
    (h : ∀ x, a ≤ x → x < a + n → m.read x = m'.read x) : m.readBytes a n = m'.readBytes a n := by
  refine List.map_congr_left fun k hk => ?_
  have := List.mem_range.1 hk
  exact h _ (by omega) (by omega)

/-- Two memories that agree on the bytes of a colour array read it alike. -/
theorem readColors_congr {m m' : Memory} {a n : Nat}
    (h : ∀ x, a ≤ x → x < a + 4 * n → m.read x = m'.read x) :
    m.readColors a n = m'.readColors a n := by
  refine List.map_congr_left fun k hk => ?_
  have := List.mem_range.1 hk
  simp only [Memory.readColor]
  rw [h _ (by omega) (by omega), h _ (by omega) (by omega), h _ (by omega) (by omega),
    h _ (by omega) (by omega)]

/-- Two memories that agree on the bytes of an array of 16-bit values read it alike. -/
theorem readHalves_congr {m m' : Memory} {a n : Nat}
    (h : ∀ x, a ≤ x → x < a + 2 * n → m.read x = m'.read x) :
    m.readHalves a n = m'.readHalves a n := by
  refine List.map_congr_left fun k hk => ?_
  have := List.mem_range.1 hk
  simp only [Memory.readHalf]
  rw [h _ (by omega) (by omega), h _ (by omega) (by omega)]

/-! ### The canonical form -/

theorem wf_cons (k : Nat) (b : Byte) (m : Memory) :
    Memory.wf ((k, b) :: m) = true ↔
      b ≠ unlistedByte ∧ (∀ c ∈ m, k < c.1) ∧ Memory.wf m = true := by
  simp [Memory.wf, and_assoc]

theorem wf_filter (m : Memory) (p : Host.Cell → Bool) (h : Memory.wf m = true) :
    Memory.wf (m.filter p) = true := by
  induction m with
  | nil => exact h
  | cons c m ih =>
    obtain ⟨k, b⟩ := c
    obtain ⟨hb, hk, hm⟩ := (wf_cons k b m).1 h
    by_cases hp : p (k, b) = true
    · rw [List.filter_cons_of_pos hp]
      exact (wf_cons _ _ _).2 ⟨hb, fun c hc => hk c (List.mem_filter.1 hc).1, ih hm⟩
    · rw [List.filter_cons_of_neg hp]; exact ih hm

theorem mem_insert (m : Memory) (a : Nat) (b : Byte) (c : Host.Cell) :
    c ∈ Memory.insert m a b ↔ c = (a, b) ∨ c ∈ m := by
  induction m with
  | nil => simp [Memory.insert]
  | cons d m ih =>
    unfold Memory.insert
    split
    · simp
    · simp only [List.mem_cons, ih]
      tauto

theorem wf_insert (m : Memory) (a : Nat) (b : Byte) (hb : b ≠ unlistedByte)
    (ha : ∀ c ∈ m, c.1 ≠ a) (h : Memory.wf m = true) :
    Memory.wf (Memory.insert m a b) = true := by
  induction m with
  | nil => exact (wf_cons _ _ _).2 ⟨hb, by simp, rfl⟩
  | cons d m ih =>
    obtain ⟨k, e⟩ := d
    obtain ⟨he, hk, hm⟩ := (wf_cons k e m).1 h
    have hka : k ≠ a := ha (k, e) (by simp)
    unfold Memory.insert
    split
    · rename_i hlt
      refine (wf_cons _ _ _).2 ⟨hb, fun c hc => ?_, h⟩
      rcases List.mem_cons.1 hc with rfl | hc
      · exact hlt
      · exact lt_trans hlt (hk c hc)
    · rename_i hlt
      refine (wf_cons _ _ _).2 ⟨he, fun c hc => ?_, ih (fun c hc => ha c (by simp [hc])) hm⟩
      rcases (mem_insert _ _ _ _).1 hc with rfl | hc
      · show k < a; omega
      · exact hk c hc

/-- A write keeps the canonical form. -/
theorem wf_write (m : Memory) (a : Nat) (b : Byte) (h : Memory.wf m = true) :
    Memory.wf (m.write a b) = true := by
  unfold Memory.write
  split
  · exact wf_filter _ _ h
  · rename_i hb
    exact wf_insert _ _ _ hb (by simp) (wf_filter _ _ h)

/-- A run of writes keeps the canonical form. -/
theorem wf_writeBytes (m : Memory) (a : Nat) (bs : List Byte) (h : Memory.wf m = true) :
    Memory.wf (m.writeBytes a bs) = true := by
  induction bs generalizing m a with
  | nil => exact h
  | cons b bs ih => exact ih _ _ (wf_write _ _ _ h)

theorem below_iff (n : Nat) (m : Memory) : m.below n = true ↔ ∀ c ∈ m, c.1 < n := by
  simp [Memory.below]

/-- A write below the bound keeps the bound. -/
theorem below_write (n : Nat) (m : Memory) (a : Nat) (b : Byte) (ha : a < n)
    (h : m.below n = true) : (m.write a b).below n = true := by
  rw [below_iff] at h ⊢
  intro c hc
  unfold Memory.write at hc
  split at hc
  · exact h c (List.mem_filter.1 hc).1
  · rcases (mem_insert _ _ _ _).1 hc with rfl | hc
    · exact ha
    · exact h c (List.mem_filter.1 hc).1

/-- A run of writes below the bound keeps the bound. -/
theorem below_writeBytes (n : Nat) (m : Memory) (a : Nat) (bs : List Byte)
    (ha : bs = [] ∨ a + bs.length ≤ n) (h : m.below n = true) :
    (m.writeBytes a bs).below n = true := by
  induction bs generalizing m a with
  | nil => exact h
  | cons b bs ih =>
    have : a + (bs.length + 1) ≤ n := by simpa using ha
    refine ih _ _ ?_ (below_write _ _ _ _ (by omega) h)
    right; omega

/-- Canonical memories that read alike are equal. -/
theorem wf_ext {m m' : Memory} (h : Memory.wf m = true) (h' : Memory.wf m' = true)
    (hr : ∀ a, m.read a = m'.read a) : m = m' := by
  have low : ∀ (m : Memory) (k : Nat), (∀ c ∈ m, k < c.1) → m.read k = unlistedByte := by
    intro m k hk
    induction m with
    | nil => rfl
    | cons c m ih =>
      obtain ⟨j, b⟩ := c
      have : k < j := hk (j, b) (by simp)
      rw [read_cons, if_neg (by omega)]
      exact ih fun c hc => hk c (by simp [hc])
  induction m generalizing m' with
  | nil =>
    cases m' with
    | nil => rfl
    | cons c m' =>
      obtain ⟨k, b⟩ := c
      exact absurd (by simpa [read_cons] using (hr k).symm) ((wf_cons _ _ _).1 h').1
  | cons c m ih =>
    obtain ⟨k, b⟩ := c
    obtain ⟨hb, hk, hm⟩ := (wf_cons k b m).1 h
    cases m' with
    | nil => exact absurd (by simpa [read_cons] using hr k) hb
    | cons c' m' =>
      obtain ⟨k', b'⟩ := c'
      obtain ⟨hb', hk', hm'⟩ := (wf_cons k' b' m').1 h'
      have hkk : k = k' := by
        rcases lt_trichotomy k k' with hlt | heq | hgt
        · have := hr k
          rw [read_cons, if_pos rfl, read_cons, if_neg (by omega),
            low m' k (fun c hc => lt_trans hlt (hk' c hc))] at this
          exact absurd this hb
        · exact heq
        · have := hr k'
          rw [read_cons, if_neg (by omega), read_cons, if_pos rfl,
            low m k' (fun c hc => lt_trans hgt (hk c hc))] at this
          exact absurd this.symm hb'
      subst hkk
      have hbb : b = b' := by simpa [read_cons] using hr k
      subst hbb
      congr 1
      refine ih hm hm' fun a => ?_
      by_cases ha : k = a
      · subst ha; rw [low m k hk, low m' k hk']
      · simpa [read_cons, ha] using hr a

end Sys2Proof.Machine
end

