-- ==== Sys2Proof/Laws/Ops.lean ====
section
/-! SUPPORT. One lemma for each shared operation of the meanings: everything that it can do. -/

namespace Sys2Proof.Machine

/-! ### The checks -/

theorem erred_eq (s : State) (c : ErrCode) (v : Word) : s.erred c v = s.errorComplete c v := rfl

theorem unless_neg {s : State} {bad : Bool} {c : ErrCode} {v : Word} {k : State}
    (h : bad = false) : s.unless bad c v k = k := by simp [State.unless, h]

theorem unless_pos {s : State} {bad : Bool} {c : ErrCode} {v : Word} {k : State}
    (h : bad = true) : s.unless bad c v k = s.errorComplete c v := by simp [State.unless, h]

/-- A check either ends the command with its error or goes on. -/
theorem unless_cases (s : State) (bad : Bool) (c : ErrCode) (v : Word) (k : State) :
    (bad = true ∧ s.unless bad c v k = s.errorComplete c v) ∨
      (bad = false ∧ s.unless bad c v k = k) := by
  cases bad <;> simp [State.unless]

theorem withFormat_some {s : State} {fmt : BitVec 4} {f : PixelFormat} {k : PixelFormat → State}
    (h : PixelFormat.ofCode fmt = some f) : s.withFormat fmt k = k f := by
  simp [State.withFormat, h]

theorem withFormat_none {s : State} {fmt : BitVec 4} {k : PixelFormat → State}
    (h : PixelFormat.ofCode fmt = none) :
    s.withFormat fmt k = s.errorComplete .format (fmt.setWidth 32) := by
  simp [State.withFormat, h]

/-- The format check ends the command with E_FORMAT(FMT) or goes on with the format FMT names. -/
theorem withFormat_cases (s : State) (fmt : BitVec 4) (k : PixelFormat → State) :
    (PixelFormat.ofCode fmt = none ∧
        s.withFormat fmt k = s.errorComplete .format (fmt.setWidth 32)) ∨
      ∃ f, PixelFormat.ofCode fmt = some f ∧ s.withFormat fmt k = k f := by
  cases h : PixelFormat.ofCode fmt with
  | none => exact .inl ⟨rfl, withFormat_none h⟩
  | some f => exact .inr ⟨f, rfl, withFormat_some h⟩

theorem withPaletteFormat_some {s : State} {pfmt : BitVec 2} {p : PaletteFormat}
    {k : PaletteFormat → State} (h : PaletteFormat.ofCode pfmt = some p) :
    s.withPaletteFormat pfmt k = k p := by
  simp [State.withPaletteFormat, h]

theorem withPaletteFormat_none {s : State} {pfmt : BitVec 2} {k : PaletteFormat → State}
    (h : PaletteFormat.ofCode pfmt = none) :
    s.withPaletteFormat pfmt k = s.errorComplete .format (pfmt.setWidth 32) := by
  simp [State.withPaletteFormat, h]

/-- The palette format check ends the command with E_FORMAT(PFMT) or goes on. -/
theorem withPaletteFormat_cases (s : State) (pfmt : BitVec 2) (k : PaletteFormat → State) :
    (PaletteFormat.ofCode pfmt = none ∧
        s.withPaletteFormat pfmt k = s.errorComplete .format (pfmt.setWidth 32)) ∨
      ∃ p, PaletteFormat.ofCode pfmt = some p ∧ s.withPaletteFormat pfmt k = k p := by
  cases h : PaletteFormat.ofCode pfmt with
  | none => exact .inl ⟨rfl, withPaletteFormat_none h⟩
  | some p => exact .inr ⟨p, rfl, withPaletteFormat_some h⟩

theorem withPaletteSize_some {s : State} {qsel : BitVec 2} {m : PaletteSize}
    {k : PaletteSize → State} (h : PaletteSize.ofCode qsel = some m) :
    s.withPaletteSize qsel k = k m := by
  simp [State.withPaletteSize, h]

theorem withPaletteSize_none {s : State} {qsel : BitVec 2} {k : PaletteSize → State}
    (h : PaletteSize.ofCode qsel = none) :
    s.withPaletteSize qsel k = s.errorComplete .format (qsel.setWidth 32) := by
  simp [State.withPaletteSize, h]

/-- The palette size check ends the command with E_FORMAT(QSEL) or goes on. -/
theorem withPaletteSize_cases (s : State) (qsel : BitVec 2) (k : PaletteSize → State) :
    (PaletteSize.ofCode qsel = none ∧
        s.withPaletteSize qsel k = s.errorComplete .format (qsel.setWidth 32)) ∨
      ∃ m, PaletteSize.ofCode qsel = some m ∧ s.withPaletteSize qsel k = k m := by
  cases h : PaletteSize.ofCode qsel with
  | none => exact .inl ⟨rfl, withPaletteSize_none h⟩
  | some m => exact .inr ⟨m, rfl, withPaletteSize_some h⟩

/-- The class check ends the command with E_ARGUMENT(FMT) or goes on with a format of the class. -/
theorem needIndexed_cases (s : State) (f : PixelFormat) (want : Bool) (k : State) :
    (f.indexed ≠ want ∧
        s.needIndexed f want k = s.errorComplete .argument (f.code.setWidth 32)) ∨
      (f.indexed = want ∧ s.needIndexed f want k = k) := by
  by_cases h : f.indexed = want <;> simp [State.needIndexed, State.unless, h]

/-- The palette length check ends the command with E_ARGUMENT(PALLEN) or goes on. -/
theorem needPalette_cases (s : State) (k : State) :
    (16384 < s.latched.args.pallen.toNat ∧
        s.needPalette k = s.errorComplete .argument s.latched.args.pallenWord) ∨
      (s.latched.args.pallen.toNat ≤ 16384 ∧ s.needPalette k = k) := by
  by_cases h : 16384 < s.latched.args.pallen.toNat
  · exact .inl ⟨h, by simp [State.needPalette, State.unless, maxPalette, h]⟩
  · exact .inr ⟨by omega, by simp [State.needPalette, State.unless, maxPalette, h]⟩

/-- The dimension check ends the command with E_DIM(DIM) or goes on with W and H not 0. -/
theorem needDim_cases (s : State) (k : State) :
    ((s.latched.args.width = 0 ∨ s.latched.args.height = 0) ∧
        s.needDim k = s.errorComplete .dim s.latched.args.dim) ∨
      (0 < s.latched.args.width ∧ 0 < s.latched.args.height ∧ s.needDim k = k) := by
  by_cases h : s.latched.args.width = 0 ∨ s.latched.args.height = 0
  · exact .inl ⟨h, by rcases h with h | h <;> simp [State.needDim, State.unless, h]⟩
  · exact .inr ⟨by omega, by omega, by simp_all [State.needDim, State.unless]⟩

/-- The length check ends the command with E_LENGTH(LEN) or goes on. -/
theorem needLength_cases (s : State) (bad : Bool) (k : State) :
    (bad = true ∧ s.needLength bad k = s.errorComplete .length s.latched.args.len) ∨
      (bad = false ∧ s.needLength bad k = k) := unless_cases _ _ _ _ _

/-! ### The footprint check -/

theorem inMemory_iff (n : Nat) (r : Range) :
    r.inMemory n = true ↔ r.len = 0 ∨ r.start.toNat + r.len ≤ n := by
  simp [Range.inMemory]

theorem holds_iff (r : Range) (a : Nat) :
    r.holds a = true ↔ r.start.toNat ≤ a ∧ a < r.start.toNat + r.len := by
  simp [Range.holds]

/-- Two ranges meet exactly when some byte lies in both. -/
theorem meets_iff (r t : Range) :
    r.meets t = true ↔ ∃ a, r.holds a = true ∧ t.holds a = true := by
  simp only [Range.meets, decide_eq_true_eq, holds_iff]
  constructor
  · intro h
    exact ⟨max r.start.toNat t.start.toNat, ⟨⟨by omega, by omega⟩, by omega, by omega⟩⟩
  · rintro ⟨a, ⟨h1, h2⟩, h3, h4⟩
    omega

/-- Every range of the footprint is in range exactly when the check finds none outside. -/
theorem reaches_iff (s : State) (i : Instr) :
    s.reaches i ↔ (footprint i s.latched.args).firstOutside s.memSize = none := by
  simp only [State.reaches, Footprint.firstOutside, List.find?_eq_none, Bool.not_eq_true',
    Bool.not_eq_false, inMemory_iff]

theorem access_of_reaches {s : State} {i : Instr} {k : State} (h : s.reaches i) :
    s.access i k = k := by
  simp [State.access, (reaches_iff s i).1 h]

/-- The footprint check goes on where the footprint is in range, or ends with E_ADDRESS. -/
theorem access_cases (s : State) (i : Instr) (k : State) :
    (s.reaches i ∧ s.access i k = k) ∨
      ∃ r, (footprint i s.latched.args).firstOutside s.memSize = some r ∧
        s.access i k = s.errorComplete .address r.start := by
  cases h : (footprint i s.latched.args).firstOutside s.memSize with
  | none => exact .inl ⟨(reaches_iff s i).2 h, by simp [State.access, h]⟩
  | some r => exact .inr ⟨r, rfl, by simp [State.access, h]⟩

@[simp] theorem lengthFrom_some {α : Type} (f : α) (k : α → Range) : lengthFrom (some f) k = [k f] := rfl

@[simp] theorem lengthFrom_none {α : Type} (k : α → Range) : lengthFrom none k = [] := rfl

/-! ### Completion -/

/-- What a completion leaves, in the terms of the claims. -/
theorem complete_completion (s : State) (o : Outputs) :
    Completion s (s.complete o) o.diag o.bytes (o.res0.getD s.res0) (o.res1.getD s.res1)
      (o.res2.getD s.res2) (o.res3.getD s.res3) where
  frame := ⟨rfl, rfl, rfl, rfl, rfl, rfl, rfl, rfl, rfl⟩
  busy := rfl
  done := rfl
  err := rfl
  errCode := rfl
  errInfo := rfl
  palshort := rfl
  palabsent := rfl
  rangeshort := rfl
  res0 := rfl
  res1 := rfl
  res2 := rfl
  res3 := rfl
  mem := writeBytes_update _ _ _

/-- A completion, with its bytes, results and diagnostics named. -/
theorem completion_of {s : State} {o : Outputs} {d : Diag} {out : List Byte} {r0 r1 r2 r3 : Word}
    (hd : o.diag = d) (hb : o.bytes = out) (h0 : o.res0.getD s.res0 = r0)
    (h1 : o.res1.getD s.res1 = r1) (h2 : o.res2.getD s.res2 = r2) (h3 : o.res3.getD s.res3 = r3) :
    Completion s (s.complete o) d out r0 r1 r2 r3 := by
  subst hd hb h0 h1 h2 h3
  exact complete_completion s o

end Sys2Proof.Machine
end

