-- ==== Sys2Proof/Laws/Exec.lean ====
section
/-! SUPPORT. What the engine step of a command can do, said once for every command: it ends with an
error and its five writes, or it completes with a footprint in range. -/

namespace Sys2Proof.Machine

/-- The end of an engine step of command i from s: an error, or a completion with a footprint in range.
The completion raises at most one diagnostic. -/
def EndsWell (i : Instr) (s t : State) : Prop :=
  (∃ c v, c ≠ ErrCode.none ∧ t = s.errorComplete c v) ∨
    ∃ o : Outputs, s.reaches i ∧
      (o.diag.palshort && o.diag.palabsent || o.diag.palshort && o.diag.rangeshort ||
        o.diag.palabsent && o.diag.rangeshort) = false ∧ t = s.complete o

theorem endsWell_error (i : Instr) (s : State) (c : ErrCode) (v : Word) (hc : c ≠ .none) :
    EndsWell i s (s.errorComplete c v) := .inl ⟨c, v, hc, rfl⟩

theorem endsWell_unless {i : Instr} {s k : State} {bad : Bool} {c : ErrCode} {v : Word}
    (hc : c ≠ .none) (h : EndsWell i s k) : EndsWell i s (s.unless bad c v k) := by
  rcases unless_cases s bad c v k with ⟨-, e⟩ | ⟨-, e⟩ <;> rw [e]
  · exact endsWell_error _ _ _ _ hc
  · exact h

theorem endsWell_withFormat {i : Instr} {s : State} {fmt : BitVec 4} {k : PixelFormat → State}
    (h : ∀ f, PixelFormat.ofCode fmt = some f → EndsWell i s (k f)) :
    EndsWell i s (s.withFormat fmt k) := by
  rcases withFormat_cases s fmt k with ⟨-, e⟩ | ⟨f, hf, e⟩ <;> rw [e]
  · exact endsWell_error _ _ _ _ (by decide)
  · exact h f hf

theorem endsWell_withPaletteFormat {i : Instr} {s : State} {pfmt : BitVec 2}
    {k : PaletteFormat → State} (h : ∀ p, EndsWell i s (k p)) :
    EndsWell i s (s.withPaletteFormat pfmt k) := by
  rcases withPaletteFormat_cases s pfmt k with ⟨-, e⟩ | ⟨p, -, e⟩ <;> rw [e]
  · exact endsWell_error _ _ _ _ (by decide)
  · exact h p

theorem endsWell_withPaletteSize {i : Instr} {s : State} {qsel : BitVec 2}
    {k : PaletteSize → State} (h : ∀ m, EndsWell i s (k m)) :
    EndsWell i s (s.withPaletteSize qsel k) := by
  rcases withPaletteSize_cases s qsel k with ⟨-, e⟩ | ⟨m, -, e⟩ <;> rw [e]
  · exact endsWell_error _ _ _ _ (by decide)
  · exact h m

theorem endsWell_access {i : Instr} {s k : State} (h : s.reaches i → EndsWell i s k) :
    EndsWell i s (s.access i k) := by
  rcases access_cases s i k with ⟨hr, e⟩ | ⟨r, -, e⟩ <;> rw [e]
  · exact h hr
  · exact endsWell_error _ _ _ _ (by decide)

theorem endsWell_complete {i : Instr} {s : State} {o : Outputs} (h : s.reaches i)
    (hd : (o.diag.palshort && o.diag.palabsent || o.diag.palshort && o.diag.rangeshort ||
      o.diag.palabsent && o.diag.rangeshort) = false) :
    EndsWell i s (s.complete o) := .inr ⟨o, h, hd, rfl⟩

theorem reaches_of_empty {i : Instr} {s : State} (h : footprint i s.latched.args = {}) :
    s.reaches i := by
  simp [State.reaches, h]

/-- Every command's engine step answers a next state, and that state ends it well. -/
theorem exec_endsWell (i : Instr) (s : State) : ∃ t, exec i s = .next t ∧ EndsWell i s t := by
  cases i <;> refine ⟨_, rfl, ?_⟩
  case nop => exact endsWell_complete (reaches_of_empty rfl) rfl
  case desc fmt =>
    exact endsWell_withFormat fun f _ => endsWell_complete (reaches_of_empty rfl) rfl
  case palmax fmt =>
    exact endsWell_withFormat fun f _ => endsWell_unless (by decide) <|
      endsWell_complete (reaches_of_empty rfl) rfl
  case dsize fmt lvl =>
    exact endsWell_withFormat fun f _ => endsWell_unless (by decide) <|
      endsWell_complete (reaches_of_empty rfl) rfl
  case tsize fmt lvl =>
    exact endsWell_withFormat fun f _ => endsWell_unless (by decide) <|
      endsWell_complete (reaches_of_empty rfl) rfl
  case mipcnt fmt =>
    exact endsWell_withFormat fun f _ => endsWell_unless (by decide) <|
      endsWell_unless (by decide) <| endsWell_complete (reaches_of_empty rfl) rfl
  case decb fmt pfmt pp =>
    refine endsWell_withFormat fun f _ => ?_
    split
    · exact endsWell_withPaletteFormat fun p => endsWell_unless (by decide) <|
        endsWell_access fun h => endsWell_complete h (by simp [decbIndexedOutputs])
    · exact endsWell_access fun h => endsWell_complete h (by simp [decbOutputs])
  case deci fmt =>
    exact endsWell_withFormat fun f _ => endsWell_unless (by decide) <|
      endsWell_access fun h => endsWell_complete h rfl
  case encb fmt =>
    exact endsWell_withFormat fun f _ => endsWell_unless (by decide) <|
      endsWell_access fun h => endsWell_complete h rfl
  case enci fmt =>
    refine endsWell_withFormat fun f _ => endsWell_unless (by decide) <|
      endsWell_access fun h => ?_
    dsimp only
    split
    · exact endsWell_error _ _ _ _ (by decide)
    · exact endsWell_complete h rfl
  case qavg =>
    exact endsWell_unless (by decide) <| endsWell_access fun h => endsWell_complete h rfl
  case qnear =>
    exact endsWell_unless (by decide) <| endsWell_unless (by decide) <|
      endsWell_access fun h => endsWell_complete h rfl
  case qpal f qsel =>
    exact endsWell_withPaletteSize fun m => endsWell_unless (by decide) <|
      endsWell_access fun h => endsWell_complete h rfl
  case xswp =>
    exact endsWell_unless (by decide) <| endsWell_access fun h => endsWell_complete h rfl
  case xreo | xred | x2c | c2x =>
    exact endsWell_unless (by decide) <| endsWell_unless (by decide) <|
      endsWell_access fun h => endsWell_complete h rfl
  case pdec pfmt | penc pfmt =>
    exact endsWell_withPaletteFormat fun p => endsWell_access fun h => endsWell_complete h rfl
  case prange fmt pp =>
    exact endsWell_withFormat fun f _ => endsWell_unless (by decide) <|
      endsWell_unless (by decide) <| endsWell_unless (by decide) <|
      endsWell_access fun h => endsWell_complete h (by cases pp <;> simp [prangeOutputs])
  case cdec4 | ckey | cpal | cidx | cenc4 | qdist =>
    exact endsWell_access fun h => endsWell_complete h rfl

/-- If a command answers a next state, that state ends its step well. -/
theorem exec_next {i : Instr} {s t : State} (h : exec i s = .next t) : EndsWell i s t := by
  obtain ⟨t', ht', he⟩ := exec_endsWell i s
  rw [ht'] at h
  cases h
  exact he

/-- What the engine step of a word that is no command leaves. -/
theorem rejectWord_cases (s : State) (e : DecodeError) :
    ∃ c v, c ≠ ErrCode.none ∧ s.rejectWord e = s.errorComplete c v := by
  cases e with
  | opcode op => exact ⟨_, _, by decide, rfl⟩
  | reserved bits => exact ⟨_, _, by decide, rfl⟩

end Sys2Proof.Machine
end

