-- ==== Sys2Proof/Laws/Lengths.lean ====
section
/-! SUPPORT. How long the byte list is that each layout and transform leaves, one lemma for each. -/

namespace Sys2Proof.Machine

@[simp] theorem halfBytes_length (v : Half) : (halfBytes v).length = 2 := rfl
@[simp] theorem wordBytes_length (v : Word) : (wordBytes v).length = 4 := rfl

/-- A list of pieces of one length. -/
theorem length_flatMap_const {α β : Type} (f : α → List β) (n : Nat) (l : List α)
    (h : ∀ x ∈ l, (f x).length = n) : (l.flatMap f).length = n * l.length := by
  induction l with
  | nil => simp
  | cons x l ih =>
    rw [List.flatMap_cons, List.length_append, h x (by simp),
      ih fun y hy => h y (List.mem_cons_of_mem _ hy), List.length_cons]
    ring

@[simp] theorem colorBytes_length (cs : List Color) : (colorBytes cs).length = 4 * cs.length :=
  length_flatMap_const _ 4 _ fun _ _ => rfl

@[simp] theorem indexBytes_length (vs : List Half) : (indexBytes vs).length = 2 * vs.length :=
  length_flatMap_const _ 2 _ fun _ _ => rfl

@[simp] theorem packNibbles_length (vs : List (BitVec 4)) :
    (packNibbles vs).length = vs.length / 2 := by simp [packNibbles]

@[simp] theorem decodeBlock_length (f : PixelFormat) (b : List Byte) :
    (decodeBlock f b).length = f.npix := by simp [decodeBlock]

@[simp] theorem decodeIndices_length (f : PixelFormat) (b : List Byte) :
    (decodeIndices f b).length = f.npix := by simp [decodeIndices]

/-- The encoding of a block of a direct format other than CMPR fills the block. -/
theorem encodeBlock_length (f : PixelFormat) (ps : List Color) (hi : f.indexed = false)
    (hc : f ≠ .cmpr) (h : ps.length = f.npix) : (encodeBlock f ps).length = f.blockBytes := by
  have two : ∀ (g : Color → List Byte), (∀ p, (g p).length = 2) →
      (ps.flatMap g).length = 2 * ps.length :=
    fun g hg => length_flatMap_const g 2 ps fun p _ => hg p
  cases f <;> simp_all [encodeBlock, PixelFormat.indexed, PixelFormat.npix, PixelFormat.bw,
    PixelFormat.bh, PixelFormat.blockBytes]

/-- The packing of the indices of a block fills the block. -/
theorem encodeIndexBlock_length (f : PixelFormat) (is : List Half) (hi : f.indexed = true)
    (h : is.length = f.npix) : (encodeIndexBlock f is).length = 32 := by
  have two : ∀ (g : Half → List Byte), (∀ p, (g p).length = 2) →
      (is.flatMap g).length = 2 * is.length :=
    fun g hg => length_flatMap_const g 2 is fun p _ => hg p
  cases f <;> simp_all [encodeIndexBlock, PixelFormat.indexed, PixelFormat.npix, PixelFormat.bw,
    PixelFormat.bh]

@[simp] theorem localPalette_length (p q : Color) (four : Bool) :
    (localPalette p q four).length = 4 := by cases four <;> rfl

@[simp] theorem decPalette_length (r0 r1 : Half) : (decPalette r0 r1).length = 4 :=
  localPalette_length _ _ _

@[simp] theorem decodeSub_length (b : List Byte) : (decodeSub b).length = 16 := by simp [decodeSub]

@[simp] theorem encodeSub_length (ps : List Color) (inb : Nat → Bool) :
    (encodeSub ps inb).length = 8 := rfl

@[simp] theorem encodeCmpr_length (ps : List Color) (x : Args) : (encodeCmpr ps x).length = 32 := rfl

@[simp] theorem swapWord_length (w : List Byte) : (swapWord w).length = 8 := rfl

/-- A whole word of a buffer has eight bytes. -/
theorem dxtWord_length (b : List Byte) (n : Nat) (h : 8 * n + 8 ≤ b.length) :
    (dxtWord b n).length = 8 := by
  simp only [dxtWord, List.length_take, List.length_drop]
  omega

/-- Swapping the words of a buffer of whole words keeps its length. -/
theorem swapWords_length (b : List Byte) (h : b.length % 8 = 0) :
    (swapWords b).length = b.length := by
  rw [swapWords, length_flatMap_const _ 8 _ fun _ _ => swapWord_length _, List.length_range]
  omega

end Sys2Proof.Machine
end

