-- ==== Sys2Proof/Laws/PerInstr.lean ====
section
/-! SUPPORT. The family `MatchesRow`: the command word of every command is one that its row of the opcode
map accepts. One lemma for each constructor of `Instr`. -/

namespace Sys2Proof.Laws.MatchesRow

/-- The OP field of the command's word is that of a row of the opcode map, and no bit that the row fixes
at 0 is 1 (spec/30_encoding.md R48). -/
def Statement (i : Instr) : Prop :=
  ∃ row ∈ opcodeMap, row.op = opField (encode i) ∧ offendingBits row.mask (encode i) = 0

theorem nop : Statement .nop := ⟨opcodeMap[0], List.getElem_mem _, by decide⟩

theorem desc (fmt : BitVec 4) : Statement (.desc fmt) :=
  ⟨opcodeMap[1], List.getElem_mem _, by revert fmt; decide⟩

theorem palmax (fmt : BitVec 4) : Statement (.palmax fmt) :=
  ⟨opcodeMap[2], List.getElem_mem _, by revert fmt; decide⟩

theorem dsize (fmt : BitVec 4) (lvl : BitVec 5) : Statement (.dsize fmt lvl) :=
  ⟨opcodeMap[3], List.getElem_mem _, by revert fmt lvl; decide⟩

theorem tsize (fmt : BitVec 4) (lvl : BitVec 5) : Statement (.tsize fmt lvl) :=
  ⟨opcodeMap[4], List.getElem_mem _, by revert fmt lvl; decide⟩

theorem mipcnt (fmt : BitVec 4) : Statement (.mipcnt fmt) :=
  ⟨opcodeMap[5], List.getElem_mem _, by revert fmt; decide⟩

theorem decb (fmt : BitVec 4) (pfmt : BitVec 2) (pp : Bool) : Statement (.decb fmt pfmt pp) :=
  ⟨opcodeMap[6], List.getElem_mem _, by revert fmt pfmt pp; decide⟩

theorem deci (fmt : BitVec 4) : Statement (.deci fmt) :=
  ⟨opcodeMap[7], List.getElem_mem _, by revert fmt; decide⟩

theorem encb (fmt : BitVec 4) : Statement (.encb fmt) :=
  ⟨opcodeMap[8], List.getElem_mem _, by revert fmt; decide⟩

theorem enci (fmt : BitVec 4) : Statement (.enci fmt) :=
  ⟨opcodeMap[9], List.getElem_mem _, by revert fmt; decide⟩

theorem cdec4 : Statement .cdec4 := ⟨opcodeMap[10], List.getElem_mem _, by decide⟩

theorem ckey : Statement .ckey := ⟨opcodeMap[11], List.getElem_mem _, by decide⟩

theorem cpal (f : Bool) : Statement (.cpal f) :=
  ⟨opcodeMap[12], List.getElem_mem _, by revert f; decide⟩

theorem cidx : Statement .cidx := ⟨opcodeMap[13], List.getElem_mem _, by decide⟩

theorem cenc4 : Statement .cenc4 := ⟨opcodeMap[14], List.getElem_mem _, by decide⟩

theorem qdist : Statement .qdist := ⟨opcodeMap[15], List.getElem_mem _, by decide⟩

theorem qavg : Statement .qavg := ⟨opcodeMap[16], List.getElem_mem _, by decide⟩

theorem qnear : Statement .qnear := ⟨opcodeMap[17], List.getElem_mem _, by decide⟩

theorem qpal (f : Bool) (qsel : BitVec 2) : Statement (.qpal f qsel) :=
  ⟨opcodeMap[18], List.getElem_mem _, by revert f qsel; decide⟩

theorem xswp : Statement .xswp := ⟨opcodeMap[19], List.getElem_mem _, by decide⟩

theorem xreo : Statement .xreo := ⟨opcodeMap[20], List.getElem_mem _, by decide⟩

theorem xred : Statement .xred := ⟨opcodeMap[21], List.getElem_mem _, by decide⟩

theorem x2c : Statement .x2c := ⟨opcodeMap[22], List.getElem_mem _, by decide⟩

theorem c2x : Statement .c2x := ⟨opcodeMap[23], List.getElem_mem _, by decide⟩

theorem pdec (pfmt : BitVec 2) : Statement (.pdec pfmt) :=
  ⟨opcodeMap[24], List.getElem_mem _, by revert pfmt; decide⟩

theorem penc (pfmt : BitVec 2) : Statement (.penc pfmt) :=
  ⟨opcodeMap[25], List.getElem_mem _, by revert pfmt; decide⟩

theorem prange (fmt : BitVec 4) (pp : Bool) : Statement (.prange fmt pp) :=
  ⟨opcodeMap[26], List.getElem_mem _, by revert fmt pp; decide⟩

end Sys2Proof.Laws.MatchesRow
end

