-- ==== Sys2Proof/Laws/Step.lean ====
section
/-! SUPPORT. What the steps of the host and of the whole machine can do, one lemma for each operation. -/

namespace Sys2Proof.Machine

/-- A host memory read faults beyond MEM_SIZE, faults in a race, or leaves the bytes in the reply. -/
theorem hostMemRead_cases (s : State) (addr : Word) (n : Nat) :
    (¬ (n = 0 ∨ addr.toNat + n ≤ s.memSize) ∧ s.hostMemRead addr n = .fault .badMem) ∨
    (s.readRaces ⟨addr, n⟩ = true ∧ s.hostMemRead addr n = .fault .hazRace) ∨
    ((n = 0 ∨ addr.toNat + n ≤ s.memSize) ∧ s.readRaces ⟨addr, n⟩ = false ∧
      s.hostMemRead addr n = .next { s with reply := .bytes (s.mem.readBytes addr.toNat n) }) := by
  by_cases h : Range.inMemory s.memSize ⟨addr, n⟩ = true
  · have h' := (inMemory_iff _ _).1 h
    cases hr : s.readRaces ⟨addr, n⟩ with
    | true => exact .inr (.inl ⟨rfl, by simp [State.hostMemRead, h, hr]⟩)
    | false => exact .inr (.inr ⟨h', rfl, by simp [State.hostMemRead, h, hr]⟩)
  · exact .inl ⟨fun h' => h ((inMemory_iff _ _).2 h'), by simp [State.hostMemRead, h]⟩

/-- A host memory write faults beyond MEM_SIZE, faults in a race, or writes its bytes. -/
theorem hostMemWrite_cases (s : State) (addr : Word) (bs : List Byte) :
    (¬ (bs.length = 0 ∨ addr.toNat + bs.length ≤ s.memSize) ∧
      s.hostMemWrite addr bs = .fault .badMem) ∨
    (s.writeRaces ⟨addr, bs.length⟩ = true ∧ s.hostMemWrite addr bs = .fault .hazRace) ∨
    ((bs.length = 0 ∨ addr.toNat + bs.length ≤ s.memSize) ∧
      s.writeRaces ⟨addr, bs.length⟩ = false ∧
      s.hostMemWrite addr bs = .next { s with mem := s.mem.writeBytes addr.toNat bs }) := by
  by_cases h : Range.inMemory s.memSize ⟨addr, bs.length⟩ = true
  · have h' := (inMemory_iff _ _).1 h
    cases hr : s.writeRaces ⟨addr, bs.length⟩ with
    | true => exact .inr (.inl ⟨rfl, by simp [State.hostMemWrite, h, hr]⟩)
    | false => exact .inr (.inr ⟨h', rfl, by simp [State.hostMemWrite, h, hr]⟩)
  · exact .inl ⟨fun h' => h ((inMemory_iff _ _).2 h'), by simp [State.hostMemWrite, h]⟩

/-- A defined access to the window: 32 bits, aligned, at an offset below 0x100. -/
theorem windowOffset_some {s : State} {off : Nat} (h : off % 4 = 0) (hl : off < 0x100) :
    s.windowOffset 32 (s.regBase + off) = some off := by
  simp [State.windowOffset, regAccessOk, h, hl]

/-- A host register access is refused, or acts at its offset in the window. -/
theorem windowOffset_cases (s : State) (width addr : Nat) :
    s.windowOffset width addr = none ∨
      ∃ off, off % 4 = 0 ∧ off < 0x100 ∧ width = 32 ∧ addr = s.regBase + off ∧
        s.windowOffset width addr = some off := by
  by_cases h : s.regBase ≤ addr ∧ regAccessOk width (addr - s.regBase)
  · refine .inr ⟨addr - s.regBase, ?_⟩
    have := h.2
    simp only [regAccessOk, Bool.and_eq_true, beq_iff_eq, decide_eq_true_eq] at this
    exact ⟨this.1.2, this.2, this.1.1, by omega, if_pos h⟩
  · exact .inl (if_neg h)

/-- A host register write while BUSY is dropped and sets WBUSY. -/
theorem regWrite_busy {s : State} (h : s.status.busy = true) (offset : Nat) (v : Word) :
    s.regWrite offset v = { s with status := s.status.dropped } := by
  simp [State.regWrite, h]

theorem regWrite_idle {s : State} (h : s.status.busy = false) (offset : Nat) (v : Word) :
    s.regWrite offset v = s.regWriteIdle offset v := by simp [State.regWrite, h]

/-- A host register write while idle issues, clears STATUS bits, or writes the argument registers (with
what they held, where it changes nothing). -/
theorem regWriteIdle_cases (s : State) (offset : Nat) (v : Word) :
    s.regWriteIdle offset v = s.issue v ∨
    s.regWriteIdle offset v = { s with status := s.status.clear v } ∨
    ∃ x, s.regWriteIdle offset v = { s with args := x } := by
  unfold State.regWriteIdle
  split
  · exact .inl rfl
  · exact .inr (.inl rfl)
  all_goals exact .inr (.inr ⟨_, rfl⟩)

/-- An engine turn with BUSY = 1 is the step of the decoded command or of a word that is no command;
with BUSY = 0 it changes nothing. -/
theorem engineTurn_cases (s : State) :
    (s.status.busy = false ∧ engineTurn s = .next s) ∨
    (s.status.busy = true ∧
      ((∃ i, decode s.latched.word = .ok i ∧ engineTurn s = exec i s) ∨
        ∃ e, decode s.latched.word = .error e ∧ engineTurn s = .next (s.rejectWord e))) := by
  cases hb : s.status.busy with
  | false => exact .inl ⟨rfl, by simp [engineTurn, hb]⟩
  | true =>
    refine .inr ⟨rfl, ?_⟩
    cases hd : decode s.latched.word with
    | ok i => exact .inl ⟨i, rfl, by simp [engineTurn, engineStep, hb, hd]⟩
    | error e => exact .inr ⟨e, rfl, by simp [engineTurn, engineStep, hb, hd]⟩

/-- A step takes the first turn of the agenda, or with none left is an engine turn. -/
theorem step_cases (s : State) :
    (s.agenda = [] ∧ step s = engineTurn s) ∨
    ∃ turn rest, s.agenda = turn :: rest ∧
      ((turn = .engine ∧ step s = engineTurn { s with agenda := rest }) ∨
        (∃ op, turn = .host op ∧ step s = hostStep op { s with agenda := rest }) ∨
        (turn = .reset ∧ step s = .next { s with agenda := rest }.platformReset)) := by
  cases h : s.agenda with
  | nil => exact .inl ⟨rfl, by simp [step, h]⟩
  | cons turn rest =>
    refine .inr ⟨turn, rest, rfl, ?_⟩
    cases turn with
    | engine => exact .inl ⟨rfl, by simp [step, h]⟩
    | host op => exact .inr (.inl ⟨op, rfl, by simp [step, h]⟩)
    | reset => exact .inr (.inr ⟨rfl, by simp [step, h]⟩)

end Sys2Proof.Machine
end

