-- ==== Sys2Proof/Tests/Slice0.lean ====
section
/-! SUPPORT. Tests. Expected results come from the vectors of spec/95_test_vectors.md, named in the
comments, or are written out from the encoding of spec/30_encoding.md. The last part shows, for every
statement with hypotheses, a concrete input that meets them all. -/

namespace Sys2Proof.Tests

open Sys2Proof Sys2Proof.Machine

/-! ### WellFormed refuses -/

theorem test_wellFormed_fmt :
    [Instr.desc 7, .dsize 11 0, .tsize 12 31, .mipcnt 13, .decb 15 0 false].all
      (fun i => i.wellFormed = false) = true := by decide
theorem test_wellFormed_indexed :
    [Instr.palmax 14, .deci 4, .enci 0, .prange 6 true].all (fun i => i.wellFormed = false) = true := by
  decide
theorem test_wellFormed_direct :
    [Instr.encb 8, .encb 9, .encb 10, .encb 7].all (fun i => i.wellFormed = false) = true := by decide
theorem test_wellFormed_pfmt :
    [Instr.decb 8 3 true, .pdec 3, .penc 3].all (fun i => i.wellFormed = false) = true ∧
      [Instr.decb 8 3 false, .decb 4 3 true].all Instr.wellFormed = true := by decide
theorem test_wellFormed_qsel :
    [Instr.qpal true 3, .qpal false 3].all (fun i => i.wellFormed = false) = true := by decide

/-! ### Decode: one word of each command, bit by bit from R47 and R49 (the words of spec/95 where it
has one) -/

-- OP = word[7:0], all other fields 0.
theorem test_decode_nop : decode 0b00000000000000000000000000000000 = .ok .nop := by decide
-- FMT = word[11:8] = 1110.
theorem test_decode_desc : decode 0b00000000000000000000111000000001 = .ok (.desc 14) := by decide
theorem test_decode_palmax : decode 0b00000000000000000000100100000010 = .ok (.palmax 9) := by decide
-- LVL = word[22:18] = 00101, FMT = 1110 (DS-03).
theorem test_decode_dsize : decode 0b00000000000101000000111000000011 = .ok (.dsize 14 5) := by decide
-- LVL = 00010, FMT = 1110 (DS-04).
theorem test_decode_tsize : decode 0b00000000000010000000111000000100 = .ok (.tsize 14 2) := by decide
theorem test_decode_mipcnt : decode 0b00000000000000000000010000000101 = .ok (.mipcnt 4) := by decide
-- PP = word[15] = 1, PFMT = word[13:12] = 10, FMT = 1000 (BC-10).
theorem test_decode_decb : decode 0b00000000000000001010100000010000 = .ok (.decb 8 2 true) := by decide
theorem test_decode_deci : decode 0b00000000000000000000101000010001 = .ok (.deci 10) := by decide
theorem test_decode_encb : decode 0b00000000000000000000010100010010 = .ok (.encb 5) := by decide
theorem test_decode_enci : decode 0b00000000000000000000100100010011 = .ok (.enci 9) := by decide
theorem test_decode_cdec4 : decode 0b00000000000000000000000000100000 = .ok .cdec4 := by decide
theorem test_decode_ckey : decode 0b00000000000000000000000000100001 = .ok .ckey := by decide
-- F = word[14] = 1 (CM-14).
theorem test_decode_cpal : decode 0b00000000000000000100000000100010 = .ok (.cpal true) := by decide
theorem test_decode_cidx : decode 0b00000000000000000000000000100011 = .ok .cidx := by decide
theorem test_decode_cenc4 : decode 0b00000000000000000000000000100100 = .ok .cenc4 := by decide
theorem test_decode_qdist : decode 0b00000000000000000000000000110000 = .ok .qdist := by decide
theorem test_decode_qavg : decode 0b00000000000000000000000000110001 = .ok .qavg := by decide
theorem test_decode_qnear : decode 0b00000000000000000000000000110010 = .ok .qnear := by decide
-- QSEL = word[17:16] = 01, F = 1 (Q-08).
theorem test_decode_qpal : decode 0b00000000000000010100000000110011 = .ok (.qpal true 1) := by decide
theorem test_decode_xswp : decode 0b00000000000000000000000001000000 = .ok .xswp := by decide
theorem test_decode_xreo : decode 0b00000000000000000000000001000001 = .ok .xreo := by decide
theorem test_decode_xred : decode 0b00000000000000000000000001000010 = .ok .xred := by decide
theorem test_decode_x2c : decode 0b00000000000000000000000001000011 = .ok .x2c := by decide
theorem test_decode_c2x : decode 0b00000000000000000000000001000100 = .ok .c2x := by decide
-- PFMT = 10 and 01 (BC-20, BC-21).
theorem test_decode_pdec : decode 0b00000000000000000010000001010000 = .ok (.pdec 2) := by decide
theorem test_decode_penc : decode 0b00000000000000000001000001010001 = .ok (.penc 1) := by decide
-- PP = 1, FMT = 1010 (PR-02).
theorem test_decode_prange : decode 0b00000000000000001000101001010010 = .ok (.prange 10 true) := by decide
-- ER-01, ER-02.
theorem test_decode_refuses :
    decode 0x80000006 = .error (.opcode 6) ∧ decode 0xFF = .error (.opcode 0xFF) ∧
    decode 0x80000003 = .error (.reserved 0x80000000) ∧
    decode 0x00030133 = .error (.reserved 0x100) ∧ decode 0x00000E20 = .error (.reserved 0xE00) ∧
    decode 0x00008E01 = .error (.reserved 0x8000) := by decide
-- spec/opcode_table.json gives a row 32 bits.
theorem test_decodeTableWord :
    decodeTableWord 32 0x4022 = some (.cpal true) ∧ decodeTableWord 32 6 = none := by decide

/-! ### One step of each command -/

/-- MEM_SIZE of the vectors (ER-05). -/
def size : Nat := 0x10000

/-- The state just after the issue of word w with arguments x over memory m, the window at 0x4000. -/
def issued (w : Word) (x : Args) (m : Memory) : State :=
  { lastCmd := w, status := { busy := true }, errCode := .none, errInfo := 0, args := x, res0 := 0,
    res1 := 0, res2 := 0, res3 := 0, latched := ⟨w, x⟩, mem := m, memSize := size, qpopMax := 400,
    regBase := 0x4000, agenda := [], reply := .nothing }

/-- Some view of the state after one step. -/
def after {α : Type} (s : State) (view : State → α) : Option α :=
  match step s with
  | .next t => some (view t)
  | .fault _ => none
  | .refused _ => none

/-- RES0 and RES1, as numbers. -/
def res01 (t : State) : Nat × Nat := (t.res0.toNat, t.res1.toNat)

/-- Memory with bytes at 0x100 (SRC of the tests). -/
def at100 (bs : List Byte) : Memory := Memory.writeBytes [] 0x100 bs

/-- SRC = 0x100, DST = 0x400, AUX = 0x800. -/
def places : Args := { src := 0x100, dst := 0x400, aux := 0x800 }

/-- n bytes at DST. -/
def out (n : Nat) (t : State) : List Byte := t.mem.readBytes 0x400 n

/-- STATUS and ERRINFO, as numbers. -/
def ended (t : State) : Nat × Nat := (t.status.word.toNat, t.errInfo.toNat)

/-- RED and BLUE of the vectors as bytes. -/
def redBytes : List Byte := [255, 0, 0, 255]
/-- BLUE of the vectors. -/
def blueBytes : List Byte := [0, 0, 255, 255]

-- DS-06.
theorem test_nop : after (issued 0 {} []) (fun t => t.status.word) = some 0x2 := by decide
-- DS-01.
theorem test_desc : after (issued 0xE01 {} []) res01 = some (0x00040808, 32) := by decide
theorem test_desc_format : after (issued 0xF01 {} []) ended = some (0x6, 15) := by decide
-- DS-02.
theorem test_palmax : after (issued 0xA02 {} []) res01 = some (16384, 32768) := by decide
theorem test_palmax_class : after (issued 0xE02 {} []) ended = some (0x6, 14) := by decide
-- DS-03.
theorem test_dsize : after (issued 0x603 { dim := 0xFFFFFFFF } []) res01 = some (0, 4) := by decide
theorem test_dsize_level :
    after (issued 0x001C0E03 { dim := 0x00400040 } []) res01 = some (32, 0) := by decide
-- DS-04.
theorem test_tsize :
    after (issued 0x000C0404 { dim := 0x00080010 } []) res01 = some (384, 0) := by decide
-- DS-05.
theorem test_mipcnt :
    after (issued 0x405 { dim := 0x00040010, len := 100000 } []) res01 = some (2, 0) := by decide
theorem test_mipcnt_budget :
    after (issued 0xE05 { dim := 0x00400040, len := 2047 } []) ended = some (0x6, 2047) := by decide
-- BC-05; BC-11 with index 2 for pixel 1, which is beyond PALLEN (R86).
theorem test_decb :
    after (issued 0x410 places (at100 [0x84, 0x10])) (out 8) =
      some [132, 130, 132, 255, 0, 0, 0, 255] := by decide
theorem test_decb_palette :
    after (issued 0x8A10 { places with pallen := 2 }
      (Memory.writeBytes (at100 [0x40, 1, 0, 2]) 0x800 [0xFF, 0, 0x80, 0xC0]))
      (fun t => (t.status.word, out 12 t)) =
      some (0xA, [0xC0, 0xC0, 0xC0, 0x80, 0, 0, 0, 255, 0, 0, 0, 255]) := by decide
-- BC-14.
theorem test_deci :
    after (issued 0xA11 places (at100 [0xC0, 5, 0xFF, 0xFF])) (out 4) = some [0, 5, 0x3F, 0xFF] := by
  decide
-- BC-07.
theorem test_encb :
    after (issued 0x512 places (at100 [160, 176, 192, 109, 16, 32, 48, 128, 1, 2, 3, 255]))
      (out 6) = some [0x3A, 0xBC, 0x41, 0x23, 0x80, 0] := by decide
-- BC-15 and BC-16.
theorem test_enci :
    after (issued 0x913 places (at100 [0, 255, 0, 1])) (out 3) = some [0xFF, 1, 0] := by decide
theorem test_enci_index :
    after (issued 0xA13 places (at100 [0x40])) ended = some (0x6, 0) := by decide
-- CM-01.
theorem test_cdec4 :
    after (issued 0x20 places (at100 [0xF8, 0, 0, 0x1F, 0xE4, 0x1B, 0, 0xFF]))
      (fun t => (res01 t, out 12 t)) =
      some ((0xF800001F, 0xE41B00FF), [85, 0, 170, 255, 170, 0, 85, 255, 0, 0, 255, 255]) := by decide
-- CM-09: pixel 0 BLACK, the others (1, 1, 1, 255).
theorem test_ckey :
    after (issued 0x21 { places with dim := 0x00020001 } (at100 [0, 0, 0, 255, 7, 7, 7, 7, 0, 0, 0, 0,
      0, 0, 0, 0, 1, 1, 1, 255])) (fun t => (res01 t, out 8 t)) =
      some ((0xFFFF0000, 0xC), [255, 255, 255, 255, 0, 0, 0, 255]) := by decide
-- CM-14.
theorem test_cpal :
    after (issued 0x22 { places with arg := 0x001FF800 } []) (out 16) =
      some (blueBytes ++ redBytes ++ [127, 0, 127, 255, 127, 0, 127, 0]) := by decide
theorem test_cpal_keys :
    after (issued 0x4022 { places with arg := 0x00010002 }
      (at100 [10, 20, 30, 128, 40, 50, 60, 255])) (out 16) =
      some [10, 20, 30, 128, 40, 50, 60, 255, 25, 35, 45, 255, 25, 35, 45, 0] := by decide
-- CM-15: pixels 0 and 1 WHITE, the others fully transparent black.
theorem test_cidx :
    after (issued 0x23 { places with dim := 0x00010002 }
      (Memory.writeBytes (at100 [255, 255, 255, 255, 0, 0, 0, 255]) 0x800
        [0, 0, 0, 255, 255, 255, 255, 255])) res01 = some (0x40000000, 0) := by decide
-- CM-08, with DIM = 0x00020002.
theorem test_cenc4 :
    after (issued 0x24 { places with dim := 0x00020002 }
      (at100 (redBytes ++ blueBytes ++ [1, 2, 3, 255, 1, 2, 3, 255, 0, 0, 0, 255, 9, 9, 9, 255])))
      (fun t => (t.res2, out 8 t)) = some (0x10A00000, [0xF8, 0, 0, 0x1F, 0x10, 0xA0, 0, 0]) := by
  decide
-- CM-13.
theorem test_cenc4_single :
    after (issued 0x24 { places with dim := 0x00010001 } (at100 redBytes)) (out 8) =
      some [0xF8, 0, 0xF8, 0, 0, 0, 0, 0] := by decide
-- Q-01.
theorem test_qdist :
    after (issued 0x30 { src := 0x100, aux := 0x104 } (at100 (redBytes ++ [0, 0, 0, 255]))) res01 =
      some (0xF80BF802, 1) := by decide
-- Q-02.
theorem test_qavg :
    after (issued 0x31 { places with len := 2 } (at100 [10, 20, 30, 255, 20, 40, 61, 255])) res01 =
      some (0x0F1E2DFF, 0) := by decide
theorem test_qavg_zero_alpha :
    after (issued 0x31 { places with len := 3 } (at100 [10, 20, 30, 255, 1, 2, 3, 0, 4, 5, 6, 0]))
      res01 = some (0x01020300, 0) := by decide
-- Q-03.
theorem test_qnear :
    after (issued 0x32 { places with len := 2, pallen := 3 }
      (Memory.writeBytes (at100 [200, 0, 0, 255, 0, 0, 0, 5]) 0x800
        [0, 0, 0, 255, 255, 0, 0, 255, 9, 9, 9, 0])) (out 4) = some [0, 1, 0, 2] := by decide
-- Q-04.
theorem test_qpal :
    after (issued 0x4033 { places with len := 3 }
      (at100 [200, 10, 10, 255, 10, 200, 10, 255, 10, 10, 200, 255]))
      (fun t => (t.res0, out 12 t)) =
      some (3, [10, 200, 10, 255, 10, 10, 200, 255, 200, 10, 10, 255]) := by decide
-- Q-09, QPOP_MAX = 400.
theorem test_qpal_population :
    after (issued 0x33 { places with len := 401 } []) ended = some (0x6, 401) := by decide
-- TX-01.
theorem test_xswp :
    after (issued 0x40 { places with len := 8 }
      (at100 [0x12, 0x34, 0x56, 0x78, 0x1B, 0xE4, 0, 0xFF])) (out 8) =
      some [0x34, 0x12, 0x78, 0x56, 0xE4, 0x1B, 0, 0xFF] := by decide
-- TX-05, 16 by 8: words 0 1 4 5 2 3 6 7; each word here is its number plus 1 in its first byte.
theorem test_xreo :
    (List.range 8).map (fun n => byteAt (reorderEncode 4
      ((List.range 64).map fun k => if k % 8 = 0 then BitVec.ofNat 8 (k / 8) else 0)) (8 * n)) =
      [0, 1, 4, 5, 2, 3, 6, 7] := by decide
-- TX-03, 32 by 8.
theorem test_xred :
    (List.range 16).map (localIndex 8) = [0, 1, 4, 5, 8, 9, 12, 13, 2, 3, 6, 7, 10, 11, 14, 15] := by
  decide
-- TX-06.
theorem test_x2c :
    after (issued 0x43 { places with dim := 0x00080008, len := 32 }
      (at100 [0, 0xF8, 0x1F, 0, 1, 0, 0, 0])) (out 32) =
      some ([0xF8, 0, 0, 0x1F, 0x40, 0, 0, 0] ++ List.replicate 24 0) := by decide
theorem test_c2x :
    after (issued 0x44 { places with dim := 0x00080008, len := 32 }
      (at100 [0xF8, 0, 0, 0x1F, 0x40])) (out 32) =
      some ([0, 0xF8, 0x1F, 0, 1, 0, 0, 0] ++ List.replicate 24 0) := by decide
-- TX-08.
theorem test_x2c_length :
    after (issued 0x43 { places with dim := 0x00080008, len := 16 } []) ended = some (0x6, 16) := by
  decide
-- BC-20.
theorem test_pdec :
    after (issued 0x50 { places with len := 1 } (at100 [0x80, 0x40])) (out 4) =
      some [0x40, 0x40, 0x40, 0x80] := by decide
-- BC-21.
theorem test_penc :
    after (issued 0x1051 { places with len := 1 } (at100 redBytes)) (out 2) = some [0xF8, 0] := by
  decide
-- PR-02.
theorem test_prange :
    after (issued 0x8A52 { places with len := 4, pallen := 16 } (at100 [0xC0, 5, 0, 0x10]))
      (fun t => (res01 t, t.res2.toNat, t.res3.toNat, t.status.word.toNat)) =
      some ((5, 16), 10, 34, 0x22) := by decide
-- PR-04, one byte.
theorem test_prange_absent :
    after (issued 0x852 { places with len := 1 } (at100 [0xFF])) ended = some (0x12, 0) := by decide
-- ER-05.
theorem test_address :
    after (issued 0x24 { src := 0xFFC1, dst := 0xFFFC } []) ended = some (0x6, 0xFFC1) ∧
    after (issued 0x30 { src := 0xFFFC, aux := 0xFFFC } []) ended = some (0x2, 0) := by decide
-- ER-07, ER-08: a dropped write, and LASTCMD.
theorem test_host :
    after { issued 0 {} [] with agenda := [.host (.regWrite 32 0x4010 5)] } ended = some (0x41, 0) ∧
    after { issued 0x80000003 {} [] with agenda := [.host (.regRead 32 0x4000)] } (·.reply) =
      some (.register 0x80000003) := by
  decide
-- ER-07, D37: a write to a read-only register, and then the engine step of NOP.
theorem test_busy_write_id :
    after { issued 0 {} [] with agenda := [.host (.regWrite 32 0x4040 5)] } ended = some (0x41, 0) ∧
    after { issued 0 {} [] with status := { busy := true, wbusy := true } } ended = some (0x42, 0) := by
  decide
theorem test_host_width :
    step { issued 0 {} [] with agenda := [.host (.regRead 16 0x4000)] } = .refused .badRegAccess := rfl
-- R33, R44, R133: QPAL with QSEL = 3 still reads (SRC, 4·LEN); here a host write meets that range.
theorem test_race_qsel :
    step { issued 0x00030033 { places with len := 2 } [] with agenda := [.host (.memWrite 0x107 [1])] } =
      .fault .hazRace := rfl

/-! ### Inputs that meet the hypotheses of each statement

Each theorem is named after its statement. `issued` is a state with a running command; ranges end at the
last byte of data memory wherever the statement asks for a footprint in range. -/

/-- A state with no command running. -/
def idle (x : Args) (m : Memory) : State := { issued 0 x m with status := {} }

theorem test_meets_EncodeOfDecode : decode 0x00008A52 = .ok (.prange 10 true) := by decide

theorem test_meets_WordsRefusedByName :
    (∃ row ∈ opcodeMap, opField 0x4022 = row.op ∧ 0x4022 &&& row.mask = row.op.setWidth 32) ∧
    (∃ row ∈ opcodeMap, opField 0x4122 = row.op ∧ 0x4122 &&& row.mask ≠ row.op.setWidth 32) ∧
    [0x06, 0x0F, 0x14, 0x1F, 0x25, 0x2F, 0x34, 0x3F, 0x45, 0x4F, 0x53, 0xFF].all
      (fun op => decode (BitVec.ofNat 32 op) = .error (.opcode (BitVec.ofNat 8 op))) ∧
    [0x00, 0x05, 0x10, 0x13, 0x20, 0x24, 0x30, 0x33, 0x40, 0x44, 0x50, 0x52].all
      (fun op => (decode (BitVec.ofNat 32 op)).toOption.isSome) := by
  refine ⟨⟨opcodeMap[12], List.getElem_mem _, ?_⟩, ⟨opcodeMap[12], List.getElem_mem _, ?_⟩, ?_, ?_⟩ <;>
    decide

theorem test_meets_StepRunsDecodedCommand :
    ((issued 0xE01 {} []).status.busy = true ∧ decode (issued 0xE01 {} []).latched.word = .ok (.desc 14) ∧
      (issued 0xE01 {} []).agenda = []) ∧
    ((∃ rest, ({ issued 0xE01 {} [] with agenda := [.engine] } : State).agenda = .engine :: rest) ∧
      ({ issued 0xE01 {} [] with agenda := [.engine] } : State).status.busy = true ∧
      ({ idle {} [] with agenda := [.engine] } : State).status.busy = false) ∧
    decode (issued 0x53 {} []).latched.word = .error (.opcode 0x53) ∧
    decode (issued 0x80000000 {} []).latched.word = .error (.reserved 0x80000000) ∧
    (idle {} []).status.busy = false ∧ decodeTableWord 32 0xE01 = some (.desc 14) :=
  ⟨by decide, ⟨⟨_, rfl⟩, by decide⟩, by decide⟩

theorem test_meets_StepKeepsInv :
    let s := issued 0x811 { dst := 0xFF80 } [(0xFFFF, 7)]
    s.Inv ∧ ∃ t, step s = .next t := by
  refine ⟨⟨by decide, by decide, by decide, by decide, fun _ => rfl, fun _ => ?_, fun _ => ?_,
    fun h => ?_⟩, ⟨_, rfl⟩⟩
  · decide
  · decide
  · exact absurd h (by decide)

theorem test_meets_IssueLatchesCommand :
    (idle {} []).status.busy = false ∧
    (∀ i, decode 0xFF = .ok i → i.wellFormed = false) ∧
    (∀ i, decode 0xF01 = .ok i → i.wellFormed = false) ∧
    ∃ t, hostStep (.regWrite 32 ((idle {} []).regBase + 0) 0xFF) (idle {} []) = .next t := by
  refine ⟨rfl, fun i h => ?_, fun i h => ?_, _, rfl⟩
  · have : decode 0xFF = .error (.opcode 0xFF) := by decide
    rw [this] at h
    cases h
  · have : decode 0xF01 = .ok (.desc 15) := by decide
    rw [this] at h
    cases h
    decide

theorem test_meets_BusyWritesDropped :
    (issued 0 {} []).status.busy = true ∧ 0xFC % 4 = 0 ∧ 0xFC < 0x100 := by decide

theorem test_meets_StatusAndErrorCodeRead : 0xFC % 4 = 0 ∧ 0xFC < 0x100 := by decide

theorem test_meets_StatusWriteOneToClear : (idle {} []).status.busy = false := rfl

theorem test_meets_ArgumentWritesReadBack :
    (idle {} []).status.busy = false ∧
      (0x24, ({ pallen := 0x7FFF } : Args)) ∈
        [(0x20, { (idle {} []).args with dim := 0xFFFFFFFF }),
          (0x24, { (idle {} []).args with pallen := (0xFFFFFFFF : Word).setWidth 15 })] := by decide

theorem test_meets_UndefinedRegisterAccesses :
    (16 ≠ 32 ∧ 0x3FFC < (idle {} []).regBase ∧ (0x4002 - (idle {} []).regBase) % 4 ≠ 0 ∧
      (idle {} []).regBase + 0xFC < 0x4100) ∧
    (0x40 % 4 = 0 ∧ (idle {} []).status.busy = false ∧ (issued 0 {} []).status.busy = true) ∧
    [0x2C, 0x44, 0xFC].all (fun off => off % 4 = 0 ∧ (off = 0x2C ∨ 0x44 ≤ off ∧ off ≤ 0xFC)) := by
  decide

/-- DECI of C8 reads 0x100 to 0x11F and writes 0x400 to 0x43F. -/
theorem test_meets_HostRacesFault :
    let s := issued 0x911 places []
    let fp := footprint (.deci 9) s.latched.args
    s.status.busy = true ∧ decode s.latched.word = .ok (.deci 9) ∧
    (0x43F : Nat) + 1 ≤ s.memSize ∧ 0xFFFF + 1 ≤ s.memSize ∧
    (∃ r ∈ fp.reads ++ fp.writes, ∃ k < 1, r.holds (0x11F + k) = true) ∧
    (∀ r ∈ fp.reads ++ fp.writes, ∀ k < 1, r.holds (0x440 + k) = false) ∧
    (∃ r ∈ fp.writes, ∃ k < 2, r.holds (0x3FF + k) = true) ∧
    (∀ r ∈ fp.writes, ∀ k < 1, r.holds (0x11F + k) = false) := by decide

theorem test_meets_HostMemoryAccesses :
    (idle {} []).status.busy = false ∧
    (idle {} []).memSize < (0xFFFF : Word).toNat + [(1 : Byte), 2].length ∧
    (0xFFFE : Word).toNat + [(1 : Byte), 2].length ≤ (idle {} []).memSize := by decide

theorem test_meets_ResetClearsRegisters :
    ({ issued 0x811 places [] with agenda := [.reset] } : State).agenda = .reset :: [] := rfl

theorem test_meets_EngineWritesOnlyFootprint :
    PixelFormat.ofCode 15 = none ∧ 14 < 16 ∧
    (∃ t, exec (.deci 9) (issued 0x911 places []) = .next t) ∧
    (∀ r ∈ (footprint (.deci 9) (issued 0x911 places []).latched.args).writes,
      r.holds 0x440 = false ∧ r.holds 0x3FF = false) :=
  ⟨rfl, by decide, ⟨_, rfl⟩, by decide⟩

theorem test_meets_EngineStepEnds :
    decode (issued 0x53 {} []).latched.word = .error (.opcode 0x53) ∧
    ∃ t u, exec (.desc 14) (issued 0xE01 {} []) = .next t ∧
      exec (.desc 15) (issued 0xF01 {} []) = .next u ∧ t.status.err = false ∧ u.status.err = true :=
  ⟨by decide, _, _, rfl, rfl, by decide, by decide⟩

/-- Two states that differ in STATUS, ERRCODE, RES0, LASTCMD and memory outside the ranges read. -/
theorem test_meets_ResultDependsOnlyOnInputs :
    let s := issued 0x30 { src := 0xFFFC, aux := 0 } [(4, 9)]
    let s' := { issued 0x30 { src := 0xFFFC, aux := 0 } [] with
      lastCmd := 1, res0 := 7, errCode := .dim, status := { wbusy := true } }
    (s.res0 ≠ s'.res0 ∧ s.status ≠ s'.status ∧ s.errCode ≠ s'.errCode) ∧
    s.latched = s'.latched ∧ s.memSize = s'.memSize ∧ s.qpopMax = s'.qpopMax ∧
    (∀ r ∈ (footprint .qdist s.latched.args).reads, ∀ a, r.holds a = true →
      s.mem.read a = s'.mem.read a) ∧
    (issued 0x53 {} []).latched = { issued 0x53 {} [] with res0 := 7 }.latched ∧
    decode (issued 0x53 {} []).latched.word = .error (.opcode 0x53) := by
  refine ⟨by decide, rfl, rfl, rfl, ?_, rfl, by decide⟩
  intro r hr a ha
  have h : a ≠ 4 := by
    rintro rfl
    revert hr ha
    have : ∀ r ∈ (footprint .qdist { src := 0xFFFC, aux := 0 }).reads, r.holds 4 = false := by decide
    intro hr ha
    exact absurd ha (by rw [this r hr]; decide)
  show Memory.read [(4, 9)] a = Memory.read [] a
  rw [read_cons, if_neg (Ne.symm h)]

theorem test_meets_IllFormedCommandsEndInError :
    [7, 11, 12, 13, 15].all (fun c => PixelFormat.ofCode (BitVec.ofNat 4 c) = none) ∧
    (PixelFormat.ofCode 10 = some .c14x2 ∧ PixelFormat.c14x2.indexed = true) ∧
    (PixelFormat.ofCode 14 = some .cmpr ∧ PixelFormat.cmpr.indexed = false) ∧
    (Instr.deci 8).wellFormed = true ∧ (issued 0x811 {} []).errCode = .none := by decide

theorem test_meets_BadPaletteLengthEndsInError :
    (PixelFormat.ofCode 8 = some .c4 ∧ PixelFormat.c4.indexed = true ∧
      PaletteFormat.ofCode 2 = some .rgb5a3) ∧
    16384 < (issued 0x32 { pallen := 16385 } []).latched.args.pallen.toNat ∧
    (issued 0x32 {} []).latched.args.pallen = 0 := by decide

theorem test_meets_BadDimensionsAndLengthsEndInError :
    let d := fun x => (issued 0x41 { dim := x, len := 31 } []).latched.args
    ((PixelFormat.ofCode 0).isSome = true ∧ (d 0x00010000).width = 0 ∧ (d 0x1).height = 0) ∧
    ((d 0x00080004).width % 8 ≠ 0 ∧ (d 0x00090008).height % 8 ≠ 0) ∧
    (0 < (d 0x00080008).width ∧ 0 < (d 0x00080008).height ∧ (d 0x00080008).width % 8 = 0 ∧
      (d 0x00080008).height % 8 = 0 ∧
      (d 0x00080008).len.toNat ≠ (d 0x00080008).width * (d 0x00080008).height / 2) ∧
    (d 0).len.toNat % 8 ≠ 0 ∧ (issued 0x31 {} []).latched.args.len = 0 ∧
    ((2 : BitVec 2) ≠ 3 ∧ (issued 0x33 {} []).qpopMax < 401) ∧
    (PixelFormat.ofCode 10 = some .c14x2 ∧ PixelFormat.c14x2.indexed = true ∧
      (d 0).pallen.toNat ≤ 16384 ∧ (d 0).len.toNat % 2 = 1) := by decide

/-- The checks before the footprint's at their bounds, and a second range that is the first outside. -/
theorem test_meets_AddressErrorNamesFirstRange_checks :
    let s := fun (x : Args) => issued 0 { x with aux := 0xFFFF, len := 32, dim := 0x00080008 } []
    ((Instr.qnear).wellFormed = true ∧ (s { pallen := 16384 }).passesChecks .qnear ∧
      (footprint .qnear (s { pallen := 16384 }).latched.args).reads =
        [⟨0, 128⟩] ++ ⟨0xFFFF, 65536⟩ :: [] ∧
      (0 : Word).toNat + 128 ≤ size ∧ size < (0xFFFF : Word).toNat + 65536) ∧
    (s {}).passesChecks (.prange 10 true) ∧ (s { pallen := 16384 }).passesChecks (.decb 10 2 true) ∧
    (s {}).passesChecks .x2c ∧ (s {}).passesChecks .xswp ∧ (s {}).passesChecks (.qpal true 2) ∧
    (s {}).passesChecks .qavg ∧ (s {}).passesChecks (.dsize 0 0) := by
  refine ⟨⟨rfl, ⟨by decide, by decide⟩, rfl, by decide, by decide⟩, ⟨by decide, by decide, fun _ => ?_⟩,
    fun _ _ => ?_, ?_, ?_, ?_, ?_, ?_⟩ <;> simp only [State.passesChecks] <;> decide

theorem test_meets_AddressErrorNamesFirstRange :
    let s := issued 0x30 { src := 0xFFFD } []
    s.status.err = false ∧ s.errCode = .none ∧ ¬ s.reaches .qdist ∧
      ∃ t, exec .qdist s = .next t ∧ t.errCode = .address :=
  ⟨rfl, rfl, by rw [reaches_iff]; decide, _, rfl, by decide⟩

theorem test_meets_SizeCommandsComplete :
    PixelFormat.ofCode 6 = some .rgba32 ∧ 0 < (issued 3 { dim := 0x0001FFFF } []).latched.args.width ∧
      0 < (issued 3 { dim := 0x0001FFFF } []).latched.args.height := by decide

theorem test_meets_MipcntCountsWholeLevels :
    let x := (issued 0x605 { dim := 0x00010001, len := 63 } []).latched.args
    let y := (issued 0x605 { dim := 0x00010001, len := 64 } []).latched.args
    PixelFormat.ofCode 6 = some .rgba32 ∧ 0 < x.width ∧ 0 < x.height ∧
      x.len.toNat < dataSize .rgba32 x.width x.height ∧
      dataSize .rgba32 y.width y.height ≤ y.len.toNat := by decide

theorem test_meets_DecbDirectCompletes :
    PixelFormat.ofCode 6 = some .rgba32 ∧ PixelFormat.rgba32.indexed = false ∧
      (issued 0x610 { src := 0xFFC0, dst := 0xFFC0 } []).reaches (.decb 6 0 false) :=
  ⟨rfl, rfl, (reaches_iff _ _).2 (by decide)⟩

theorem test_meets_DecbAbsentPaletteDegrades :
    PixelFormat.ofCode 10 = some .c14x2 ∧ PixelFormat.c14x2.indexed = true ∧
      (issued 0x3A10 { src := 0xFFE0, dst := 0xFF80, pallen := 32767 } []).reaches
        (.decb 10 3 false) :=
  ⟨rfl, rfl, (reaches_iff _ _).2 (by decide)⟩

theorem test_meets_DecbPaletteResolves :
    PixelFormat.ofCode 8 = some .c4 ∧ PixelFormat.c4.indexed = true ∧
      PaletteFormat.ofCode 2 = some .rgb5a3 ∧ (16384 : BitVec 15).toNat ≤ 16384 ∧
      (issued 0xA810 { src := 0xFFE0, dst := 0xFF00, aux := 0x8000, pallen := 16384 } []).reaches
        (.decb 8 2 true) :=
  ⟨rfl, rfl, rfl, by decide, (reaches_iff _ _).2 (by decide)⟩

theorem test_meets_IndexCommandsComplete :
    PixelFormat.ofCode 10 = some .c14x2 ∧ PixelFormat.c14x2.indexed = true ∧
    (issued 0xA11 { src := 0xFFE0, dst := 0xFFE0 } []).reaches (.deci 10) ∧
    (issued 0xA13 { src := 0xFFE0, dst := 0xFFE0 } []).reaches (.enci 10) :=
  ⟨rfl, rfl, (reaches_iff _ _).2 (by decide), (reaches_iff _ _).2 (by decide)⟩

/-- All indices at most 16383, and index 1 the first above it. -/
theorem test_meets_IndexCommandsComplete_indices :
    ((at100 [0x3F, 0xFF]).readHalves 0x100 16).all (fun v => v.toNat ≤ 16383) = true ∧
    ((at100 [0x3F, 0xFF, 0x40, 0]).readHalves 0x100 2).map BitVec.toNat = [16383, 16384] ∧
    PixelFormat.c14x2.maxIndex = 16383 := by decide

theorem test_meets_EncbCompletes :
    (PixelFormat.ofCode 0 = some .i4 ∧ PixelFormat.i4.indexed = false ∧
      (issued 0x12 { src := 0xFF00, dst := 0xFFE0 } []).reaches (.encb 0)) ∧
    (PixelFormat.ofCode 14 = some .cmpr ∧ PixelFormat.cmpr.indexed = false ∧
      (issued 0xE12 { src := 0xFF00, dst := 0xFFE0 } []).reaches (.encb 14)) :=
  ⟨⟨rfl, rfl, (reaches_iff _ _).2 (by decide)⟩, rfl, rfl, (reaches_iff _ _).2 (by decide)⟩

theorem test_meets_PaletteCommandsComplete :
    (0 < [black].length ∧ 1 < [(0 : Half), 1].length ∧ 2 < [(0 : Byte), 1, 2].length) ∧
    PaletteFormat.ofCode 2 = some .rgb5a3 ∧
    (issued 0x2050 { src := 0xFFFE, dst := 0xFFFC, len := 1 } []).reaches (.pdec 2) ∧
    (issued 0x2051 { src := 0xFFFFFFFF, dst := 0xFFFFFFFF, len := 0 } []).reaches (.penc 2) :=
  ⟨by decide, rfl, (reaches_iff _ _).2 (by decide), (reaches_iff _ _).2 (by decide)⟩

theorem test_meets_SubBlockPaletteCommandsComplete :
    (issued 0x20 { src := 0xFFF8, dst := 0xFFC0 } []).reaches .cdec4 ∧
    (issued 0x22 { src := 0xFFFFFFFF, dst := 0xFFF0 } []).reaches (.cpal false) ∧
    (issued 0x4022 { src := 0xFFF8, dst := 0xFFF0 } []).reaches (.cpal true) :=
  ⟨(reaches_iff _ _).2 (by decide), (reaches_iff _ _).2 (by decide), (reaches_iff _ _).2 (by decide)⟩

theorem test_meets_EncoderCommandsComplete :
    (issued 0x21 { src := 0xFFC0, dst := 0xFFF8 } []).reaches .ckey ∧
    (issued 0x23 { src := 0xFFC0, aux := 0xFFF0 } []).reaches .cidx ∧
    (issued 0x24 { src := 0xFFC0, dst := 0xFFF8 } []).reaches .cenc4 :=
  ⟨(reaches_iff _ _).2 (by decide), (reaches_iff _ _).2 (by decide), (reaches_iff _ _).2 (by decide)⟩

theorem test_meets_MetricCommandsComplete :
    (issued 0x30 { src := 0xFFFC, aux := 0xFFFC } []).reaches .qdist ∧
    (1 : Word) ≠ 0 ∧ (issued 0x31 { src := 0xFFFC, len := 1 } []).reaches .qavg :=
  ⟨(reaches_iff _ _).2 (by decide), by decide, (reaches_iff _ _).2 (by decide)⟩

theorem test_meets_PaletteBuildingCommandsComplete :
    ((1 : BitVec 15) ≠ 0 ∧ (1 : BitVec 15).toNat ≤ 16384 ∧
      (issued 0x32 { src := 0xFFFC, aux := 0xFFFC, dst := 0xFFFE, len := 1, pallen := 1 } []).reaches
        .qnear) ∧
    (PaletteSize.ofCode 0 = some .colours16 ∧ (400 : Word).toNat ≤ (issued 0x33 {} []).qpopMax ∧
      (issued 0x33 { src := 0xF9C0, dst := 0xFFC0, len := 400 } []).reaches (.qpal false 0)) :=
  ⟨⟨by decide, by decide, (reaches_iff _ _).2 (by decide)⟩, rfl, by decide,
    (reaches_iff _ _).2 (by decide)⟩

theorem test_meets_TranscoderCommandsComplete :
    let s := issued 0x41 { src := 0xFFE0, dst := 0xFFE0, len := 32, dim := 0x00080008 } []
    (s.latched.args.len.toNat % 8 = 0 ∧ s.reaches .xswp) ∧
    (0 < s.latched.args.width ∧ 0 < s.latched.args.height ∧ s.latched.args.width % 8 = 0 ∧
      s.latched.args.height % 8 = 0 ∧
      s.latched.args.len.toNat = s.latched.args.width * s.latched.args.height / 2) ∧
    s.reaches .xreo ∧ s.reaches .xred ∧ s.reaches .x2c ∧ s.reaches .c2x := by
  refine ⟨⟨by decide, (reaches_iff _ _).2 (by decide)⟩, by decide, ?_, ?_, ?_, ?_⟩ <;>
    exact (reaches_iff _ _).2 (by decide)

theorem test_meets_PrangeCompletes :
    PixelFormat.ofCode 10 = some .c14x2 ∧ PixelFormat.c14x2.indexed = true ∧
    (16384 : BitVec 15).toNat ≤ 16384 ∧ (2 : Word) ≠ 0 ∧ (2 : Word).toNat % 2 = 0 ∧
    (issued 0x8A52 { src := 0xFFFE, len := 2, pallen := 16384 } []).reaches (.prange 10 true) :=
  ⟨rfl, rfl, by decide, by decide, by decide, (reaches_iff _ _).2 (by decide)⟩

/-- A block of n bytes, all v. -/
def block (n : Nat) (v : Byte) : List Byte := List.replicate n v

theorem test_meets_EncodedPixels :
    15 < (List.replicate 16 black).length ∧ (List.replicate 16 black).length % 2 = 0 ∧
      (List.replicate 16 black).length = 16 := by decide

theorem test_meets_DirectFormatsRoundTrip :
    (PixelFormat.rgba32.indexed = false ∧ PixelFormat.rgba32 ≠ .cmpr ∧
      (block 64 0xA5).length = PixelFormat.rgba32.blockBytes) ∧
    (PixelFormat.rgb5a3.indexed = false ∧ PixelFormat.rgb5a3 ≠ .cmpr ∧
      (block 32 0x70).length = PixelFormat.rgb5a3.blockBytes) ∧
    ((0x7000 : Half).getLsbD 15 = false ∧ (0x7000 : Half).extractLsb' 12 3 = 7 ∧
      ∀ k ∈ [Color.r, Color.g, Color.b],
        expand5 (narrow 5 (k (dec5A3 0x7000))) = k (dec5A3 0x7000)) := by
  refine ⟨by decide, by decide, by decide, by decide, ?_⟩
  simp only [List.forall_mem_cons, List.not_mem_nil, false_implies, implies_true]
  decide

theorem test_meets_IndexBlocksRoundTrip :
    (PixelFormat.c14x2.indexed = true ∧ (block 32 0xFF).length = 32 ∧ 31 < 32) ∧
      (PixelFormat.c8.indexed = true ∧ PixelFormat.c8 ≠ .c14x2) := by decide

theorem test_meets_NarrowingInvertsWidening : 3 ∈ [3, 4, 5, 6] ∧ 6 ∈ [3, 4, 5, 6] := by decide

theorem test_meets_DecoderPaletteRule :
    (0xF800 : Half).toNat ≤ (0xF800 : Half).toNat ∧ (0x001F : Half).toNat < (0x0020 : Half).toNat := by
  decide

theorem test_meets_SubBlockDecoding :
    15 < 16 ∧ (block 32 0x1B).length = 32 ∧ 7 < 8 := by decide

theorem test_meets_SelectKeysRule :
    let cs := fun (ps : List Color) (inb : Nat → Bool) =>
      ((List.range ps.length).filter fun p => inb p && decide (16 ≤ (ps.getD p black).a.toNat)).map
        fun p => ps.getD p black
    let near : List Color := [⟨0, 0, 0, 255⟩, ⟨1, 1, 1, 255⟩]
    let faint : List Color := [⟨9, 9, 9, 16⟩, ⟨9, 9, 9, 15⟩]
    cs near (fun _ => false) = [] ∧ (cs faint fun _ => true).length = 1 ∧
    2 ≤ (cs near fun _ => true).length ∧ (selectKeys near fun _ => true).tie = true ∧
    (selectKeys near fun p => p = 0).tie = false ∧ (selectKeys faint fun _ => true).pt = true := by
  decide

theorem test_meets_UniformSubBlock :
    16 ≤ (⟨1, 2, 3, 16⟩ : Color).a.toNat ∧ ∃ p < 16, (fun p => decide (p = 15)) p = true :=
  ⟨by decide, 15, by decide, by decide⟩

theorem test_meets_IndexFieldLayout :
    (List.replicate 16 black).length = 16 ∧ [black, white, black, white].length = 4 ∧
      15 < (List.replicate 16 black).length := by decide

theorem test_meets_MaxDistancePairIsFirst : 2 ≤ [black, white].length ∧ 0 < 1 := by decide

theorem test_meets_NearestColorRule :
    let clear : Color := ⟨9, 9, 9, 0⟩
    let faint : Color := ⟨1, 1, 1, 15⟩
    let solid : Color := ⟨1, 1, 1, 16⟩
    [black] ≠ [] ∧ black ∈ [black] ∧
    (faint ∉ [black, clear] ∧ faint.a.toNat < 16 ∧ ∃ p ∈ [black, clear], p.a = 0) ∧
    (solid ∉ [black, clear] ∧ 16 ≤ solid.a.toNat) ∧
    (faint ∉ [black] ∧ ∀ p ∈ [black], p.a ≠ 0) := by decide

theorem test_meets_AverageRule :
    let clear : Color := ⟨9, 9, 9, 0⟩
    [black, clear] ≠ [] ∧ [black, clear] = [black] ++ clear :: [] ∧ clear.a = 0 ∧
    (∀ d ∈ [black], d.a ≠ 0) ∧ ∀ c ∈ [black, white], c.a ≠ 0 := by decide

theorem test_meets_TransparentEntriesKept :
    let clear : Color := ⟨9, 9, 9, 0⟩
    (∃ c ∈ [black, clear], c.a = 0) ∧
    (∃ e ∈ buildLimitedPalette [black, clear] .colours16 true, e.a = 0) ∧
    ∃ e, e ∈ buildLimitedPalette [black, clear] .colours16 false := by
  refine ⟨by decide, by decide, ⟨0, 0, 0, 255⟩, by decide⟩

theorem test_meets_BucketSplitRule :
    [black, white] ≠ [] ∧
    (channelRange Color.r [black, white] ≤ channelRange Color.g [black, white] ∧
      channelRange Color.b [black, white] ≤ channelRange Color.g [black, white]) ∧
    channelRange Color.g [black, ⟨0, 0, 9, 255⟩] < channelRange Color.b [black, ⟨0, 0, 9, 255⟩] := by
  decide

theorem test_meets_SwapKeepsColours :
    ((block 8 0x1B).length = 8 ∧ 15 < 16 ∧ 3 < 4 ∧ 4 ≤ 7 ∧ 7 < 8) ∧
      (block 16 0x1B).length % 8 = 0 ∧ 1 < (block 16 0x1B).length / 8 := by decide

theorem test_meets_ReorderPermutesWords :
    0 < 8 ∧ 8 % 8 = 0 ∧ 16 % 8 = 0 ∧ (block 64 1).length = 16 * 8 / 2 ∧ 0 < 8 / 4 / 2 ∧
      1 < 16 / 4 / 2 ∧ 3 < 4 := by decide

theorem test_meets_TranscoderRoundTrips :
    0 < 8 ∧ 8 % 8 = 0 ∧ (block 32 1).length = 8 * 8 / 2 := by decide

end Sys2Proof.Tests
end

section
/-! PROOFS of the statements about spec/10_state.md: the host's writes to CMD and STATUS (R21, R24,
R25) and what the result of a command depends on (R13). -/

namespace Sys2Proof.Machine

/-! ### Host register accesses -/

/-- A defined host register write makes the write of its offset (R14, R15). -/
theorem hostStep_regWrite (s : State) {off : Nat} (h : off % 4 = 0) (hl : off < 0x100) (v : Word) :
    hostStep (.regWrite 32 (s.regBase + off) v) s = .next (s.regWrite off v) := by
  simp only [hostStep, windowOffset_some h hl]

/-- A defined host register read leaves the register at its offset in the reply (R14, R15). -/
theorem hostStep_regRead (s : State) {off : Nat} (h : off % 4 = 0) (hl : off < 0x100) :
    hostStep (.regRead 32 (s.regBase + off)) s =
      .next { s with reply := .register (s.regRead off) } := by
  simp only [hostStep, windowOffset_some h hl]

/-- A host write to CMD while BUSY = 0 is the issue of R24. -/
theorem hostStep_writeCmd_idle {s : State} (h : s.status.busy = false) (v : Word) :
    hostStep (.regWrite 32 (s.regBase + 0x00) v) s = .next (s.issue v) := by
  rw [hostStep_regWrite s (by decide) (by decide), regWrite_idle h]
  rfl

/-- A host write to STATUS while BUSY = 0 is the write-1-to-clear of R21. -/
theorem hostStep_writeStatus_idle {s : State} (h : s.status.busy = false) (v : Word) :
    hostStep (.regWrite 32 (s.regBase + 0x04) v) s =
      .next { s with status := s.status.clear v } := by
  rw [hostStep_regWrite s (by decide) (by decide), regWrite_idle h]
  rfl

/-- Which bit of STATUS each flag is (R20). -/
theorem status_word_getLsbD (st : Status) (i : Nat) :
    st.word.getLsbD i =
      match i with
      | 0 => st.busy
      | 1 => st.done
      | 2 => st.err
      | 3 => st.palshort
      | 4 => st.palabsent
      | 5 => st.rangeshort
      | 6 => st.wbusy
      | _ => false := by
  rcases i with _ | _ | _ | _ | _ | _ | _ | i <;>
    simp only [Status.word, BitVec.getLsbD_append] <;> simp

/-- Settles O10: the flags of STATUS are its bits 0 to 6, so the claim is read off bit by bit. -/
theorem statusWriteOneToClear : Obligations.StatusWriteOneToClear := by
  intro s v hidle
  refine ⟨_, hostStep_writeStatus_idle hidle v, rfl, fun i => ?_⟩
  simp only [status_word_getLsbD]
  rcases i with _ | _ | _ | _ | _ | _ | _ | i <;> simp

/-- Settles O9: every host register write while BUSY = 1 is dropped, whatever its offset, and a read
does not look at BUSY. -/
theorem busyWritesDropped : Obligations.BusyWritesDropped := by
  intro s hbusy
  refine ⟨fun off hoff v => ?_, fun off hal hwin => hostStep_regRead s hal hwin⟩
  have hdefined : ∀ o ∈ [0x00, 0x04, 0x10, 0x14, 0x18, 0x1C, 0x20, 0x24, 0x28],
      o % 4 = 0 ∧ o < 0x100 := by decide
  obtain ⟨hal, hwin⟩ := hdefined off hoff
  rw [hostStep_regWrite s hal hwin, regWrite_busy hbusy]
  rfl

/-! ### Commands that end with an error -/

/-- t is s after an error completion (R153). -/
def EndsInError (s t : State) : Prop := ∃ c v, c ≠ ErrCode.none ∧ t = s.errorComplete c v

theorem endsInError_errorComplete (s : State) {c : ErrCode} (hc : c ≠ .none) (v : Word) :
    EndsInError s (s.errorComplete c v) := ⟨c, v, hc, rfl⟩

/-- The format check ends in an error where every format that FMT can name goes on to one. -/
theorem endsInError_withFormat {s : State} {fmt : BitVec 4} {k : PixelFormat → State}
    (h : ∀ f, PixelFormat.ofCode fmt = some f → EndsInError s (k f)) :
    EndsInError s (s.withFormat fmt k) := by
  rcases withFormat_cases s fmt k with ⟨-, e⟩ | ⟨f, hf, e⟩ <;> rw [e]
  · exact endsInError_errorComplete s (by decide) _
  · exact h f hf

theorem endsInError_withPaletteFormat {s : State} {pfmt : BitVec 2} {k : PaletteFormat → State}
    (h : ∀ p, PaletteFormat.ofCode pfmt = some p → EndsInError s (k p)) :
    EndsInError s (s.withPaletteFormat pfmt k) := by
  rcases withPaletteFormat_cases s pfmt k with ⟨-, e⟩ | ⟨p, hp, e⟩ <;> rw [e]
  · exact endsInError_errorComplete s (by decide) _
  · exact h p hp

/-- The class check ends in an error where a format of the class goes on to one. -/
theorem endsInError_needIndexed {s k : State} {f : PixelFormat} {want : Bool}
    (h : f.indexed = want → EndsInError s k) : EndsInError s (s.needIndexed f want k) := by
  rcases needIndexed_cases s f want k with ⟨-, e⟩ | ⟨hf, e⟩ <;> rw [e]
  · exact endsInError_errorComplete s (by decide) _
  · exact h hf

/-- A command with a field value it cannot work with ends with an error: it does not get past the
check of that field (R50 to R52, R149). -/
theorem exec_illFormed_endsInError {i : Instr} (hi : i.wellFormed = false) (s : State) :
    ∃ t, exec i s = .next t ∧ EndsInError s t := by
  cases i <;> refine ⟨_, rfl, ?_⟩
  case desc fmt | dsize fmt lvl | tsize fmt lvl | mipcnt fmt =>
    exact endsInError_withFormat fun f hf => by simp [Instr.wellFormed, fmtNamed, hf] at hi
  case palmax fmt | deci fmt | enci fmt | prange fmt pp =>
    exact endsInError_withFormat fun f hf => endsInError_needIndexed fun hx => by
      simp [Instr.wellFormed, fmtIndexed, hf, hx] at hi
  case encb fmt =>
    exact endsInError_withFormat fun f hf => endsInError_needIndexed fun hx => by
      simp [Instr.wellFormed, fmtDirect, hf, hx] at hi
  case decb fmt pfmt pp =>
    refine endsInError_withFormat fun f hf => ?_
    simp only [Instr.wellFormed, fmtNamed, fmtIndexed, hf, Option.isSome_some, Option.any_some,
      Bool.true_and, Bool.or_eq_false_iff, Bool.not_eq_false'] at hi
    obtain ⟨hpal, hpfmt⟩ := hi
    rw [if_pos hpal]
    exact endsInError_withPaletteFormat fun p hp => by simp [pfmtNamed, hp] at hpfmt
  case qpal f qsel =>
    rcases withPaletteSize_cases s qsel _ with ⟨-, e⟩ | ⟨m, hm, -⟩
    · exact ⟨_, _, by decide, e⟩
    · simp [Instr.wellFormed, qselNamed, hm] at hi
  case pdec pfmt | penc pfmt =>
    exact endsInError_withPaletteFormat fun p hp => by simp [Instr.wellFormed, pfmtNamed, hp] at hi
  all_goals simp [Instr.wellFormed] at hi

/-- The engine step of a latched word that is no well-formed command ends with an error (R24,
R26). -/
theorem engineStep_endsInError {s : State}
    (h : ∀ i, decode s.latched.word = .ok i → i.wellFormed = false) :
    ∃ t, engineStep s = .next t ∧ EndsInError s t := by
  cases hd : decode s.latched.word with
  | ok i => simpa only [engineStep, hd] using exec_illFormed_endsInError (h i hd) s
  | error e => exact ⟨_, by simp only [engineStep, hd], rejectWord_cases s e⟩

/-- Settles O8: the host's write is the issue, and nothing of an illegal or malformed word is looked
at before the engine's step. -/
theorem issueLatchesCommand : Obligations.IssueLatchesCommand := by
  intro s v hidle
  refine ⟨hostStep_writeCmd_idle hidle v, fun t hbad ht => ?_⟩
  rw [hostStep_writeCmd_idle hidle v] at ht
  cases ht
  obtain ⟨u, hu, c, w, -, rfl⟩ := engineStep_endsInError (s := s.issue v) hbad
  exact ⟨_, hu, rfl, rfl, rfl⟩

/-! ### What the result of a command depends on -/

/-- The two memories agree on the bytes of the range. -/
def SameOn (m m' : Memory) (r : Range) : Prop := ∀ a, r.holds a = true → m.read a = m'.read a

theorem SameOn.read_eq {m m' : Memory} {a : Word} {n : Nat} (h : SameOn m m' ⟨a, n⟩) (x : Nat)
    (hl : a.toNat ≤ x) (hu : x < a.toNat + n) : m.read x = m'.read x :=
  h x ((holds_iff _ _).2 ⟨hl, hu⟩)

theorem SameOn.readBytes {m m' : Memory} {a : Word} {n : Nat} (h : SameOn m m' ⟨a, n⟩) :
    m.readBytes a.toNat n = m'.readBytes a.toNat n := readBytes_congr h.read_eq

theorem SameOn.readColors {m m' : Memory} {a : Word} (n : Nat) (h : SameOn m m' ⟨a, 4 * n⟩) :
    m.readColors a.toNat n = m'.readColors a.toNat n := readColors_congr h.read_eq

theorem SameOn.readHalves {m m' : Memory} {a : Word} (n : Nat) (h : SameOn m m' ⟨a, 2 * n⟩) :
    m.readHalves a.toNat n = m'.readHalves a.toNat n := readHalves_congr h.read_eq

/-- Colour k of a range on which the memories agree. -/
theorem SameOn.readColor {m m' : Memory} {a : Word} {n : Nat} (h : SameOn m m' ⟨a, n⟩) (k : Nat)
    (hk : k + 4 ≤ n) : m.readColor (a.toNat + k) = m'.readColor (a.toNat + k) := by
  simp only [Memory.readColor]
  rw [h.read_eq _ (by omega) (by omega), h.read_eq _ (by omega) (by omega),
    h.read_eq _ (by omega) (by omega), h.read_eq _ (by omega) (by omega)]

/-- The inputs of command i that R13 lists are the same in s and s'. -/
structure SameInputs (i : Instr) (s s' : State) : Prop where
  latched : s'.latched = s.latched
  memSize : s'.memSize = s.memSize
  qpopMax : s'.qpopMax = s.qpopMax
  reads : ∀ r ∈ (footprint i s.latched.args).reads, SameOn s.mem s'.mem r

/-- t and t' end an engine step from s and s' in one way: with one error, or with one set of
outputs. -/
def SameEnd (s s' t t' : State) : Prop :=
  (∃ c v, c ≠ ErrCode.none ∧ t = s.errorComplete c v ∧ t' = s'.errorComplete c v) ∨
    ∃ o, t = s.complete o ∧ t' = s'.complete o

theorem sameEnd_error {s s' : State} {c : ErrCode} (hc : c ≠ .none) (v : Word) :
    SameEnd s s' (s.errorComplete c v) (s'.errorComplete c v) := .inl ⟨c, v, hc, rfl, rfl⟩

theorem sameEnd_complete {s s' : State} {o o' : Outputs} (h : o = o') :
    SameEnd s s' (s.complete o) (s'.complete o') := .inr ⟨o, rfl, by rw [h]⟩

theorem sameEnd_unless {s s' k k' : State} {bad : Bool} {c : ErrCode} {v : Word} (hc : c ≠ .none)
    (h : SameEnd s s' k k') : SameEnd s s' (s.unless bad c v k) (s'.unless bad c v k') := by
  cases bad with
  | true => exact sameEnd_error hc v
  | false => exact h

theorem sameEnd_withFormat {s s' : State} {fmt : BitVec 4} {k k' : PixelFormat → State}
    (h : ∀ f, PixelFormat.ofCode fmt = some f → SameEnd s s' (k f) (k' f)) :
    SameEnd s s' (s.withFormat fmt k) (s'.withFormat fmt k') := by
  cases hf : PixelFormat.ofCode fmt with
  | none => simpa only [withFormat_none hf] using sameEnd_error (by decide) _
  | some f => simpa only [withFormat_some hf] using h f hf

theorem sameEnd_withPaletteFormat {s s' : State} {pfmt : BitVec 2} {k k' : PaletteFormat → State}
    (h : ∀ p, SameEnd s s' (k p) (k' p)) :
    SameEnd s s' (s.withPaletteFormat pfmt k) (s'.withPaletteFormat pfmt k') := by
  cases hp : PaletteFormat.ofCode pfmt with
  | none => simpa only [withPaletteFormat_none hp] using sameEnd_error (by decide) _
  | some p => simpa only [withPaletteFormat_some hp] using h p

theorem sameEnd_withPaletteSize {s s' : State} {qsel : BitVec 2} {k k' : PaletteSize → State}
    (h : ∀ m, SameEnd s s' (k m) (k' m)) :
    SameEnd s s' (s.withPaletteSize qsel k) (s'.withPaletteSize qsel k') := by
  cases hm : PaletteSize.ofCode qsel with
  | none => simpa only [withPaletteSize_none hm] using sameEnd_error (by decide) _
  | some m => simpa only [withPaletteSize_some hm] using h m

section SameInputs

variable {i : Instr} {s s' k k' : State} (h : SameInputs i s s')
include h

theorem SameInputs.needDim (hk : SameEnd s s' k k') :
    SameEnd s s' (s.needDim k) (s'.needDim k') := by
  simp only [State.needDim, h.latched]
  exact sameEnd_unless (by decide) hk

theorem SameInputs.needPalette (hk : SameEnd s s' k k') :
    SameEnd s s' (s.needPalette k) (s'.needPalette k') := by
  simp only [State.needPalette, h.latched]
  exact sameEnd_unless (by decide) hk

theorem SameInputs.needLength {bad bad' : Bool} (hb : bad' = bad) (hk : SameEnd s s' k k') :
    SameEnd s s' (s.needLength bad k) (s'.needLength bad' k') := by
  simp only [State.needLength, h.latched, hb]
  exact sameEnd_unless (by decide) hk

theorem SameInputs.needImage (hk : SameEnd s s' k k') :
    SameEnd s s' (s.needImage k) (s'.needImage k') := by
  simp only [State.needImage, h.latched]
  exact sameEnd_unless (by decide) (h.needLength rfl hk)

/-- The footprint check looks at the latched arguments and MEM_SIZE only. -/
theorem SameInputs.access (hk : SameEnd s s' k k') :
    SameEnd s s' (s.access i k) (s'.access i k') := by
  simp only [State.access, h.latched, h.memSize]
  cases (footprint i s.latched.args).firstOutside s.memSize with
  | none => exact hk
  | some r => exact sameEnd_error (by decide) _

end SameInputs

/-- The LEN bytes at SRC, for a command that reads them (R141). -/
theorem SameInputs.buffer {i : Instr} {s s' : State} (h : SameInputs i s s')
    (hr : ⟨s.latched.args.src, s.latched.args.len.toNat⟩ ∈ (footprint i s.latched.args).reads) :
    s.buffer = s'.buffer := by
  rw [State.buffer, State.buffer, h.latched, (h.reads _ hr).readBytes]

theorem decbOutputs_congr {g : PixelFormat} {d : Diag} {x : Args} {m m' : Memory}
    (h : SameOn m m' ⟨x.src, g.blockBytes⟩) : decbOutputs g d x m = decbOutputs g d x m' := by
  rw [decbOutputs, decbOutputs, h.readBytes]

theorem decbIndexedOutputs_congr {f : PixelFormat} {p : PaletteFormat} {x : Args} {m m' : Memory}
    (h : SameOn m m' ⟨x.src, 32⟩) (ha : SameOn m m' ⟨x.aux, 2 * x.pallen.toNat⟩) :
    decbIndexedOutputs f p x m = decbIndexedOutputs f p x m' := by
  rw [decbIndexedOutputs, decbIndexedOutputs, h.readBytes, ha.readHalves]

theorem prangeOutputs_congr {f : PixelFormat} {pp : Bool} {x : Args} {m m' : Memory}
    (h : SameOn m m' ⟨x.src, x.len.toNat⟩) : prangeOutputs f pp x m = prangeOutputs f pp x m' := by
  rw [prangeOutputs, prangeOutputs, h.readBytes]

/-- CPAL reads its two colours with F = 1, and nothing with F = 0 (R113). -/
theorem cpalPalette_congr {f : Bool} {x : Args} {m m' : Memory}
    (h : f = true → SameOn m m' ⟨x.src, 8⟩) : cpalPalette f x m = cpalPalette f x m' := by
  cases f with
  | false => rfl
  | true =>
    have h8 := h rfl
    have h0 := h8.readColor 0 (by decide)
    have h4 := h8.readColor 4 (by decide)
    rw [Nat.add_zero] at h0
    simp only [cpalPalette, h0, h4]

/-- A format and its grey counterpart have blocks of one size, so a DECB without a palette reads its
block only (R53, R87). -/
theorem grey_blockBytes (f : PixelFormat) : f.grey.blockBytes = f.blockBytes := by cases f <;> rfl

/-- The core of R13: one engine step of command i from two states with the same inputs ends in one
way. Each check looks at the inputs only, and so do the outputs. -/
theorem SameInputs.exec {i : Instr} {s s' : State} (h : SameInputs i s s') :
    ∃ t t', Machine.exec i s = .next t ∧ Machine.exec i s' = .next t' ∧ SameEnd s s' t t' := by
  cases i <;> refine ⟨_, _, rfl, rfl, ?_⟩
  case nop => exact sameEnd_complete rfl
  case desc fmt => exact sameEnd_withFormat fun f _ => sameEnd_complete rfl
  case palmax fmt =>
    exact sameEnd_withFormat fun f _ => sameEnd_unless (by decide) <| sameEnd_complete rfl
  case dsize fmt lvl | tsize fmt lvl =>
    exact sameEnd_withFormat fun f _ => h.needDim <| sameEnd_complete (by rw [h.latched])
  case mipcnt fmt =>
    refine sameEnd_withFormat fun f _ => h.needDim ?_
    rw [h.latched]
    exact sameEnd_unless (by decide) <| sameEnd_complete rfl
  case decb fmt pfmt pp =>
    refine sameEnd_withFormat fun f hf => ?_
    have hreads := h.reads
    simp only [footprint, decbFootprint, hf] at hreads
    split
    next hpal =>
      rw [if_pos hpal] at hreads
      exact sameEnd_withPaletteFormat fun p => h.needPalette <| h.access <| sameEnd_complete (by
        rw [h.latched,
          decbIndexedOutputs_congr (hreads _ (.head _)) (hreads _ (.tail _ (.head _)))])
    next hpal =>
      rw [if_neg hpal, ← grey_blockBytes] at hreads
      exact h.access <| sameEnd_complete (by
        rw [h.latched, decbOutputs_congr (hreads _ (.head _))])
  case deci fmt =>
    exact sameEnd_withFormat fun f _ => sameEnd_unless (by decide) <| h.access <|
      sameEnd_complete (by rw [h.latched, (h.reads _ (.head _)).readBytes])
  case encb fmt =>
    refine sameEnd_withFormat fun f hf => sameEnd_unless (by decide) <| h.access <|
      sameEnd_complete ?_
    have hsrc := h.reads ⟨s.latched.args.src, 4 * f.npix⟩ (by simp [footprint, hf])
    rw [h.latched, hsrc.readColors]
  case enci fmt =>
    refine sameEnd_withFormat fun f hf => sameEnd_unless (by decide) <| h.access ?_
    have hsrc := h.reads ⟨s.latched.args.src, 2 * f.npix⟩ (by simp [footprint, hf])
    dsimp only
    rw [h.latched, hsrc.readHalves]
    split
    · exact sameEnd_error (by decide) _
    · exact sameEnd_complete rfl
  case cdec4 =>
    exact h.access <| sameEnd_complete (by rw [h.latched, (h.reads _ (.head _)).readBytes])
  case ckey | cenc4 =>
    exact h.access <| sameEnd_complete (by rw [h.latched, (h.reads _ (.head _)).readColors 16])
  case cpal f =>
    refine h.access <| sameEnd_complete ?_
    rw [h.latched, cpalPalette_congr fun hf => h.reads _ (by simp [footprint, hf])]
  case cidx =>
    exact h.access <| sameEnd_complete (by
      rw [h.latched, (h.reads _ (.head _)).readColors 16,
        (h.reads _ (.tail _ (.head _))).readColors 4])
  case qdist =>
    have hsrc := (h.reads _ (.head _)).readColor 0 (by decide)
    have haux := (h.reads _ (.tail _ (.head _))).readColor 0 (by decide)
    rw [Nat.add_zero] at hsrc haux
    exact h.access <| sameEnd_complete (by rw [h.latched, hsrc, haux])
  case qavg =>
    exact h.needLength (by rw [h.latched]) <| h.access <|
      sameEnd_complete (by rw [h.latched, (h.reads _ (.head _)).readColors])
  case qnear =>
    rw [h.latched]
    exact sameEnd_unless (by decide) <| h.needPalette <| h.access <| sameEnd_complete (by
      rw [(h.reads _ (.head _)).readColors, (h.reads _ (.tail _ (.head _))).readColors])
  case qpal f qsel =>
    exact sameEnd_withPaletteSize fun m => h.needLength (by rw [h.latched, h.qpopMax]) <|
      h.access <| sameEnd_complete (by rw [h.latched, (h.reads _ (.head _)).readColors])
  case xswp =>
    exact h.needLength (by rw [h.latched]) <| h.access <|
      sameEnd_complete (by rw [h.buffer (.head _)])
  case xreo | xred | x2c | c2x =>
    exact h.needImage <| h.access <| sameEnd_complete (by rw [h.latched, h.buffer (.head _)])
  case pdec pfmt =>
    exact sameEnd_withPaletteFormat fun p => h.access <|
      sameEnd_complete (by rw [h.latched, (h.reads _ (.head _)).readHalves])
  case penc pfmt =>
    exact sameEnd_withPaletteFormat fun p => h.access <|
      sameEnd_complete (by rw [h.latched, (h.reads _ (.head _)).readColors])
  case prange fmt pp =>
    exact sameEnd_withFormat fun f _ => sameEnd_unless (by decide) <| h.needPalette <|
      h.needLength (by rw [h.latched]) <| h.access <|
      sameEnd_complete (by rw [h.latched, prangeOutputs_congr (h.reads _ (.head _))])

/-- The step of a word that is no command looks at the word only. -/
theorem rejectWord_sameError (s s' : State) (e : DecodeError) :
    ∃ c v, c ≠ ErrCode.none ∧ s.rejectWord e = s.errorComplete c v ∧
      s'.rejectWord e = s'.errorComplete c v := by
  cases e with
  | opcode op => exact ⟨_, _, by decide, rfl, rfl⟩
  | reserved bits => exact ⟨_, _, by decide, rfl, rfl⟩

/-- Settles O19: the steps of a command from two states with the same inputs end in one way, with
one error or with one set of outputs, and a completion's claims are those of its outputs. -/
theorem resultDependsOnlyOnInputs : Obligations.ResultDependsOnlyOnInputs := by
  refine ⟨fun i s s' hl hm hq hreads => ?_, fun s s' e hl he => ?_⟩
  · have h : SameInputs i s s' := ⟨hl.symm, hm.symm, hq.symm, hreads⟩
    obtain ⟨t, t', ht, ht', ⟨c, v, hc, rfl, rfl⟩ | ⟨o, rfl, rfl⟩⟩ := h.exec
    · exact .inl ⟨c, v, hc, ht, ht'⟩
    · exact .inr ⟨_, _, o.diag, o.bytes, o.res0, o.res1, o.res2, o.res3, ht, ht',
        complete_completion s o, complete_completion s' o⟩
  · obtain ⟨c, v, hc, hs, hs'⟩ := rejectWord_sameError s s' e
    refine ⟨c, v, hc, ?_, ?_⟩
    · simp only [engineStep, he, hs, erred_eq]
    · simp only [engineStep, ← hl, he, hs', erred_eq]

end Sys2Proof.Machine
end

section
/-! PROOFS of the statements about spec/42_block_codecs.md: narrowing and INTENSITY (R74, R75), and that
encoding and decoding a block of a direct format are inverse to each other (R88). -/

namespace Sys2Proof.Machine

/-! ### Narrowing (R74) -/

/-- Narrowing drops the low 8 - n bits of a channel. -/
theorem narrow_toNat {n : Nat} (h : n ≤ 8) (c : Byte) :
    (narrow n c).toNat = c.toNat / 2 ^ (8 - n) := by
  have hlt : c.toNat / 2 ^ (8 - n) < 2 ^ n := by
    rw [Nat.div_lt_iff_lt_mul (Nat.two_pow_pos _), ← Nat.pow_add, Nat.add_sub_cancel' h]
    exact c.isLt
  rw [narrow, BitVec.toNat_setWidth, BitVec.toNat_ushiftRight, Nat.shiftRight_eq_div_pow,
    Nat.mod_eq_of_lt hlt]

@[simp] theorem narrow_expand3 : ∀ a, narrow 3 (expand3 a) = a := by decide
@[simp] theorem narrow_expand5 : ∀ v, narrow 5 (expand5 v) = v := by decide
@[simp] theorem narrow_expand6 : ∀ v, narrow 6 (expand6 v) = v := by decide
@[simp] theorem narrow_rep4 : ∀ v, narrow 4 (rep4 v) = v := by decide
@[simp] theorem narrow_shl4 : ∀ v, narrow 4 (shl4 v) = v := by decide

/-- Settles O45: R74's shift is a division, and each widening keeps its argument in the high bits. -/
theorem narrowingInvertsWidening : Obligations.NarrowingInvertsWidening := by
  refine ⟨fun c n hn => narrow_toNat ?_ c, narrow_expand5, narrow_expand6, narrow_rep4, narrow_shl4,
    narrow_expand3⟩
  have hle : ∀ m ∈ [3, 4, 5, 6], m ≤ 8 := by decide
  exact hle n hn

/-! ### INTENSITY (R75) -/

/-- Law (L1): INTENSITY does not look at alpha. -/
@[simp] theorem intensity_setAlpha (c : Color) (a : Byte) :
    intensity { c with a := a } = intensity c := rfl

/-- Law (L2): a grey colour keeps its level. -/
@[simp] theorem intensity_greyColor (v a : Byte) : intensity (greyColor v a) = v := by
  simp [intensity, greyColor]

/-- Settles O44 with the laws (L1) and (L2). -/
theorem intensityLaws : Obligations.IntensityLaws :=
  ⟨intensity_setAlpha, intensity_greyColor⟩

@[simp] theorem greyColor_a (v a : Byte) : (greyColor v a).a = a := rfl

/-! ### One 16-bit word -/

/-- The bytes of a big-endian value are the two it was made of. -/
@[simp] theorem halfBytes_be16 (hi lo : Byte) : halfBytes (be16 hi lo) = [hi, lo] := by
  have hhi : (be16 hi lo).extractLsb' 8 8 = hi := BitVec.extractLsb'_append_eq_left
  have hlo : (be16 hi lo).extractLsb' 0 8 = lo := BitVec.extractLsb'_append_eq_right
  rw [halfBytes, hhi, hlo]

/-- A value is made of its two bytes. -/
@[simp] theorem be16_extractLsb' (v : Half) :
    be16 (v.extractLsb' 8 8) (v.extractLsb' 0 8) = v :=
  BitVec.extractLsb'_append_extractLsb' (w := 8) (len := 8)

/-- The IA8 word of a decoded IA8 word is that word. -/
@[simp] theorem encIA8_decIA8 (v : Half) : encIA8 (decIA8 v) = v := by
  have hlevel : intensity (decIA8 v) = v.extractLsb' 0 8 := intensity_greyColor _ _
  rw [encIA8, hlevel]
  exact be16_extractLsb' v

/-- The RGB565 word of a decoded RGB565 word is that word. -/
@[simp] theorem enc565_dec565 (v : Half) : enc565 (dec565 v) = v := by
  simp only [enc565, dec565, narrow_expand5, narrow_expand6]
  rw [BitVec.extractLsb'_append_extractLsb'_eq_extractLsb' (by decide),
    BitVec.extractLsb'_append_extractLsb'_eq_extractLsb' (by decide)]
  exact BitVec.extractLsb'_eq_self

/-! ### RGB5A3 -/

/-- The colours that an opaque word of RGB5A3 holds exactly: the first condition of `enc5A3` (R82). -/
def ExactOpaque5A3 (p : Color) : Prop :=
  p.a = 255 ∧ p.r = expand5 (narrow 5 p.r) ∧ p.g = expand5 (narrow 5 p.g) ∧
    p.b = expand5 (narrow 5 p.b)

/-- The colours that an alpha-mode word of RGB5A3 holds exactly: the second condition of `enc5A3`
(R82). -/
def ExactAlpha5A3 (p : Color) : Prop :=
  p.a = expand3 (narrow 3 p.a) ∧ p.r.toNat % 16 = 0 ∧ p.g.toNat % 16 = 0 ∧ p.b.toNat % 16 = 0

/-- A colour that an opaque word holds exactly encodes as that word, even where an alpha-mode word
holds it too. -/
theorem enc5A3_of_exactOpaque {p : Color} (h : ExactOpaque5A3 p) : enc5A3 p = opaque5A3 p :=
  if_pos h

/-- A colour that only an alpha-mode word holds exactly encodes as that word. -/
theorem enc5A3_of_exactAlpha {p : Color} (ho : ¬ ExactOpaque5A3 p) (h : ExactAlpha5A3 p) :
    enc5A3 p = alpha5A3 p :=
  (if_neg ho).trans (if_pos h)

@[simp] theorem opaque5A3_mode (p : Color) : (opaque5A3 p).getLsbD 15 = true := by
  simp only [opaque5A3, BitVec.getLsbD_append]
  rfl

@[simp] theorem alpha5A3_mode (p : Color) : (alpha5A3 p).getLsbD 15 = false := by
  simp only [alpha5A3, BitVec.getLsbD_append]
  rfl

/-- An opaque word decodes to its colour with each channel cut to five bits. -/
theorem dec5A3_opaque5A3 (p : Color) :
    dec5A3 (opaque5A3 p) = ⟨expand5 (narrow 5 p.r), expand5 (narrow 5 p.g), expand5 (narrow 5 p.b),
      255⟩ := by
  rw [dec5A3, if_pos (opaque5A3_mode p)]
  simp (disch := decide) only [opaque5A3, BitVec.extractLsb'_append_eq_of_le, Nat.sub_self,
    Nat.reduceSub, BitVec.extractLsb'_append_eq_right]

/-- An alpha-mode word decodes to its colour with alpha cut to three bits and each other channel to
four. -/
theorem dec5A3_alpha5A3 (p : Color) :
    dec5A3 (alpha5A3 p) = ⟨shl4 (narrow 4 p.r), shl4 (narrow 4 p.g), shl4 (narrow 4 p.b),
      expand3 (narrow 3 p.a)⟩ := by
  rw [dec5A3, alpha5A3_mode, if_neg Bool.false_ne_true]
  simp (disch := decide) only [alpha5A3, BitVec.extractLsb'_append_eq_of_le, Nat.sub_self,
    Nat.reduceSub, BitVec.extractLsb'_append_eq_right]

theorem shl4_toNat_mod (v : BitVec 4) : (shl4 v).toNat % 16 = 0 := by
  revert v
  decide

/-- A channel whose low four bits are 0 is exact in four bits. -/
theorem shl4_narrow {c : Byte} (h : c.toNat % 16 = 0) : shl4 (narrow 4 c) = c := by
  revert c
  decide

/-- The colour of every RGB5A3 word is one that an opaque or an alpha-mode word holds exactly. -/
theorem exact5A3_dec5A3 (v : Half) : ExactOpaque5A3 (dec5A3 v) ∨ ExactAlpha5A3 (dec5A3 v) := by
  rw [dec5A3]
  split
  · exact .inl (by simp [ExactOpaque5A3])
  · exact .inr (by simp [ExactAlpha5A3, shl4_toNat_mod])

/-- Decoding the word of a colour that RGB5A3 holds exactly gives the colour back. -/
theorem dec5A3_enc5A3 {p : Color} (h : ExactOpaque5A3 p ∨ ExactAlpha5A3 p) :
    dec5A3 (enc5A3 p) = p := by
  by_cases ho : ExactOpaque5A3 p
  · obtain ⟨ha, hr, hg, hb⟩ := ho
    rw [enc5A3_of_exactOpaque ⟨ha, hr, hg, hb⟩, dec5A3_opaque5A3, ← hr, ← hg, ← hb, ← ha]
  · obtain ⟨ha, hr, hg, hb⟩ := h.resolve_left ho
    rw [enc5A3_of_exactAlpha ho ⟨ha, hr, hg, hb⟩, dec5A3_alpha5A3, shl4_narrow hr, shl4_narrow hg,
      shl4_narrow hb, ← ha]

/-- The exception of R88: an alpha-mode word with alpha 7 whose channels are exact in five bits comes
back as an opaque word. -/
theorem enc5A3_dec5A3_mode {v : Half} (hmode : v.getLsbD 15 = false) (ha : v.extractLsb' 12 3 = 7)
    (hk : ∀ k ∈ [Color.r, Color.g, Color.b], expand5 (narrow 5 (k (dec5A3 v))) = k (dec5A3 v)) :
    (enc5A3 (dec5A3 v)).getLsbD 15 = true := by
  have halpha : (dec5A3 v).a = 255 := by
    simp only [dec5A3, hmode, ha]
    rfl
  have hexact : ExactOpaque5A3 (dec5A3 v) :=
    ⟨halpha, (hk _ (by simp)).symm, (hk _ (by simp)).symm, (hk _ (by simp)).symm⟩
  rw [enc5A3_of_exactOpaque hexact, opaque5A3_mode]

/-! ### Byte lists -/

/-- A byte list is its bytes in order. -/
theorem map_byteAt_range {b : List Byte} {n : Nat} (h : b.length = n) :
    (List.range n).map (byteAt b) = b := by
  subst h
  refine List.ext_getElem (by simp) fun k _ hk => ?_
  simp [byteAt, hk]

/-- The values of a function taken two at a time. -/
theorem flatMap_range_pair {α : Type} (g : Nat → α) (n : Nat) :
    (List.range n).flatMap (fun i => [g (2 * i), g (2 * i + 1)]) = (List.range (2 * n)).map g := by
  induction n with
  | zero => rfl
  | succ n ih => simp [List.range_succ, Nat.mul_succ, ih]

/-- The two nibbles of a byte make the byte. -/
theorem nibbleAt_append (b : List Byte) (k : Nat) :
    nibbleAt b (2 * k) ++ nibbleAt b (2 * k + 1) = byteAt b k := by
  have hhi : nibbleAt b (2 * k) = (byteAt b k).extractLsb' 4 4 := by simp [nibbleAt]
  have hlo : nibbleAt b (2 * k + 1) = (byteAt b k).extractLsb' 0 4 := by
    rw [nibbleAt, if_neg (by omega), show (2 * k + 1) / 2 = k by omega]
  rw [hhi, hlo]
  exact BitVec.extractLsb'_append_extractLsb' (w := 4) (len := 4)

/-- Packing the nibbles of a byte list gives the list back (R76, R84). -/
theorem packNibbles_nibbleAt {b : List Byte} {n : Nat} (h : b.length = n) :
    packNibbles ((List.range (2 * n)).map (nibbleAt b)) = b := by
  have hbyte : ∀ k ∈ List.range n,
      ((List.range (2 * n)).map (nibbleAt b)).getD (2 * k) 0 ++
        ((List.range (2 * n)).map (nibbleAt b)).getD (2 * k + 1) 0 = byteAt b k := by
    intro k hk
    have hlt : k < n := List.mem_range.1 hk
    rw [← nibbleAt_append, List.getD_eq_getElem _ _ (by simp; omega),
      List.getD_eq_getElem _ _ (by simp; omega)]
    simp
  rw [packNibbles, List.length_map, List.length_range, Nat.mul_div_cancel_left _ (by decide),
    List.map_congr_left hbyte, map_byteAt_range h]

/-- The values of a byte list, written out again, give the list back (R35). -/
theorem indexBytes_halfAt {b : List Byte} {n : Nat} (h : b.length = 2 * n) :
    indexBytes ((List.range n).map fun i => halfAt b (2 * i)) = b := by
  simp only [indexBytes, List.flatMap_map, halfAt, halfBytes_be16]
  rw [flatMap_range_pair (byteAt b), map_byteAt_range h]

/-- Value i of a list written out as bytes (R35, R37). -/
theorem halfAt_indexBytes (vs : List Half) (i : Nat) :
    halfAt (indexBytes vs) (2 * i) = vs.getD i 0 := by
  induction vs generalizing i with
  | nil =>
    simp only [halfAt, byteAt, indexBytes, List.flatMap_nil, List.getD_nil]
    rfl
  | cons v vs ih =>
    cases i with
    | zero => exact be16_extractLsb' v
    | succ i => exact ih i

/-! ### Blocks (R88) -/

theorem encodeBlock_ia8 (ps : List Color) : encodeBlock .ia8 ps = indexBytes (ps.map encIA8) := by
  rw [indexBytes, List.flatMap_map]
  rfl

theorem encodeBlock_rgb565 (ps : List Color) :
    encodeBlock .rgb565 ps = indexBytes (ps.map enc565) := by
  rw [indexBytes, List.flatMap_map]
  rfl

theorem encodeBlock_rgb5a3 (ps : List Color) :
    encodeBlock .rgb5a3 ps = indexBytes (ps.map enc5A3) := by
  rw [indexBytes, List.flatMap_map]
  rfl

/-- The halves of an RGBA32 block, one pair of bytes for each pixel, are the block (R83). -/
theorem rgba32_halves {b : List Byte} (h : b.length = 64) :
    ((List.range 16).flatMap fun i => [byteAt b (2 * i), byteAt b (2 * i + 1)]) ++
      ((List.range 16).flatMap fun i => [byteAt b (32 + 2 * i), byteAt b (33 + 2 * i)]) = b := by
  have hgb : ∀ i, 33 + 2 * i = 32 + (2 * i + 1) := by omega
  simp only [hgb]
  rw [flatMap_range_pair (byteAt b), flatMap_range_pair fun k => byteAt b (32 + k)]
  calc (List.range 32).map (byteAt b) ++ (List.range 32).map (fun k => byteAt b (32 + k))
      = (List.range (32 + 32)).map (byteAt b) := by
        rw [List.range_add, List.map_append, List.map_map]; rfl
    _ = b := map_byteAt_range h

/-- Encoding the pixels of a block gives the block back, for every direct format but CMPR and
RGB5A3. -/
theorem encodeBlock_decodeBlock {f : PixelFormat} {b : List Byte} (hi : f.indexed = false)
    (hc : f ≠ .cmpr) (hx : f ≠ .rgb5a3) (hb : b.length = f.blockBytes) :
    encodeBlock f (decodeBlock f b) = b := by
  cases f with
  | i4 =>
    rw [encodeBlock, decodeBlock, List.map_map]
    simp only [Function.comp_def, decodePixel, intensity_greyColor, narrow_rep4]
    exact packNibbles_nibbleAt (n := 32) hb
  | i8 =>
    rw [encodeBlock, decodeBlock, List.map_map]
    simp only [Function.comp_def, decodePixel, intensity_greyColor]
    exact map_byteAt_range (n := 32) hb
  | ia4 =>
    have hbyte : ∀ i, narrow 4 (decodePixel .ia4 b i).a ++
        narrow 4 (intensity (decodePixel .ia4 b i)) = byteAt b i := by
      intro i
      simp only [decodePixel, intensity_greyColor, greyColor_a, narrow_rep4]
      exact BitVec.extractLsb'_append_extractLsb' (w := 4) (len := 4)
    rw [encodeBlock, decodeBlock, List.map_map]
    simp only [Function.comp_def, hbyte]
    exact map_byteAt_range (n := 32) hb
  | ia8 =>
    rw [encodeBlock_ia8, decodeBlock, List.map_map]
    simp only [Function.comp_def, decodePixel, encIA8_decIA8]
    exact indexBytes_halfAt (n := 16) hb
  | rgb565 =>
    rw [encodeBlock_rgb565, decodeBlock, List.map_map]
    simp only [Function.comp_def, decodePixel, enc565_dec565]
    exact indexBytes_halfAt (n := 16) hb
  | rgba32 =>
    rw [encodeBlock, decodeBlock, List.flatMap_map, List.flatMap_map]
    exact rgba32_halves hb
  | rgb5a3 => exact absurd rfl hx
  | cmpr => exact absurd rfl hc
  | c4 | c8 | c14x2 => cases hi

/-- Decoding the encoding of sixteen colours takes each one through its RGB5A3 word. -/
theorem decodeBlock_encodeBlock_rgb5a3 {ps : List Color} (h : ps.length = 16) :
    decodeBlock .rgb5a3 (encodeBlock .rgb5a3 ps) = ps.map fun p => dec5A3 (enc5A3 p) := by
  refine List.ext_getElem (by simp [h]; rfl) fun k _ hk => ?_
  rw [List.length_map] at hk
  simp only [decodeBlock, decodePixel, encodeBlock_rgb5a3, halfAt_indexBytes, List.getElem_map,
    List.getElem_range]
  rw [List.getD_eq_getElem _ _ (by simpa using hk), List.getElem_map]

/-- Every pixel of an RGB5A3 block comes back from its encoding. -/
theorem decode_encode_decode_rgb5a3 (b : List Byte) :
    decodeBlock .rgb5a3 (encodeBlock .rgb5a3 (decodeBlock .rgb5a3 b)) = decodeBlock .rgb5a3 b := by
  rw [decodeBlock_encodeBlock_rgb5a3 (decodeBlock_length _ b), decodeBlock, List.map_map]
  exact List.map_congr_left fun i _ => dec5A3_enc5A3 (exact5A3_dec5A3 _)

/-- Settles O42: encoding inverts decoding but for RGB5A3, so that decoding inverts encoding on decoded
pixels; for RGB5A3 this holds pixel by pixel, because the first mode of R82 that holds a colour exactly is
chosen. -/
theorem directFormatsRoundTrip : Obligations.DirectFormatsRoundTrip := by
  refine ⟨fun f hi hc b hb => ?_, fun v => enc5A3_dec5A3_mode, by decide, by decide⟩
  by_cases hx : f = .rgb5a3
  · subst hx
    exact ⟨decode_encode_decode_rgb5a3 b, fun hne => absurd rfl hne⟩
  · have hback := encodeBlock_decodeBlock hi hc hx hb
    exact ⟨congrArg (decodeBlock f) hback, fun _ => hback⟩

end Sys2Proof.Machine
end

section
/-! PROOFS of the statements about spec/43_cmpr.md: the local palette (R99 to R101), how a sub-block's
pixels are decoded (R96, R97, R102), the key-colour selector (R105, R107 to R110) and the index field
(R114). -/

namespace Sys2Proof.Machine

/-! ### Local palette (R80, R98 to R101) -/

/-- The two shifts of a 5-bit channel in plain arithmetic (R71). -/
theorem expand5_toNat : ∀ v, (expand5 v).toNat = 8 * v.toNat + v.toNat / 4 := by decide

/-- The two shifts of a 6-bit channel in plain arithmetic (R71). -/
theorem expand6_toNat : ∀ v, (expand6 v).toNat = 4 * v.toNat + v.toNat / 16 := by decide

@[simp] theorem dec565_a (v : Half) : (dec565 v).a = 255 := rfl

/-- The channels of an RGB565 word in plain arithmetic (R80). -/
theorem dec565_toNat (v : Half) :
    (dec565 v).r.toNat = 8 * (v.toNat / 2048) + v.toNat / 2048 / 4 ∧
    (dec565 v).g.toNat = 4 * (v.toNat / 32 % 64) + v.toNat / 32 % 64 / 16 ∧
    (dec565 v).b.toNat = 8 * (v.toNat % 32) + v.toNat % 32 / 4 := by
  have hred : v.toNat / 2048 % 32 = v.toNat / 2048 := Nat.mod_eq_of_lt (by omega)
  simp [dec565, expand5_toNat, expand6_toNat, Nat.shiftRight_eq_div_pow, hred]

/-- Twice one byte and another, divided by three, fit in a byte: a blend does not wrap (R99). -/
theorem blend21Channel_toNat (x y : Byte) :
    (blend21Channel x y).toNat = (2 * x.toNat + y.toNat) / 3 := by
  rw [blend21Channel, BitVec.toNat_ofNat, Nat.mod_eq_of_lt (by omega)]

/-- The mean of two bytes fits in a byte (R99). -/
theorem avgChannel_toNat (x y : Byte) : (avgChannel x y).toNat = (x.toNat + y.toNat) / 2 := by
  rw [avgChannel, BitVec.toNat_ofNat, Nat.mod_eq_of_lt (by omega)]

theorem localPalette_fourColour (p q : Color) :
    localPalette p q true = [p, q, blend21 p q, blend21 q p] := rfl

theorem localPalette_threeColour (p q : Color) :
    localPalette p q false = [p, q, avgColor p q, { avgColor p q with a := 0 }] := rfl

/-- The decoder's palette in 4-colour mode (R101). -/
theorem decPalette_of_gt {r0 r1 : Half} (h : r1.toNat < r0.toNat) :
    decPalette r0 r1 = [dec565 r0, dec565 r1, blend21 (dec565 r0) (dec565 r1),
      blend21 (dec565 r1) (dec565 r0)] := by
  rw [decPalette, fourColour, decide_eq_true h, localPalette_fourColour]

/-- The decoder's palette in 3-colour mode (R101). -/
theorem decPalette_of_le {r0 r1 : Half} (h : r0.toNat ≤ r1.toNat) :
    decPalette r0 r1 = [dec565 r0, dec565 r1, avgColor (dec565 r0) (dec565 r1),
      { avgColor (dec565 r0) (dec565 r1) with a := 0 }] := by
  rw [decPalette, fourColour, decide_eq_false (Nat.not_lt.2 h), localPalette_threeColour]

/-- Settles O46: entries 2 and 3 of the decoder's palette are the blends of the mode that the key words
select. -/
theorem decoderPaletteRule : Obligations.DecoderPaletteRule := by
  refine ⟨fun p q => ⟨localPalette_fourColour p q, localPalette_threeColour p q⟩, fun v => ?_,
    fun r0 r1 => ?_⟩
  · obtain ⟨hr, hg, hb⟩ := dec565_toNat v
    exact ⟨hr, hg, hb, dec565_a v⟩
  · rcases Nat.lt_or_ge r1.toNat r0.toNat with hfour | hthree
    · refine ⟨blend21 (dec565 r0) (dec565 r1), blend21 (dec565 r1) (dec565 r0), rfl,
        decPalette_of_gt hfour, rfl, rfl, rfl, ?_⟩
      simp [blend21, blend21Channel_toNat, hfour, Nat.not_le.2 hfour]
    · refine ⟨avgColor (dec565 r0) (dec565 r1), { avgColor (dec565 r0) (dec565 r1) with a := 0 }, rfl,
        decPalette_of_le hthree, rfl, rfl, rfl, ?_⟩
      simp [avgColor, avgChannel_toNat, hthree, Nat.not_lt.2 hthree]

/-! ### Decoding a sub-block (R96, R97, R102) -/

theorem halfAt_highByte (b : List Byte) (k : Nat) :
    (halfAt b k).extractLsb' 8 8 = byteAt b k := BitVec.extractLsb'_append_eq_left

theorem halfAt_lowByte (b : List Byte) (k : Nat) :
    (halfAt b k).extractLsb' 0 8 = byteAt b (k + 1) := BitVec.extractLsb'_append_eq_right

/-- Byte j of a big-endian word, counted from the most significant one (R35). -/
theorem wordAt_byte (b : List Byte) (k : Nat) {j : Nat} (h : j < 4) :
    (wordAt b k).extractLsb' (24 - 8 * j) 8 = byteAt b (k + j) := by
  match j, h with
  | 0, _ => exact (BitVec.extractLsb'_append_eq_of_le (by decide)).trans (halfAt_highByte b k)
  | 1, _ => exact (BitVec.extractLsb'_append_eq_of_le (by decide)).trans (halfAt_lowByte b k)
  | 2, _ =>
    exact (BitVec.extractLsb'_append_eq_of_add_le (by decide)).trans (halfAt_highByte b (k + 2))
  | 3, _ =>
    exact (BitVec.extractLsb'_append_eq_of_add_le (by decide)).trans (halfAt_lowByte b (k + 2))

/-- Index p of an index field, read from byte p div 4 of the field (R96). -/
theorem indexOf_eq_byte (w : Word) {p : Nat} (h : p < 16) :
    indexOf w p = (w.extractLsb' (24 - 8 * (p / 4)) 8).toNat / 4 ^ (3 - p % 4) % 4 := by
  have hshift : 30 - 2 * p = (24 - 8 * (p / 4)) + 2 * (3 - p % 4) := by omega
  have hpow : (4 : Nat) ^ (3 - p % 4) = 2 ^ (2 * (3 - p % 4)) := by rw [Nat.pow_mul]
  have hbyte : (2 : Nat) ^ 8 = 2 ^ (2 * (3 - p % 4)) * 2 ^ (2 * (p % 4) + 2) := by
    rw [← Nat.pow_add]; congr 1; omega
  rw [indexOf, hshift, hpow, BitVec.extractLsb'_toNat, BitVec.extractLsb'_toNat,
    Nat.shiftRight_add, Nat.shiftRight_eq_div_pow _ (2 * _), hbyte, Nat.mod_mul_right_div_self,
    Nat.mod_mod_of_dvd _ (Dvd.intro_left _ (Nat.pow_add ..).symm)]

/-- Pixel p of a sub-block (R102). -/
theorem decodeSub_getElem? (b : List Byte) {p : Nat} (h : p < 16) :
    (decodeSub b)[p]? = (decPalette (halfAt b 0) (halfAt b 2))[indexOf (wordAt b 4) p]? := by
  have hlt : indexOf (wordAt b 4) p < (decPalette (halfAt b 0) (halfAt b 2)).length := by
    rw [decPalette_length]
    exact ((wordAt b 4).extractLsb' (30 - 2 * p) 2).isLt
  rw [List.getElem?_eq_getElem hlt, decodeSub, List.getElem?_map, List.getElem?_range h,
    Option.map_some, List.getD_eq_getElem _ _ hlt]

/-- Sub-block q of a block that holds it whole, byte by byte (R97). -/
theorem subBlock_eq_map {b : List Byte} {q : Nat} (h : 8 * q + 8 ≤ b.length) :
    subBlock b q = (List.range 8).map fun k => byteAt b (8 * q + k) := by
  refine List.ext_getElem (by simp [subBlock]; omega) fun k _ hk => ?_
  have hlt : 8 * q + k < b.length := by simp at hk; omega
  simp [subBlock, byteAt, hlt]

/-- Settles O47: the index of a pixel lies within one byte of the index field, and a block's sub-blocks
lie one after the other. -/
theorem subBlockDecoding : Obligations.SubBlockDecoding := by
  refine ⟨decodeSub_length, fun b p hp => ?_, fun b x y hb hx hy => ?_⟩
  · rw [decodeSub_getElem? b hp, indexOf_eq_byte _ hp, wordAt_byte b 4 (by omega)]
    rfl
  · have hrow : (8 * y + x) / 8 = y := by omega
    have hcol : (8 * y + x) % 8 = x := by omega
    have hpix : 4 * (y % 4) + x % 4 < 16 := by omega
    rw [decodePixel, cmprPixel, hrow, hcol, subBlock_eq_map (by omega),
      List.getD_eq_getElem _ _ (by simpa using hpix), List.getElem?_eq_getElem]

/-! ### Key-colour selector: survivors and picks (R105, R107 to R109) -/

/-- A list with the positions of its elements, position by position. -/
theorem zipIdx_eq_map_range (ps : List Color) (c : Color) :
    ps.zipIdx = (List.range ps.length).map fun p => (ps.getD p c, p) := by
  refine List.ext_getElem (by simp) fun k hk _ => ?_
  rw [List.length_zipIdx] at hk
  simp [hk]

/-- The survivors are the in-bounds pixels with A ≥ 16 in pixel order (R105, R107). -/
theorem survivors_eq_map (ps : List Color) (inb : Nat → Bool) (c : Color) :
    survivors ps inb =
      ((List.range ps.length).filter fun p => inb p && decide (16 ≤ (ps.getD p c).a.toNat)).map
        fun p => ps.getD p c := by
  simp only [survivors, coveredPixels, zipIdx_eq_map_range ps c, List.filter_map, List.map_map,
    List.filter_filter, Function.comp_def, punchThrough, ← decide_not, Nat.not_lt, Bool.and_comm]

/-- A sub-block needs punch-through where some in-bounds pixel has A < 16 (R105). -/
theorem needsPunchThrough_iff (ps : List Color) (inb : Nat → Bool) :
    needsPunchThrough ps inb = true ↔ ∃ p c, ps[p]? = some c ∧ inb p = true ∧ c.a.toNat < 16 := by
  simp only [needsPunchThrough, coveredPixels, List.any_map, List.any_filter, List.any_eq_true,
    Function.comp_apply, punchThrough, Bool.and_eq_true, decide_eq_true_eq, Prod.exists,
    List.mem_zipIdx_iff_getElem?]
  exact exists_comm

/-- A list of two or more has a pair at maximum distance (R122). -/
theorem maxDistancePair_isSome {cs : List Color} (h : 2 ≤ cs.length) :
    ∃ pair, maxDistancePair cs = some pair := by
  match cs, h with
  | c :: d :: cs, _ => exact ⟨_, rfl⟩

/-- The picks x and y with their raw words (R107). -/
def pairKeys (x y : Color) : Keys := { k0 := x, k1 := y, r0 := enc565 x, r1 := enc565 y }

/-- The picks for no survivor (R108). -/
def defaultKeys : Keys := { pairKeys black white with dflt := true }

theorem pickKeys_nil : pickKeys [] = defaultKeys := rfl

/-- The picks for one survivor or more (R107). -/
theorem pickKeys_of_ne_nil {cs : List Color} (h : cs ≠ []) :
    ∃ x y, pickKeys cs = pairKeys x y ∧ (cs.length = 1 → cs = [x] ∧ y = x) ∧
      (2 ≤ cs.length → maxDistancePair cs = some (x, y)) := by
  match cs with
  | [] => exact absurd rfl h
  | [c] => exact ⟨c, c, rfl, fun _ => ⟨rfl, rfl⟩, fun htwo => absurd htwo (by simp)⟩
  | c :: d :: cs =>
    obtain ⟨⟨x, y⟩, hpair⟩ := maxDistancePair_isSome (cs := c :: d :: cs) (by simp)
    refine ⟨x, y, ?_, fun hone => absurd hone (by simp), fun _ => hpair⟩
    rw [pickKeys, hpair]
    rfl

/-- A tie that the rule breaks: two different colours with one raw word (R109). -/
theorem tieBreak_of_tie {x y : Color} (h : enc565 x = enc565 y ∧ x ≠ y) :
    tieBreak (pairKeys x y) =
      { pairKeys x (if enc565 x = 0 then white else black) with tie := true } := if_pos h

theorem tieBreak_of_no_tie {x y : Color} (h : ¬ (enc565 x = enc565 y ∧ x ≠ y)) :
    tieBreak (pairKeys x y) = pairKeys x y := if_neg h

theorem tieBreak_defaultKeys : tieBreak defaultKeys = defaultKeys := by decide

/-- The picks of a sub-block after the tie-break, before the ordering (R107 to R109). -/
def pickedKeys (ps : List Color) (inb : Nat → Bool) : Keys :=
  tieBreak (pickKeys (survivors ps inb))

theorem pickedKeys_of_nil {ps : List Color} {inb : Nat → Bool} (h : survivors ps inb = []) :
    pickedKeys ps inb = defaultKeys := by
  rw [pickedKeys, h, pickKeys_nil, tieBreak_defaultKeys]

/-- What the tie-break leaves of the picks x and y (R109). -/
structure TieBroken (x y : Color) (k : Keys) : Prop where
  first : k.k0 = x
  dflt : k.dflt = false
  tie : k.tie = true ↔ enc565 x = enc565 y ∧ x ≠ y
  kept : k.tie = false → k.k1 = y
  replaced : k.tie = true → k.k1 = if enc565 x = 0 then white else black

theorem tieBroken_tieBreak (x y : Color) : TieBroken x y (tieBreak (pairKeys x y)) := by
  by_cases h : enc565 x = enc565 y ∧ x ≠ y
  · rw [tieBreak_of_tie h]
    exact ⟨rfl, rfl, iff_of_true rfl h, nofun, fun _ => rfl⟩
  · rw [tieBreak_of_no_tie h]
    exact ⟨rfl, rfl, iff_of_false nofun h, fun _ => rfl, nofun⟩

theorem pickedKeys_of_ne_nil {ps : List Color} {inb : Nat → Bool} (h : survivors ps inb ≠ []) :
    ∃ x y, ((survivors ps inb).length = 1 → survivors ps inb = [x] ∧ y = x) ∧
      (2 ≤ (survivors ps inb).length → maxDistancePair (survivors ps inb) = some (x, y)) ∧
      TieBroken x y (pickedKeys ps inb) := by
  obtain ⟨x, y, hpick, hone, htwo⟩ := pickKeys_of_ne_nil h
  refine ⟨x, y, hone, htwo, ?_⟩
  rw [pickedKeys, hpick]
  exact tieBroken_tieBreak x y

/-- Keys as they stand before the ordering: each word is that of its colour, and nothing is swapped. -/
structure Keys.Unordered (k : Keys) : Prop where
  r0 : k.r0 = enc565 k.k0
  r1 : k.r1 = enc565 k.k1
  swp : k.swp = false

theorem unordered_tieBreak {k : Keys} (h : k.Unordered) : (tieBreak k).Unordered := by
  rw [tieBreak]
  split
  · exact ⟨h.r0, rfl, h.swp⟩
  · exact h

theorem unordered_pickedKeys (ps : List Color) (inb : Nat → Bool) :
    (pickedKeys ps inb).Unordered := by
  refine unordered_tieBreak ?_
  by_cases h : survivors ps inb = []
  · rw [h, pickKeys_nil]
    exact ⟨rfl, rfl, rfl⟩
  · obtain ⟨x, y, hk, -, -⟩ := pickKeys_of_ne_nil h
    rw [hk]
    exact ⟨rfl, rfl, rfl⟩

/-! ### Key-colour selector: ordering and flags (R107, R110) -/

/-- The words of x and y, in this order, select the mode that the sub-block does not want (R110). -/
def Misordered (needPT : Bool) (x y : Color) : Prop :=
  (needPT = true ∧ (enc565 y).toNat < (enc565 x).toNat) ∨
    (needPT = false ∧ (enc565 x).toNat < (enc565 y).toNat)

theorem misordered_true {x y : Color} :
    Misordered true x y ↔ (enc565 y).toNat < (enc565 x).toNat := by simp [Misordered]

theorem misordered_false {x y : Color} :
    Misordered false x y ↔ (enc565 x).toNat < (enc565 y).toNat := by simp [Misordered]

/-- A swap puts misordered words right. -/
theorem Misordered.not_swap {n : Bool} {x y : Color} (h : Misordered n x y) :
    ¬ Misordered n y x := by
  cases n with
  | true => exact misordered_true.not.2 (Nat.lt_asymm (misordered_true.1 h))
  | false => exact misordered_false.not.2 (Nat.lt_asymm (misordered_false.1 h))

/-- The two keys and their words in the other order (R110). -/
def Keys.swapped (k : Keys) : Keys :=
  { k with k0 := k.k1, k1 := k.k0, r0 := k.r1, r1 := k.r0, swp := true }

/-- The ordering swaps exactly the misordered keys. -/
theorem orderKeys_cases {k : Keys} (h : k.Unordered) (n : Bool) :
    (Misordered n k.k0 k.k1 ∧ orderKeys n k = k.swapped) ∨
      (¬ Misordered n k.k0 k.k1 ∧ orderKeys n k = k) := by
  have hcond : ((n && fourColour k.r0 k.r1) || (!n && fourColour k.r1 k.r0)) = true ↔
      Misordered n k.k0 k.k1 := by
    simp [fourColour, Misordered, h.r0, h.r1]
  by_cases hm : Misordered n k.k0 k.k1
  · exact .inl ⟨hm, if_pos (hcond.2 hm)⟩
  · exact .inr ⟨hm, if_neg (mt hcond.1 hm)⟩

/-- How the selected keys k stand to the picks u: the ordering has swapped them or not, and SWP tells
which (R107, R110). -/
structure OrderedKeys (needPT : Bool) (u k : Keys) : Prop where
  pt : k.pt = needPT
  dflt : k.dflt = u.dflt
  tie : k.tie = u.tie
  r0 : k.r0 = enc565 k.k0
  r1 : k.r1 = enc565 k.k1
  first : (if k.swp then k.k1 else k.k0) = u.k0
  second : (if k.swp then k.k0 else k.k1) = u.k1
  swp : k.swp = true ↔ Misordered needPT u.k0 u.k1
  order : ¬ Misordered needPT k.k0 k.k1

theorem ordered_orderKeys {u : Keys} (h : u.Unordered) (n : Bool) :
    OrderedKeys n u { orderKeys n u with pt := n } := by
  rcases orderKeys_cases h n with ⟨hm, hk⟩ | ⟨hm, hk⟩ <;> rw [hk]
  · exact ⟨rfl, rfl, rfl, h.r1, h.r0, rfl, rfl, iff_of_true rfl hm, hm.not_swap⟩
  · have hswp : ¬ u.swp = true := by simp [h.swp]
    exact ⟨rfl, rfl, rfl, h.r0, h.r1, if_neg hswp, if_neg hswp, iff_of_false hswp hm, hm⟩

theorem ordered_selectKeys (ps : List Color) (inb : Nat → Bool) :
    OrderedKeys (needsPunchThrough ps inb) (pickedKeys ps inb) (selectKeys ps inb) :=
  ordered_orderKeys (unordered_pickedKeys ps inb) _

/-- Which bit of the flags value each flag is (R107). -/
theorem flags_toNat (k : Keys) :
    k.flags.toNat = k.pt.toNat + 2 * k.dflt.toNat + 4 * k.tie.toNat + 8 * k.swp.toNat := by
  have hbits : ∀ p d t s : Bool,
      ((BitVec.ofBool s ++ BitVec.ofBool t ++ BitVec.ofBool d ++ BitVec.ofBool p :
        BitVec (1 + 1 + 1 + 1)).setWidth 32).toNat =
          p.toNat + 2 * d.toNat + 4 * t.toNat + 8 * s.toNat := by decide
  exact hbits _ _ _ _

/-- Settles O48: with a swap undone the keys are the picks after the tie-break, and the ordering leaves
no misordered pair. -/
theorem selectKeysRule : Obligations.SelectKeysRule := by
  intro ps inb k a b pixel cs
  have hcs : survivors ps inb = cs := survivors_eq_map ps inb black
  have hk : OrderedKeys (needsPunchThrough ps inb) (pickedKeys ps inb) k := ordered_selectKeys ps inb
  have ha : a = (pickedKeys ps inb).k0 := hk.first
  have hb : b = (pickedKeys ps inb).k1 := hk.second
  have hswp : k.swp = true ↔ Misordered k.pt a b := by rw [hk.pt, ha, hb]; exact hk.swp
  have horder : ¬ Misordered k.pt k.k0 k.k1 := by rw [hk.pt]; exact hk.order
  have hnil : cs = [] → pickedKeys ps inb = defaultKeys := fun h => pickedKeys_of_nil (hcs.trans h)
  have hpair : cs ≠ [] → ∃ x y, (cs.length = 1 → cs = [x] ∧ y = x) ∧
      (2 ≤ cs.length → maxDistancePair cs = some (x, y)) ∧ TieBroken x y (pickedKeys ps inb) :=
    hcs ▸ pickedKeys_of_ne_nil
  refine ⟨flags_toNat k, hk.r0, hk.r1, ?_, ?_, ?_, ?_, hswp, ?_, ?_⟩
  · rw [hk.pt]
    exact needsPunchThrough_iff ps inb
  · rw [hk.dflt]
    refine ⟨fun hdflt => by_contra fun h => ?_, fun h => congrArg Keys.dflt (hnil h)⟩
    obtain ⟨x, y, -, -, hu⟩ := hpair h
    exact absurd (hdflt.symm.trans hu.dflt) (by decide)
  · intro h
    rw [ha, hb, hk.tie, hnil h]
    exact ⟨rfl, rfl, rfl⟩
  · intro h
    obtain ⟨x, y, hone, htwo, hu⟩ := hpair h
    rw [ha, hb, hk.tie]
    exact ⟨x, y, hone, htwo, hu.first, hu.tie, hu.kept, hu.replaced⟩
  · intro hpt
    rw [hpt, misordered_true, ← hk.r0, ← hk.r1] at horder
    exact Nat.not_lt.1 horder
  · intro hpt
    rw [hpt, misordered_false, ← hk.r0, ← hk.r1] at horder
    exact Nat.not_lt.1 horder

/-! ### Index field (R114) -/

/-- One step of the scan: it stops at an entry at distance 0, or goes on with that entry as the best
one, or goes on with the best one so far (R123). -/
theorem nearestScan_cons_cases (c p : Color) (cs : List Color) (e : Nat)
    (best : Option (Nat × Nat)) :
    nearestScan c (p :: cs) e best = some e ∨
      nearestScan c (p :: cs) e best = nearestScan c cs (e + 1) (some (e, distance c p)) ∨
      nearestScan c (p :: cs) e best = nearestScan c cs (e + 1) best := by
  by_cases hzero : distance c p = 0
  · exact .inl (by simp [nearestScan, hzero])
  · cases best with
    | none => exact .inr (.inl (by simp [nearestScan, hzero]))
    | some b =>
      by_cases hlt : distance c p < b.2
      · exact .inr (.inl (by simp [nearestScan, hzero, hlt]))
      · exact .inr (.inr (by simp [nearestScan, hzero, hlt]))

/-- The scan ends at an entry of the palette, where the best one so far stands before entry e (R123). -/
theorem nearestScan_lt {c : Color} {cs : List Color} {e n : Nat} {best : Option (Nat × Nat)}
    (hbest : ∀ b ∈ best, b.1 < e) (h : nearestScan c cs e best = some n) : n < e + cs.length := by
  induction cs generalizing e best with
  | nil =>
    obtain ⟨b, hb, rfl⟩ := Option.map_eq_some_iff.1 h
    exact hbest b hb
  | cons p cs ih =>
    rw [List.length_cons, ← Nat.add_assoc, Nat.add_right_comm]
    rcases nearestScan_cons_cases c p cs e best with hstop | hnew | hkeep
    · cases hstop.symm.trans h
      omega
    · exact ih (by simp) (hnew.symm.trans h)
    · exact ih (fun b hb => Nat.lt_succ_of_lt (hbest b hb)) (hkeep.symm.trans h)

/-- A transparent entry lies in the palette (R123). -/
theorem transparentEntry_lt {c : Color} {cs : List Color} {e : Nat}
    (h : transparentEntry c cs = some e) : e < cs.length := by
  rw [transparentEntry] at h
  split at h
  · exact (List.findIdx?_eq_some_iff_findIdx_eq.1 h).1
  · cases h

/-- The entry found for a pixel lies in the palette (R123). -/
theorem nearestColor_lt {cs : List Color} (h : cs ≠ []) (c : Color) :
    nearestColor c cs < cs.length := by
  rw [nearestColor]
  split
  next e hexact => exact (List.findIdx?_eq_some_iff_findIdx_eq.1 hexact).1
  next =>
    split
    next e hclear => exact transparentEntry_lt hclear
    next =>
      cases hscan : nearestScan c cs 0 none with
      | none => exact List.length_pos_of_ne_nil h
      | some e => simpa using nearestScan_lt (by simp) hscan

/-- The sum of the digits `digit` of the pixels from pixel s on, each at its place in an index field
(R114). -/
def digitSum (digit : Color × Nat → Nat) (ps : List Color) (s : Nat) : Nat :=
  ((ps.zipIdx s).map fun cp => digit cp <<< (30 - 2 * cp.2)).sum

/-- The digit of the first pixel stands above the sum of the others. -/
theorem digitSum_cons (digit : Color × Nat → Nat) (c : Color) {ps : List Color} {s : Nat}
    (h : s + ps.length = 15) :
    digitSum digit (c :: ps) s = 4 ^ ps.length * digit (c, s) + digitSum digit ps (s + 1) := by
  have hplace : 2 ^ (30 - 2 * s) = 4 ^ ps.length := by
    rw [show 30 - 2 * s = 2 * ps.length by omega, Nat.pow_mul]
  rw [digitSum, List.zipIdx_cons, List.map_cons, List.sum_cons, Nat.shiftLeft_eq, hplace,
    Nat.mul_comm]
  rfl

/-- Digits below 4 fill the places of the pixels and no more. -/
theorem digitSum_lt {digit : Color × Nat → Nat} (hd : ∀ cp, digit cp < 4) {ps : List Color}
    {s : Nat} (h : s + ps.length = 16) :
    digitSum digit ps s < 4 ^ ps.length := by
  induction ps generalizing s with
  | nil => simp [digitSum]
  | cons c ps ih =>
    rw [List.length_cons] at h
    have hrest := ih (s := s + 1) (by omega)
    have hfirst : 4 ^ ps.length * (digit (c, s) + 1) ≤ 4 ^ ps.length * 4 :=
      Nat.mul_le_mul_left _ (hd _)
    rw [digitSum_cons digit c (by omega), List.length_cons, Nat.pow_succ]
    rw [Nat.mul_add_one] at hfirst
    omega

/-- Each pixel's digit is read back at its place. -/
theorem digitSum_digit {digit : Color × Nat → Nat} (hd : ∀ cp, digit cp < 4) {ps : List Color}
    {s k : Nat} (h : s + ps.length = 16) (hk : k < ps.length) :
    digitSum digit ps s / 4 ^ (ps.length - 1 - k) % 4 = digit (ps[k], s + k) := by
  induction ps generalizing s k with
  | nil => simp at hk
  | cons c ps ih =>
    rw [List.length_cons] at h hk
    rw [digitSum_cons digit c (by omega)]
    have hrest := digitSum_lt hd (ps := ps) (s := s + 1) (by omega)
    cases k with
    | zero =>
      rw [List.length_cons, Nat.add_sub_cancel, Nat.sub_zero,
        Nat.mul_add_div (Nat.pow_pos (by decide)), Nat.div_eq_of_lt hrest, Nat.add_zero,
        Nat.mod_eq_of_lt (hd _)]
      rfl
    | succ k =>
      have hplace : 4 ^ ps.length = 4 ^ (ps.length - 1 - k) * (4 * 4 ^ k) := by
        rw [← Nat.pow_succ', ← Nat.pow_add]
        congr 1
        omega
      have hk' : (c :: ps).length - 1 - (k + 1) = ps.length - 1 - k := by simp; omega
      rw [hk', hplace, Nat.mul_assoc, Nat.mul_add_div (Nat.pow_pos (by decide)), Nat.mul_assoc,
        Nat.mul_add_mod, ih (by omega) (by omega)]
      simp [Nat.add_comm, Nat.add_left_comm]

/-- The digit of a pixel in the index field of a palette (R114). -/
def paletteDigit (inb : Nat → Bool) (palette : List Color) (cp : Color × Nat) : Nat :=
  if inb cp.2 then nearestColor cp.1 palette else 0

theorem paletteDigit_lt {palette : List Color} (h : palette.length = 4) (inb : Nat → Bool)
    (cp : Color × Nat) : paletteDigit inb palette cp < 4 := by
  rw [paletteDigit]
  split
  · exact h ▸ nearestColor_lt (List.ne_nil_of_length_pos (by omega)) cp.1
  · decide

theorem indexField_eq_digitSum (ps : List Color) (inb : Nat → Bool) (palette : List Color) :
    indexField ps inb palette = Word.ofNat (digitSum (paletteDigit inb palette) ps 0) := rfl

/-- Settles O50: the palette has four entries, so every index is a digit to base 4 and the sum of the
rule carries nothing from one pixel's place into another's. -/
theorem indexFieldLayout : Obligations.IndexFieldLayout := by
  intro ps palette inb p hps hpal hp
  have hd := paletteDigit_lt hpal inb
  have hfits : digitSum (paletteDigit inb palette) ps 0 < 2 ^ 32 := by
    simpa [hps] using digitSum_lt hd (ps := ps) (s := 0) (by omega)
  have hdigit := digitSum_digit hd (s := 0) (by omega) hp
  rw [hps, Nat.zero_add] at hdigit
  rw [indexField_eq_digitSum, BitVec.toNat_ofNat, Nat.mod_eq_of_lt hfits]
  exact hdigit

end Sys2Proof.Machine
end

section
/-! PROOFS of the statements about spec/44_quantizer.md: the distance (R120), the pair at maximum
distance (R122), the nearest colour (R123), the average (R124) and the median cut (R125 to R127). -/

namespace Sys2Proof.Machine

/-! ### Distance (R120) -/

theorem channelSq_comm (x y : Byte) : channelSq x y = channelSq y x := by
  rw [channelSq, channelSq, ← Int.natAbs_neg, Int.neg_sub]

theorem channelSq_eq_zero {x y : Byte} : channelSq x y = 0 ↔ x = y := by
  rw [channelSq, pow_eq_zero_iff (by decide), Int.natAbs_eq_zero, Int.sub_eq_zero, Int.natCast_inj,
    BitVec.toNat_inj]

theorem channelSq_cast_int (x y : Byte) :
    (channelSq x y : ℤ) = ((x.toNat : ℤ) - y.toNat) ^ 2 := by simp [channelSq]

theorem channelSq_cast_rat (x y : Byte) :
    (channelSq x y : ℚ) = ((x.toNat : ℚ) - y.toNat) ^ 2 := by
  exact_mod_cast channelSq_cast_int x y

/-- The square of a difference and twice the product make up the two squares. -/
theorem channelSq_add_two_mul (x y : Byte) :
    channelSq x y + 2 * (x.toNat * y.toNat) = x.toNat ^ 2 + y.toNat ^ 2 := by
  zify
  rw [channelSq_cast_int]
  ring

theorem byte_sq_le (x : Byte) : x.toNat ^ 2 ≤ 65025 :=
  Nat.pow_le_pow_left (Nat.le_of_lt_succ x.isLt) 2

theorem channelSq_le (x y : Byte) : channelSq x y ≤ 65025 :=
  by
  have hdiff : ((x.toNat : Int) - y.toNat).natAbs ≤ 255 := by
    have := x.isLt
    have := y.isLt
    omega
  exact Nat.pow_le_pow_left hdiff 2

theorem distance_comm (s p : Color) : distance s p = distance p s := by
  simp only [distance, channelSq_comm s.a, channelSq_comm s.r, channelSq_comm s.g,
    channelSq_comm s.b, Nat.mul_right_comm]

/-- The colour part weighs at most as much as the part that the alphas leave below their squares. -/
theorem distance_le (s p : Color) :
    distance s p ≤ 195075 * (s.a.toNat ^ 2 + p.a.toNat ^ 2) := by
  have hsum : channelSq s.r p.r + channelSq s.g p.g + channelSq s.b p.b ≤ 195075 := by
    have := channelSq_le s.r p.r
    have := channelSq_le s.g p.g
    have := channelSq_le s.b p.b
    omega
  calc distance s p
      = 195075 * channelSq s.a p.a +
          2 * ((channelSq s.r p.r + channelSq s.g p.g + channelSq s.b p.b) *
            (s.a.toNat * p.a.toNat)) := by rw [distance]; ring
    _ ≤ 195075 * channelSq s.a p.a + 2 * (195075 * (s.a.toNat * p.a.toNat)) := by gcongr
    _ = 195075 * (s.a.toNat ^ 2 + p.a.toNat ^ 2) := by rw [← channelSq_add_two_mul]; ring

theorem distance_eq_zero {s p : Color} :
    distance s p = 0 ↔ s.a = p.a ∧ ((s.r = p.r ∧ s.g = p.g ∧ s.b = p.b) ∨ s.a = 0) := by
  have ha : ∀ x : Byte, x.toNat = 0 ↔ x = 0 := fun _ => BitVec.toNat_inj (y := 0)
  simp only [distance, Nat.add_eq_zero_iff, Nat.mul_eq_zero, channelSq_eq_zero, ha]
  have halpha : (195075 = 0 ∨ s.a = p.a) ↔ s.a = p.a := or_iff_right (by decide)
  rw [halpha]
  refine and_congr_right fun heq => ?_
  rw [← heq]
  tauto

/-- Settles O51: D takes the metric times the common denominator of its two parts. -/
theorem distanceIsScaledMetric : Obligations.DistanceIsScaledMetric := by
  intro s p sq
  refine ⟨?_, distance_comm s p, distance_le s p, ?_, distance_eq_zero⟩
  · simp only [distance, sq, Nat.cast_add, Nat.cast_mul, channelSq_cast_rat]
    push_cast
    ring
  · have := byte_sq_le s.a
    have := byte_sq_le p.a
    omega

/-! ### The pair at maximum distance (R122) -/

/-- The scan keeps the first of the pairs at maximum distance: the pairs before it are nearer, and
none after it is further. -/
theorem foldl_fartherPair_split (p : Color × Color) (ps : List (Color × Color)) :
    ∃ before r after, ps.foldl fartherPair p = r ∧ p :: ps = before ++ r :: after ∧
      (∀ q ∈ before, distance q.1 q.2 < distance r.1 r.2) ∧
      ∀ q ∈ after, distance q.1 q.2 ≤ distance r.1 r.2 := by
  induction ps using List.reverseRecOn with
  | nil => exact ⟨[], p, [], rfl, rfl, nofun, nofun⟩
  | append_singleton ps x ih =>
    obtain ⟨before, r, after, hr, hsplit, hbefore, hafter⟩ := ih
    rw [List.foldl_append, hr, ← List.cons_append, hsplit, List.foldl_cons, List.foldl_nil,
      fartherPair]
    split
    next hfar =>
      refine ⟨before ++ r :: after, x, [], rfl, rfl, fun q hq => ?_, nofun⟩
      rcases List.mem_append.1 hq with hq | hq
      · exact (hbefore q hq).trans hfar
      · rcases List.mem_cons.1 hq with rfl | hq
        · exact hfar
        · exact (hafter q hq).trans_lt hfar
    next hnear =>
      refine ⟨before, r, after ++ [x], rfl, by simp, hbefore, fun q hq => ?_⟩
      rcases List.mem_append.1 hq with hq | hq
      · exact hafter q hq
      · rw [List.mem_singleton.1 hq]
        exact Nat.le_of_not_lt hnear

theorem maxDistancePair_eq_foldl {cs : List Color} {p : Color × Color} {ps : List (Color × Color)}
    (h : orderedPairs cs = p :: ps) : maxDistancePair cs = some (ps.foldl fartherPair p) := by
  rw [maxDistancePair, h]

/-- Every pair (i, j) with i < j is listed. -/
theorem mem_orderedPairs {cs : List Color} {i j : Nat} (hij : i < j) (hj : j < cs.length) :
    (cs[i], cs[j]) ∈ orderedPairs cs := by
  induction cs generalizing i j with
  | nil => simp at hj
  | cons c cs ih =>
    obtain ⟨j, rfl⟩ := Nat.exists_eq_add_one_of_ne_zero (Nat.ne_zero_of_lt hij)
    rw [List.length_cons, Nat.add_lt_add_iff_right] at hj
    rw [orderedPairs, List.mem_append]
    cases i with
    | zero => exact .inl (List.mem_map_of_mem (List.getElem_mem hj))
    | succ i => exact .inr (ih (Nat.lt_of_succ_lt_succ hij) hj)

/-- r is the pair (i, j) of cs, and the pairs at smaller (i, j) are in `before`. -/
structure PairAt (cs : List Color) (before : List (Color × Color)) (r : Color × Color)
    (i j : Nat) : Prop where
  lt : i < j
  bound : j < cs.length
  pair : r = (cs[i], cs[j])
  earlier : ∀ i' j', (hij : i' < j') → (hj : j' < cs.length) → i' < i ∨ (i' = i ∧ j' < j) →
    (cs[i'], cs[j']) ∈ before

/-- A pair of the first element with a later one, where the earlier such pairs are in `before`. -/
theorem PairAt.head {c : Color} {cs : List Color} {before : List (Color × Color)} {j : Nat}
    (hj : j < cs.length) (hrow : ∀ k, (hk : k < j) → (c, cs[k]) ∈ before) :
    PairAt (c :: cs) before (c, cs[j]) 0 (j + 1) where
  lt := Nat.succ_pos j
  bound := Nat.succ_lt_succ hj
  pair := rfl
  earlier i' j' hij hj' hless := by
    obtain ⟨rfl, hlt⟩ : i' = 0 ∧ j' < j + 1 := by omega
    obtain ⟨k, rfl⟩ := Nat.exists_eq_add_one_of_ne_zero (Nat.ne_zero_of_lt hij)
    exact hrow k (Nat.lt_of_succ_lt_succ hlt)

/-- A pair of later elements, after all the pairs of the first element. -/
theorem PairAt.tail {c : Color} {cs : List Color} {before : List (Color × Color)}
    {r : Color × Color} {i j : Nat} (h : PairAt cs before r i j) :
    PairAt (c :: cs) (cs.map (fun d => (c, d)) ++ before) r (i + 1) (j + 1) where
  lt := Nat.succ_lt_succ h.lt
  bound := Nat.succ_lt_succ h.bound
  pair := h.pair
  earlier i' j' hij hj' hless := by
    obtain ⟨k, rfl⟩ := Nat.exists_eq_add_one_of_ne_zero (Nat.ne_zero_of_lt hij)
    have hk : k < cs.length := Nat.lt_of_succ_lt_succ hj'
    refine List.mem_append.2 ?_
    cases i' with
    | zero => exact .inl (List.mem_map_of_mem (List.getElem_mem hk))
    | succ i' => exact .inr (h.earlier i' k (by omega) hk (by omega))

/-- The pairs are listed in lexicographic order. -/
theorem orderedPairs_split {cs : List Color} {before after : List (Color × Color)}
    {r : Color × Color} (h : orderedPairs cs = before ++ r :: after) :
    ∃ i j, PairAt cs before r i j := by
  induction cs generalizing before with
  | nil => simp [orderedPairs] at h
  | cons c cs ih =>
    rw [orderedPairs, List.append_eq_append_iff] at h
    rcases h with ⟨before', rfl, htail⟩ | ⟨row, hrow, hrest⟩
    · obtain ⟨i, j, hpair⟩ := ih htail
      exact ⟨i + 1, j + 1, hpair.tail⟩
    · rcases List.cons_eq_append_iff.1 hrest with ⟨rfl, htail⟩ | ⟨row, rfl, -⟩
      · obtain ⟨i, j, hpair⟩ := ih (before := []) htail
        rw [List.append_nil] at hrow
        exact ⟨i + 1, j + 1, by simpa [hrow] using hpair.tail (c := c)⟩
      · obtain ⟨front, back, rfl, rfl, hback⟩ := List.map_eq_append_iff.1 hrow
        obtain ⟨d, back, rfl, rfl, -⟩ := List.map_eq_cons_iff.1 hback
        have hd : (front ++ d :: back)[front.length]'(by simp) = d := by simp
        refine ⟨0, front.length + 1, ?_⟩
        have hhead := PairAt.head (c := c) (cs := front ++ d :: back)
          (before := front.map fun d => (c, d)) (j := front.length) (by simp) fun k hk => by
            rw [List.getElem_append_left hk]
            exact List.mem_map_of_mem (List.getElem_mem hk)
        rwa [hd] at hhead

/-- Settles O52: the scan's pair splits the listed pairs, and the list is in lexicographic order. -/
theorem maxDistancePairIsFirst : Obligations.MaxDistancePairIsFirst := by
  intro cs hlen
  have hlisted := mem_orderedPairs (cs := cs) Nat.zero_lt_one hlen
  obtain ⟨p, ps, hpairs⟩ := List.exists_cons_of_ne_nil (List.ne_nil_of_mem hlisted)
  obtain ⟨before, r, after, hr, hsplit, hbefore, hafter⟩ := foldl_fartherPair_split p ps
  obtain ⟨i, j, hij, hj, rfl, hearlier⟩ := orderedPairs_split (hpairs.trans hsplit)
  have hpair := maxDistancePair_eq_foldl hpairs
  rw [hr] at hpair
  refine ⟨i, j, hij.trans hj, hj, hij, hpair, fun i' j' _ hj' hij' =>
    ⟨?_, fun hless => hbefore (_, _) (hearlier i' j' hij' hj' hless)⟩⟩
  have hmem := mem_orderedPairs hij' hj'
  rw [hpairs, hsplit, List.mem_append, List.mem_cons] at hmem
  rcases hmem with hmem | hmem | hmem
  · exact (hbefore (_, _) hmem).le
  · obtain ⟨hfst, hsnd⟩ := Prod.mk.inj hmem
    rw [hfst, hsnd]
  · exact hafter (_, _) hmem

/-! ### The nearest colour (R123) -/

/-- Entry e of the palette is the first one at minimum distance from c: the entries before it are
further away, and none after it is nearer. -/
def FirstNearest (c : Color) (cs : List Color) (e d : Nat) : Prop :=
  ∃ before p after, cs = before ++ p :: after ∧ before.length = e ∧ distance c p = d ∧
    (∀ q ∈ before, d < distance c q) ∧ ∀ q ∈ after, d ≤ distance c q

theorem FirstNearest.le {c q : Color} {cs : List Color} {e d : Nat} (h : FirstNearest c cs e d)
    (hq : q ∈ cs) : d ≤ distance c q := by
  obtain ⟨before, p, after, rfl, -, rfl, hbefore, hafter⟩ := h
  rcases List.mem_append.1 hq with hq | hq
  · exact (hbefore q hq).le
  · rcases List.mem_cons.1 hq with rfl | hq
    · exact le_rfl
    · exact hafter q hq

/-- Where entry e is, in the words of R123. -/
theorem FirstNearest.getElem {c : Color} {cs : List Color} {e d : Nat}
    (h : FirstNearest c cs e d) (he : e < cs.length) :
    distance c cs[e] = d ∧ ∀ j, (hj : j < e) → d < distance c cs[j] := by
  obtain ⟨before, p, after, rfl, rfl, hd, hbefore, -⟩ := h
  refine ⟨by simpa using hd, fun j hj => ?_⟩
  rw [List.getElem_append_left hj]
  exact hbefore _ (List.getElem_mem hj)

/-- `best` is what the scan knows after the entries cs: nothing before the first entry, then the
first entry at minimum distance, which is not 0 or the scan would have stopped. -/
def ScanBest (c : Color) (cs : List Color) : Option (Nat × Nat) → Prop
  | none => cs = []
  | some (e, d) => FirstNearest c cs e d ∧ 0 < d

theorem ScanBest.pos {c q : Color} {cs : List Color} {best : Option (Nat × Nat)}
    (h : ScanBest c cs best) (hq : q ∈ cs) : 0 < distance c q := by
  match best, h with
  | none, h => exact absurd hq (h ▸ List.not_mem_nil)
  | some _, ⟨hfirst, hpos⟩ => exact hpos.trans_le (hfirst.le hq)

/-- What the scan knows after entry e = p, which is not at distance 0 (R123). -/
def scanNext (c p : Color) (e : Nat) : Option (Nat × Nat) → Nat × Nat
  | none => (e, distance c p)
  | some (b, d) => if distance c p < d then (e, distance c p) else (b, d)

theorem nearestScan_cons_zero {c p : Color} (h : distance c p = 0) (cs : List Color) (e : Nat)
    (best : Option (Nat × Nat)) : nearestScan c (p :: cs) e best = some e := by
  simp [nearestScan, h]

theorem nearestScan_cons_pos {c p : Color} (h : 0 < distance c p) (cs : List Color) (e : Nat)
    (best : Option (Nat × Nat)) :
    nearestScan c (p :: cs) e best = nearestScan c cs (e + 1) (some (scanNext c p e best)) := by
  cases best with
  | none => simp [nearestScan, scanNext, h.ne']
  | some b => by_cases hlt : distance c p < b.2 <;> simp [nearestScan, scanNext, h.ne', hlt]

theorem ScanBest.next {c p : Color} {cs : List Color} {best : Option (Nat × Nat)}
    (h : ScanBest c cs best) (hp : 0 < distance c p) :
    ScanBest c (cs ++ [p]) (some (scanNext c p cs.length best)) := by
  match best, h with
  | none, h =>
    subst h
    exact ⟨⟨[], p, [], rfl, rfl, rfl, nofun, nofun⟩, hp⟩
  | some (b, d), ⟨hfirst, hpos⟩ =>
    rw [scanNext]
    split
    next hlt =>
      exact ⟨⟨cs, p, [], rfl, rfl, rfl, fun q hq => hlt.trans_le (hfirst.le hq), nofun⟩, hp⟩
    next hge =>
      obtain ⟨before, r, after, rfl, hb, hd, hbefore, hafter⟩ := hfirst
      refine ⟨⟨before, r, after ++ [p], by simp, hb, hd, hbefore, fun q hq => ?_⟩, hpos⟩
      rcases List.mem_append.1 hq with hq | hq
      · exact hafter q hq
      · rw [List.mem_singleton.1 hq]
        exact Nat.le_of_not_lt hge

/-- The scan finds the first entry at minimum distance; its early stop changes nothing, because the
entries it has passed are not at distance 0. -/
theorem nearestScan_firstNearest {c : Color} {seen cs : List Color} {best : Option (Nat × Nat)}
    (h : ScanBest c seen best) (hne : seen ++ cs ≠ []) :
    ∃ e d, nearestScan c cs seen.length best = some e ∧ FirstNearest c (seen ++ cs) e d := by
  induction cs generalizing seen best with
  | nil =>
    rw [List.append_nil] at hne ⊢
    match best, h with
    | none, h => exact absurd h hne
    | some (e, d), ⟨hfirst, _⟩ => exact ⟨e, d, rfl, hfirst⟩
  | cons p cs ih =>
    rcases Nat.eq_zero_or_pos (distance c p) with hzero | hpos
    · exact ⟨_, 0, nearestScan_cons_zero hzero _ _ _, seen, p, cs, rfl, rfl, hzero,
        fun q hq => h.pos hq, fun q _ => Nat.zero_le _⟩
    · rw [nearestScan_cons_pos hpos]
      simpa using ih (h.next hpos) (by simp)

/-- The first equal entry is taken. -/
theorem nearestColor_of_mem {c : Color} {cs : List Color} (h : c ∈ cs) :
    cs.findIdx? (fun p => decide (p = c)) = some (nearestColor c cs) := by
  rw [nearestColor]
  split
  next heq => exact heq
  next hnone => simpa using List.findIdx?_eq_none_iff.1 hnone c h

theorem nearestColor_of_not_mem {c : Color} {cs : List Color} (h : c ∉ cs) :
    nearestColor c cs = (transparentEntry c cs).getD ((nearestScan c cs 0 none).getD 0) := by
  have hnone : cs.findIdx? (fun p => decide (p = c)) = none :=
    List.findIdx?_eq_none_iff.2 fun p hp => decide_eq_false fun hpc => h (hpc ▸ hp)
  rw [nearestColor, hnone]
  cases transparentEntry c cs <;> rfl

/-- Without an equal entry and for A < 16, the first transparent entry is taken. -/
theorem nearestColor_of_transparent {c : Color} {cs : List Color} (h : c ∉ cs)
    (hc : c.a.toNat < 16) (hp : ∃ p ∈ cs, p.a = 0) :
    cs.findIdx? (fun p => decide (p.a = 0)) = some (nearestColor c cs) := by
  obtain ⟨p, hpcs, hpa⟩ := hp
  rw [nearestColor_of_not_mem h, transparentEntry, if_pos hc]
  cases hfind : cs.findIdx? (fun p => decide (p.a = 0)) with
  | some e => rfl
  | none => simpa [hpa] using List.findIdx?_eq_none_iff.1 hfind p hpcs

/-- In every other case the scan decides. -/
theorem nearestColor_firstNearest {c : Color} {cs : List Color} (hne : cs ≠ []) (h : c ∉ cs)
    (hp : 16 ≤ c.a.toNat ∨ ∀ p ∈ cs, p.a ≠ 0) :
    ∃ d, FirstNearest c cs (nearestColor c cs) d := by
  have hnone : transparentEntry c cs = none := by
    rw [transparentEntry]
    split
    next hc => exact List.findIdx?_eq_none_iff.2 fun p hpcs =>
      decide_eq_false (hp.resolve_left (Nat.not_le.2 hc) p hpcs)
    next => rfl
  obtain ⟨e, d, hscan, hfirst⟩ :=
    nearestScan_firstNearest (c := c) (seen := []) (best := none) rfl (by simpa using hne)
  rw [List.length_nil] at hscan
  rw [nearestColor_of_not_mem h, hnone, hscan]
  exact ⟨d, hfirst⟩

/-- Settles O53: each of the three searches of the rule returns the first entry of its kind. -/
theorem nearestColorRule : Obligations.NearestColorRule := by
  intro c cs hne
  refine ⟨nearestColor_lt hne c, fun hmem => ?_, fun hmem hc hp => ?_, fun hmem hp => ?_⟩
  · obtain ⟨_, hfound, hfirst⟩ := List.findIdx?_eq_some_iff_getElem.1 (nearestColor_of_mem hmem)
    exact ⟨of_decide_eq_true hfound, fun j hj heq => hfirst j hj (decide_eq_true heq)⟩
  · obtain ⟨_, hfound, hfirst⟩ :=
      List.findIdx?_eq_some_iff_getElem.1 (nearestColor_of_transparent hmem hc hp)
    exact ⟨of_decide_eq_true hfound, fun j hj heq => hfirst j hj (decide_eq_true heq)⟩
  · obtain ⟨d, hfirst⟩ := nearestColor_firstNearest hne hmem hp
    obtain ⟨hd, hbefore⟩ := hfirst.getElem (nearestColor_lt hne c)
    refine ⟨fun p hpcs => ?_, fun j hj => ?_⟩
    · rw [hd]
      exact hfirst.le hpcs
    · rw [hd]
      exact hbefore j hj

/-! ### The average (R124) -/

/-- A mean of bytes is a byte, so the channel holds it whole (0 for an empty list). -/
theorem channelMean_toNat (k : Color → Byte) (cs : List Color) :
    (channelMean k cs).toNat = (cs.map fun c => (k c).toNat).sum / cs.length := by
  have hsum : (cs.map fun c => (k c).toNat).sum ≤ cs.length * 255 := by
    have hbyte : ∀ x ∈ cs.map (fun c => (k c).toNat), x ≤ 255 := by
      rintro x hx
      obtain ⟨c, -, rfl⟩ := List.mem_map.1 hx
      exact Nat.le_of_lt_succ (k c).isLt
    simpa using List.sum_le_card_nsmul _ _ hbyte
  have hmean : (cs.map fun c => (k c).toNat).sum / cs.length ≤ 255 :=
    Nat.div_le_of_le_mul hsum
  rw [channelMean, BitVec.toNat_ofNat, Nat.mod_eq_of_lt (Nat.lt_succ_of_le hmean)]

theorem averageColor_of_zero_alpha {before after : List Color} {c : Color} (hc : c.a = 0)
    (hbefore : ∀ d ∈ before, d.a ≠ 0) : averageColor (before ++ c :: after) = c := by
  have hfind : (before ++ c :: after).find? (fun c => decide (c.a = 0)) = some c :=
    List.find?_eq_some_iff_append.2 ⟨decide_eq_true hc, before, after, rfl, by simpa using hbefore⟩
  rw [averageColor, hfind]

theorem averageColor_of_no_zero_alpha {cs : List Color} (h : ∀ c ∈ cs, c.a ≠ 0) :
    averageColor cs = ⟨channelMean Color.r cs, channelMean Color.g cs, channelMean Color.b cs,
      channelMean Color.a cs⟩ := by
  have hfind : cs.find? (fun c => decide (c.a = 0)) = none := by simpa using h
  rw [averageColor, hfind]

/-- Settles O54: the search of the rule finds the first zero-alpha member, and a mean fits in its
channel. -/
theorem averageRule : Obligations.AverageRule := by
  intro cs _
  refine ⟨fun before c after hcs hc hbefore => ?_, fun h => ?_⟩
  · rw [hcs]
    exact averageColor_of_zero_alpha hc hbefore
  · simp [averageColor_of_no_zero_alpha h, channelMean_toNat]

/-! ### Split channel (R125) -/

/-- The greatest and the least value of a channel are attained, and their difference is its range. -/
theorem channelRange_attained (k : Color → Byte) {cs : List Color} (h : cs ≠ []) :
    ∃ hi ∈ cs, ∃ lo ∈ cs, (∀ c ∈ cs, (k c).toNat ≤ (k hi).toNat ∧ (k lo).toNat ≤ (k c).toNat) ∧
      channelRange k cs = (k hi).toNat - (k lo).toNat := by
  have hne : cs.map (fun c => (k c).toNat) ≠ [] := by simpa using h
  obtain ⟨x, hmax⟩ := Option.ne_none_iff_exists'.1 (mt List.max?_eq_none_iff.1 hne)
  obtain ⟨y, hmin⟩ := Option.ne_none_iff_exists'.1 (mt List.min?_eq_none_iff.1 hne)
  obtain ⟨hx, hxmax⟩ := List.max?_eq_some_iff.1 hmax
  obtain ⟨hy, hymin⟩ := List.min?_eq_some_iff.1 hmin
  obtain ⟨hi, hhi, rfl⟩ := List.mem_map.1 hx
  obtain ⟨lo, hlo, rfl⟩ := List.mem_map.1 hy
  refine ⟨hi, hhi, lo, hlo, fun c hc => ?_, ?_⟩
  · exact ⟨hxmax _ (List.mem_map_of_mem hc), hymin _ (List.mem_map_of_mem hc)⟩
  · have hbyte : (k lo).toNat ≤ 255 := Nat.le_of_lt_succ (k lo).isLt
    rw [channelRange, List.foldl_max, List.foldl_min, hmax, hmin, Option.getD_some,
      Option.getD_some, Nat.zero_max, Nat.min_eq_right hbyte]

theorem splitChannel_of_green {cs : List Color}
    (hr : channelRange Color.r cs ≤ channelRange Color.g cs)
    (hb : channelRange Color.b cs ≤ channelRange Color.g cs) : splitChannel cs = Color.g :=
  if_pos ⟨hr, hb⟩

theorem splitChannel_of_not_green {cs : List Color}
    (h : channelRange Color.g cs < channelRange Color.r cs ∨
      channelRange Color.g cs < channelRange Color.b cs) :
    splitChannel cs =
      if channelRange Color.b cs ≤ channelRange Color.r cs then Color.r else Color.b := by
  have hgreen : ¬ (channelRange Color.r cs ≤ channelRange Color.g cs ∧
      channelRange Color.b cs ≤ channelRange Color.g cs) := by omega
  exact if_neg hgreen

/-! ### Sort (R126) -/

/-- The model's sort is the library's insertion sort by key. -/
theorem sortByKey_eq_insertionSort (key : Color → Nat) (cs : List Color) :
    sortByKey key cs = cs.insertionSort fun c d => key c ≤ key d := by
  have hinsert : ∀ (x : Color) (ys : List Color),
      insertByKey key x ys = ys.orderedInsert (fun c d => key c ≤ key d) x := by
    intro x ys
    induction ys with
    | nil => rfl
    | cons y ys ih => rw [insertByKey, List.orderedInsert_cons, ih]
  induction cs with
  | nil => rfl
  | cons c cs ih => rw [List.insertionSort_cons, ← ih, ← hinsert]; rfl

theorem sortByKey_perm (key : Color → Nat) (cs : List Color) : (sortByKey key cs).Perm cs := by
  rw [sortByKey_eq_insertionSort]
  exact List.perm_insertionSort _ cs

@[simp] theorem sortByKey_length (key : Color → Nat) (cs : List Color) :
    (sortByKey key cs).length = cs.length := (sortByKey_perm key cs).length_eq

theorem sortByKey_pairwise (key : Color → Nat) (cs : List Color) :
    (sortByKey key cs).Pairwise fun c d => key c ≤ key d := by
  have htotal : Std.Total fun c d : Color => key c ≤ key d := ⟨fun c d => Nat.le_total _ _⟩
  have htrans : IsTrans Color fun c d => key c ≤ key d := ⟨fun _ _ _ => Nat.le_trans⟩
  rw [sortByKey_eq_insertionSort]
  exact List.pairwise_insertionSort _ cs

/-- The sort is stable: the elements of one key stay in their order. -/
theorem sortByKey_filter (key : Color → Nat) (n : Nat) (cs : List Color) :
    (sortByKey key cs).filter (fun c => decide (key c = n)) =
      cs.filter fun c => decide (key c = n) := by
  have hkeys : (cs.filter fun c => decide (key c = n)).Pairwise fun c d => key c ≤ key d :=
    List.pairwise_of_forall_mem_list fun c hc d hd => by
      simp only [List.mem_filter, decide_eq_true_eq] at hc hd
      omega
  have hsub : (cs.filter fun c => decide (key c = n)).Sublist (sortByKey key cs) := by
    rw [sortByKey_eq_insertionSort]
    exact List.sublist_insertionSort hkeys List.filter_sublist
  have hclass := hsub.filter fun c => decide (key c = n)
  rw [List.filter_filter] at hclass
  simp only [Bool.and_self] at hclass
  exact (hclass.eq_of_length ((sortByKey_perm key cs).filter _).length_eq.symm).symm

/-- The key orders by alpha first, then by the channel. -/
theorem sortKey_le (k : Color → Byte) {c d : Color} (h : sortKey k c ≤ sortKey k d) :
    c.a.toNat < d.a.toNat ∨ (c.a = d.a ∧ (k c).toNat ≤ (k d).toNat) := by
  have hc := (k c).isLt
  have hd := (k d).isLt
  rw [← BitVec.toNat_inj]
  simp only [sortKey] at h
  omega

theorem sortKey_eq_iff (k : Color → Byte) (c : Color) (a v : Byte) :
    sortKey k c = a.toNat * 256 + v.toNat ↔ c.a = a ∧ k c = v := by
  have hc := (k c).isLt
  have hv := v.isLt
  rw [← BitVec.toNat_inj, ← BitVec.toNat_inj, sortKey]
  omega

/-! ### Bucket split and limited palette (R126, R127) -/

theorem splitToBuckets_nil (d : Nat) : splitToBuckets d [] = [] := by
  cases d <;> simp [splitToBuckets]

theorem splitToBuckets_zero {cs : List Color} (h : cs ≠ []) :
    splitToBuckets 0 cs = [averageColor cs] := by
  simp [splitToBuckets, h]

theorem splitToBuckets_succ {cs : List Color} (h : cs ≠ []) (d : Nat) :
    splitToBuckets (d + 1) cs =
      splitToBuckets d ((sortByKey (sortKey (splitChannel cs)) cs).drop (cs.length / 2)) ++
        splitToBuckets d ((sortByKey (sortKey (splitChannel cs)) cs).take (cs.length / 2)) := by
  simp [splitToBuckets, h]

/-- Settles O57: the split read off its definition, with the sort's order and stability and the
ranges that choose its channel. -/
theorem bucketSplitRule : Obligations.BucketSplitRule := by
  refine ⟨?_, splitToBuckets_nil, fun cs h => ⟨splitToBuckets_zero h, fun d =>
    ⟨_, rfl, splitToBuckets_succ h d⟩⟩, fun k cs => ⟨sortByKey_perm _ cs, ?_, fun a v => ?_⟩,
    fun cs h => ?_⟩
  · simp only [List.forall_mem_cons]
    exact ⟨⟨.colours16, rfl, rfl, fun _ => ⟨rfl, rfl⟩⟩,
      ⟨.colours256, rfl, rfl, fun _ => ⟨rfl, rfl⟩⟩,
      ⟨.colours16384, rfl, rfl, fun _ => ⟨rfl, rfl⟩⟩, nofun⟩
  · exact (sortByKey_pairwise (sortKey k) cs).imp (sortKey_le k)
  · simpa only [sortKey_eq_iff] using sortByKey_filter (sortKey k) (a.toNat * 256 + v.toNat) cs
  · intro spread
    refine ⟨fun k _ => ?_, splitChannel_of_green, splitChannel_of_not_green⟩
    obtain ⟨hi, hhi, lo, hlo, hbounds, hrange⟩ := channelRange_attained k h
    have hspread : spread k = (k hi).toNat - (k lo).toNat := hrange
    obtain ⟨-, hlohi⟩ := hbounds hi hhi
    refine ⟨fun c hc d hd => ?_, hi, hhi, lo, hlo, by omega⟩
    obtain ⟨hchi, -⟩ := hbounds c hc
    obtain ⟨-, hlod⟩ := hbounds d hd
    omega

end Sys2Proof.Machine
end

section
/-! PROOFS of the statements about spec/45_transcoder.md: the word swap (R136, R137, R142) and the word
permutation of the reorder (R138). -/

namespace Sys2Proof.Machine

/-! ### Bit-pair reversal (R136) -/

/-- Group k of the reversed byte is group 3 − k of the byte (R136). -/
theorem rev2_group (x : Byte) {k : Nat} (h : k < 4) :
    (rev2 x).extractLsb' (2 * k) 2 = x.extractLsb' (2 * (3 - k)) 2 := by
  match k, h with
  | 0, _ => exact BitVec.extractLsb'_append_eq_right
  | 1, _ =>
    exact (BitVec.extractLsb'_append_eq_of_le (by decide)).trans BitVec.extractLsb'_append_eq_right
  | 2, _ =>
    exact (BitVec.extractLsb'_append_eq_of_le (by decide)).trans <|
      (BitVec.extractLsb'_append_eq_of_le (by decide)).trans BitVec.extractLsb'_append_eq_right
  | 3, _ =>
    exact (BitVec.extractLsb'_append_eq_of_le (by decide)).trans <|
      (BitVec.extractLsb'_append_eq_of_le (by decide)).trans BitVec.extractLsb'_append_eq_left

/-- Group k of a byte as a number. -/
theorem group_toNat (x : Byte) (k : Nat) :
    (x.extractLsb' (2 * k) 2).toNat = x.toNat / 4 ^ k % 4 := by
  rw [BitVec.extractLsb'_toNat, Nat.shiftRight_eq_div_pow, Nat.pow_mul]

theorem rev2_group_toNat (x : Byte) {k : Nat} (h : k < 4) :
    (rev2 x).toNat / 4 ^ k % 4 = x.toNat / 4 ^ (3 - k) % 4 := by
  rw [← group_toNat, rev2_group x h, group_toNat]

/-- A byte is its four groups, the high one first. -/
theorem groups_append (x : Byte) :
    x.extractLsb' 6 2 ++ x.extractLsb' 4 2 ++ x.extractLsb' 2 2 ++ x.extractLsb' 0 2 = x := by
  have hhigh : x.extractLsb' 6 2 ++ x.extractLsb' 4 2 = x.extractLsb' 4 4 :=
    BitVec.extractLsb'_append_extractLsb'_eq_extractLsb' rfl
  have hupper : x.extractLsb' 4 4 ++ x.extractLsb' 2 2 = x.extractLsb' 2 6 :=
    BitVec.extractLsb'_append_extractLsb'_eq_extractLsb' rfl
  rw [hhigh, hupper]
  exact BitVec.extractLsb'_append_extractLsb' (w := 6) (len := 2)

theorem rev2_eq_groups (x : Byte) :
    rev2 x = x.extractLsb' (2 * 0) 2 ++ x.extractLsb' (2 * 1) 2 ++ x.extractLsb' (2 * 2) 2 ++
      x.extractLsb' (2 * 3) 2 := rfl

@[simp] theorem rev2_rev2 (x : Byte) : rev2 (rev2 x) = x := by
  rw [rev2_eq_groups (rev2 x)]
  simp only [rev2_group, Nat.reduceLT]
  exact groups_append x

/-! ### Words of a buffer (R134) -/

/-- A whole word of a buffer, byte by byte (R134). -/
theorem dxtWord_eq_map {b : List Byte} {n : Nat} (h : 8 * n + 8 ≤ b.length) :
    dxtWord b n = (List.range 8).map fun k => byteAt b (8 * n + k) :=
  subBlock_eq_map h

/-- Word n of a buffer that is written word by word is the word written there. -/
theorem dxtWord_flatMap_range {f : Nat → List Byte} {m n : Nat} (hf : ∀ i < m, (f i).length = 8)
    (h : n < m) : dxtWord ((List.range m).flatMap f) n = f n := by
  induction m generalizing f n with
  | zero => omega
  | succ m ih =>
    have hhead : (f 0).length = 8 := hf 0 (by omega)
    rw [List.range_succ_eq_map, List.flatMap_cons, List.flatMap_map, dxtWord]
    cases n with
    | zero => exact List.take_left' hhead
    | succ n =>
      rw [Nat.mul_succ, Nat.add_comm, ← List.drop_drop, List.drop_left' hhead]
      exact ih (fun i hi => hf (i + 1) (by omega)) (by omega)

/-! ### Word swap (R137, R142) -/

/-- The bytes of each key word change places (R137). -/
theorem byteAt_swapWord_key (w : List Byte) {k : Nat} (h : k < 4) :
    byteAt (swapWord w) k = byteAt w (if k % 2 = 0 then k + 1 else k - 1) := by
  match k, h with
  | 0, _ | 1, _ | 2, _ | 3, _ => rfl

/-- The index bytes keep their places (R137). -/
theorem byteAt_swapWord_index (w : List Byte) {k : Nat} (h4 : 4 ≤ k) (h8 : k < 8) :
    byteAt (swapWord w) k = rev2 (byteAt w k) := by
  match k, h4, h8 with
  | 4, _, _ | 5, _, _ | 6, _, _ | 7, _, _ => rfl

theorem swapWord_swapWord {w : List Byte} (h : w.length = 8) : swapWord (swapWord w) = w :=
  calc swapWord (swapWord w)
      = [byteAt w 0, byteAt w 1, byteAt w 2, byteAt w 3, rev2 (rev2 (byteAt w 4)),
          rev2 (rev2 (byteAt w 5)), rev2 (rev2 (byteAt w 6)), rev2 (rev2 (byteAt w 7))] := rfl
    _ = (List.range 8).map (byteAt w) := by simp only [rev2_rev2]; rfl
    _ = w := map_byteAt_range h

/-- The swapped word decodes to what the foreign word selects: its keys read low byte first, and the
index of pixel p at bits 2(p mod 4) + 1 and 2(p mod 4) of byte 4 + p div 4 (R102, R134, R137). -/
theorem decodeSub_swapWord (w : List Byte) {p : Nat} (h : p < 16) :
    (decodeSub (swapWord w))[p]? =
      (decPalette (be16 (byteAt w 1) (byteAt w 0)) (be16 (byteAt w 3) (byteAt w 2)))[
        (byteAt w (4 + p / 4)).toNat / 4 ^ (p % 4) % 4]? := by
  obtain ⟨-, hdecode, -⟩ := subBlockDecoding
  have hbyte : byteAt (swapWord w) (4 + p / 4) = rev2 (byteAt w (4 + p / 4)) :=
    byteAt_swapWord_index w (by omega) (by omega)
  have hgroup : 3 - (3 - p % 4) = p % 4 := by omega
  rw [hdecode _ _ h, hbyte, rev2_group_toNat _ (by omega), hgroup]
  rfl

/-- Word n of the swapped buffer is word n of the buffer, swapped (R142). -/
theorem dxtWord_swapWords {b : List Byte} {n : Nat} (h : n < b.length / 8) :
    dxtWord (swapWords b) n = swapWord (dxtWord b n) :=
  dxtWord_flatMap_range (fun _ _ => swapWord_length _) h

/-- Settles O58: Rev2 moves group 3 − k to group k, which is what the two index layouts differ by. -/
theorem swapKeepsColours : Obligations.SwapKeepsColours :=
  ⟨fun x => ⟨rev2_rev2 x, fun _ => rev2_group_toNat x⟩,
    fun b hb => ⟨swapWords_length b hb, fun _ hn =>
      ⟨dxtWord_eq_map (by omega), dxtWord_swapWords hn⟩⟩,
    fun w hw => ⟨fun _ => byteAt_swapWord_key w, fun _ => byteAt_swapWord_index w,
      swapWord_swapWord hw, fun _ => decodeSub_swapWord w⟩⟩

/-! ### Reorder (R138)

An image is m blocks wide and t stripes high, so Wb = 2m, and it has 2m · 2t words. -/

/-- The number in local order of quadrant q of block k of stripe s (R138). -/
def localNumber (wb s k q : Nat) : Nat := s * 2 * wb + 4 * k + q

/-- The number in foreign order of quadrant q of block k of stripe s (R138). -/
def foreignNumber (wb s k q : Nat) : Nat := (2 * s + q / 2) * wb + 2 * k + q % 2

section Numbers
variable {m t s k q n : Nat}

/-- A row-major number lies below the number of cells. -/
theorem row_major_lt {width height row col : Nat} (hrow : row < height) (hcol : col < width) :
    row * width + col < width * height :=
  calc row * width + col < row * width + width := by omega
    _ = (row + 1) * width := by ring
    _ ≤ height * width := Nat.mul_le_mul_right _ hrow
    _ = width * height := Nat.mul_comm ..

theorem localNumber_lt (hs : s < t) (hk : k < m) (hq : q < 4) :
    localNumber (2 * m) s k q < 2 * m * (2 * t) := by
  have hlt : s * (4 * m) + (4 * k + q) < 4 * m * t := row_major_lt hs (by omega)
  rw [localNumber]
  linarith

theorem foreignNumber_lt (hs : s < t) (hk : k < m) (hq : q < 4) :
    foreignNumber (2 * m) s k q < 2 * m * (2 * t) := by
  rw [foreignNumber, Nat.add_assoc]
  exact row_major_lt (by omega) (by omega)

/-- Every word is a quadrant of some block, in local order. -/
theorem exists_localNumber (h : n < 2 * m * (2 * t)) :
    ∃ s < t, ∃ k < m, ∃ q < 4, n = localNumber (2 * m) s k q := by
  have hm : 0 < m := Nat.pos_of_ne_zero fun hm => by simp [hm] at h
  have hstripe : n / (4 * m) < t := Nat.div_lt_of_lt_mul (by linarith)
  have hin : n % (4 * m) < 4 * m := Nat.mod_lt _ (by omega)
  have hn : n = n / (4 * m) * (4 * m) + n % (4 * m) := (Nat.div_add_mod' ..).symm
  refine ⟨_, hstripe, n % (4 * m) / 4, by omega, n % (4 * m) % 4, by omega, ?_⟩
  rw [localNumber, show n / (4 * m) * 2 * (2 * m) = n / (4 * m) * (4 * m) by ring]
  omega

/-- Every word is a quadrant of some block, in foreign order. -/
theorem exists_foreignNumber (h : n < 2 * m * (2 * t)) :
    ∃ s < t, ∃ k < m, ∃ q < 4, n = foreignNumber (2 * m) s k q := by
  have hm : 0 < m := Nat.pos_of_ne_zero fun hm => by simp [hm] at h
  have hrow : n / (2 * m) < 2 * t := Nat.div_lt_of_lt_mul h
  have hcol : n % (2 * m) < 2 * m := Nat.mod_lt _ (by omega)
  refine ⟨n / (2 * m) / 2, by omega, n % (2 * m) / 2, by omega,
    2 * (n / (2 * m) % 2) + n % (2 * m) % 2, by omega, ?_⟩
  rw [foreignNumber, show 2 * (n / (2 * m) / 2) +
    (2 * (n / (2 * m) % 2) + n % (2 * m) % 2) / 2 = n / (2 * m) by omega]
  have hn : n = n / (2 * m) * (2 * m) + n % (2 * m) := (Nat.div_add_mod' ..).symm
  omega

/-- `foreignIndex` takes a local number to the foreign number of the same quadrant. -/
theorem foreignIndex_localNumber (hk : k < m) (hq : q < 4) :
    foreignIndex (2 * m) (localNumber (2 * m) s k q) = foreignNumber (2 * m) s k q := by
  have hin : 4 * k + q < 2 * (2 * m) := by omega
  have hnum : localNumber (2 * m) s k q = 4 * k + q + s * (2 * (2 * m)) := by
    rw [localNumber]; ring
  have hstripe : localNumber (2 * m) s k q / (2 * (2 * m)) = s := by
    rw [hnum, Nat.add_mul_div_right _ _ (by omega), Nat.div_eq_of_lt hin, Nat.zero_add]
  have hoff : localNumber (2 * m) s k q % (2 * (2 * m)) = 4 * k + q := by
    rw [hnum, Nat.add_mul_mod_self_right, Nat.mod_eq_of_lt hin]
  have hblock : (4 * k + q) / 4 = k := by omega
  have hquad : (4 * k + q) % 4 = q := by omega
  rw [foreignIndex, hstripe, hoff, hblock, hquad, foreignNumber]

/-- `localIndex` takes a foreign number to the local number of the same quadrant. -/
theorem localIndex_foreignNumber (hk : k < m) (hq : q < 4) :
    localIndex (2 * m) (foreignNumber (2 * m) s k q) = localNumber (2 * m) s k q := by
  have hin : 2 * k + q % 2 < 2 * m := by omega
  have hnum : foreignNumber (2 * m) s k q = 2 * k + q % 2 + (2 * s + q / 2) * (2 * m) := by
    rw [foreignNumber]; ring
  have hrow : foreignNumber (2 * m) s k q / (2 * m) = 2 * s + q / 2 := by
    rw [hnum, Nat.add_mul_div_right _ _ (by omega), Nat.div_eq_of_lt hin, Nat.zero_add]
  have hcol : foreignNumber (2 * m) s k q % (2 * m) = 2 * k + q % 2 := by
    rw [hnum, Nat.add_mul_mod_self_right, Nat.mod_eq_of_lt hin]
  have hstripe : (2 * s + q / 2) / 2 = s := by omega
  rw [localIndex, hrow, hcol, hstripe, localNumber, Nat.mul_assoc]
  omega

theorem foreignIndex_lt (h : n < 2 * m * (2 * t)) : foreignIndex (2 * m) n < 2 * m * (2 * t) := by
  obtain ⟨s, hs, k, hk, q, hq, rfl⟩ := exists_localNumber h
  rw [foreignIndex_localNumber hk hq]
  exact foreignNumber_lt hs hk hq

theorem localIndex_lt (h : n < 2 * m * (2 * t)) : localIndex (2 * m) n < 2 * m * (2 * t) := by
  obtain ⟨s, hs, k, hk, q, hq, rfl⟩ := exists_foreignNumber h
  rw [localIndex_foreignNumber hk hq]
  exact localNumber_lt hs hk hq

end Numbers

/-- The words of a buffer in the order that `g` gives: word n of the result is word `g n` (R138). -/
def permuteWords (g : Nat → Nat) (b : List Byte) : List Byte :=
  (List.range (b.length / 8)).flatMap fun n => dxtWord b (g n)

theorem reorderEncode_eq (wb : Nat) (b : List Byte) :
    reorderEncode wb b = permuteWords (foreignIndex wb) b := rfl

theorem reorderDecode_eq (wb : Nat) (b : List Byte) :
    reorderDecode wb b = permuteWords (localIndex wb) b := rfl

section PermuteWords
variable {g : Nat → Nat} {b : List Byte} {c : Nat}

theorem permuteWords_length (hb : b.length = 8 * c) (hg : ∀ n < c, g n < c) :
    (permuteWords g b).length = b.length := by
  have hwords : b.length / 8 = c := by omega
  rw [permuteWords, hwords, length_flatMap_const _ 8 _ fun n hn => ?_, List.length_range, hb]
  have hlt := hg n (List.mem_range.1 hn)
  exact dxtWord_length b _ (by omega)

theorem dxtWord_permuteWords (hb : b.length = 8 * c) (hg : ∀ n < c, g n < c) {n : Nat}
    (hn : n < c) : dxtWord (permuteWords g b) n = dxtWord b (g n) := by
  refine dxtWord_flatMap_range (fun i hi => ?_) (by omega)
  have hlt := hg i (by omega)
  exact dxtWord_length b _ (by omega)

end PermuteWords

/-- Settles O59: each index function of the model takes the number of a quadrant in one order to its
number in the other, and stays within the image. -/
theorem reorderPermutesWords : Obligations.ReorderPermutesWords := by
  intro w h b _ _ hw8 hh8 hb wb hb4
  obtain ⟨m, rfl⟩ := Nat.dvd_of_mod_eq_zero hw8
  obtain ⟨t, rfl⟩ := Nat.dvd_of_mod_eq_zero hh8
  have hwb : wb = 2 * m := by omega
  have hlen : b.length = 8 * (2 * m * (2 * t)) := by
    rw [hb, show 8 * m * (8 * t) = 8 * (2 * m * (2 * t)) * 2 by ring,
      Nat.mul_div_cancel _ (by decide)]
  rw [hwb, reorderEncode_eq, reorderDecode_eq]
  refine ⟨permuteWords_length hlen fun _ => foreignIndex_lt,
    permuteWords_length hlen fun _ => localIndex_lt, fun s k q hs hk hq => ?_⟩
  have hst : s < t := by omega
  have hkm : k < m := by omega
  constructor
  · exact (dxtWord_permuteWords hlen (fun _ => foreignIndex_lt) (localNumber_lt hst hkm hq)).trans
      (congrArg (dxtWord b) (foreignIndex_localNumber hkm hq))
  · exact (dxtWord_permuteWords hlen (fun _ => localIndex_lt) (foreignNumber_lt hst hkm hq)).trans
      (congrArg (dxtWord b) (localIndex_foreignNumber hkm hq))

end Sys2Proof.Machine
end

section
/-! PROOFS of the statements about spec/30_encoding.md: the decoder and the encoder are inverse to
each other, and which words are refused (R47 to R49). -/

namespace Sys2Proof

/-! ### The fields of a command word (R47) -/

/-- A field above another one: the two side by side, as one wider field. -/
theorem setWidth_or_shiftLeft {a b n : Nat} (x : BitVec a) (y : BitVec b) :
    y.setWidth n ||| x.setWidth n <<< b = (x ++ y).setWidth n := by
  ext i hi
  by_cases h : i < b
  · simp [BitVec.getLsbD_append, h]
  · have hy : y.getLsbD i = false := BitVec.getLsbD_of_ge y i (Nat.not_lt.1 h)
    simp [BitVec.getLsbD_append, h, hy]

/-- A bit of a word as a field of one bit. -/
theorem ofBool_getLsbD (w : Word) (k : Nat) : BitVec.ofBool (w.getLsbD k) = w.extractLsb' k 1 := by
  ext i hi
  obtain rfl : i = 0 := by omega
  simp

section CommandWord
variable (op : BitVec 8) (fmt : BitVec 4) (pfmt : BitVec 2) (f pp : Bool) (qsel : BitVec 2)
  (lvl : BitVec 5)

/-- A command word is its fields side by side. -/
theorem commandWord_eq_append :
    commandWord op fmt pfmt f pp qsel lvl =
      (lvl ++ (qsel ++ (BitVec.ofBool pp ++ (BitVec.ofBool f ++ (pfmt ++ (fmt ++ op)))))).setWidth
        32 := by
  simp only [← setWidth_or_shiftLeft]
  rfl

theorem opField_commandWord : opField (commandWord op fmt pfmt f pp qsel lvl) = op := by
  rw [commandWord_eq_append, opField]
  simp (disch := decide) only [BitVec.extractLsb'_setWidth_of_le,
    BitVec.extractLsb'_append_eq_of_add_le]
  exact BitVec.extractLsb'_eq_self

theorem fmtField_commandWord : fmtField (commandWord op fmt pfmt f pp qsel lvl) = fmt := by
  rw [commandWord_eq_append, fmtField]
  simp (disch := decide) only [BitVec.extractLsb'_setWidth_of_le,
    BitVec.extractLsb'_append_eq_of_add_le, BitVec.extractLsb'_append_eq_left]

theorem pfmtField_commandWord : pfmtField (commandWord op fmt pfmt f pp qsel lvl) = pfmt := by
  rw [commandWord_eq_append, pfmtField]
  simp (disch := decide) only [BitVec.extractLsb'_setWidth_of_le,
    BitVec.extractLsb'_append_eq_of_add_le, BitVec.extractLsb'_append_eq_left]

theorem fField_commandWord : fField (commandWord op fmt pfmt f pp qsel lvl) = f := by
  rw [commandWord_eq_append, fField]
  simp only [BitVec.getLsbD_setWidth, BitVec.getLsbD_append]
  simp

theorem ppField_commandWord : ppField (commandWord op fmt pfmt f pp qsel lvl) = pp := by
  rw [commandWord_eq_append, ppField]
  simp only [BitVec.getLsbD_setWidth, BitVec.getLsbD_append]
  simp

theorem qselField_commandWord : qselField (commandWord op fmt pfmt f pp qsel lvl) = qsel := by
  rw [commandWord_eq_append, qselField]
  simp (disch := decide) only [BitVec.extractLsb'_setWidth_of_le,
    BitVec.extractLsb'_append_eq_of_add_le, BitVec.extractLsb'_append_eq_left]

theorem lvlField_commandWord : lvlField (commandWord op fmt pfmt f pp qsel lvl) = lvl := by
  rw [commandWord_eq_append, lvlField]
  simp (disch := decide) only [BitVec.extractLsb'_setWidth_of_le,
    BitVec.extractLsb'_append_eq_left]

end CommandWord

/-- A word with bits 31:23 at 0 is the command word of its fields. -/
theorem commandWord_fields {w : Word} (h : w.extractLsb' 23 9 = 0) :
    commandWord (opField w) (fmtField w) (pfmtField w) (fField w) (ppField w) (qselField w)
      (lvlField w) = w := by
  have hw : 0#9 ++ w.extractLsb' 0 23 = w := by
    rw [show 0#9 = w.extractLsb' 23 9 from h.symm]
    exact BitVec.extractLsb'_append_extractLsb' (w := 9) (len := 23)
  rw [commandWord_eq_append]
  simp only [opField, fmtField, pfmtField, fField, ppField, qselField, lvlField, ofBool_getLsbD]
  iterate 6 rw [BitVec.extractLsb'_append_extractLsb'_eq_extractLsb' (by decide)]
  conv_rhs => rw [← hw]
  exact BitVec.setWidth_eq_append (by decide)

/-- A field that the row fixes at 0 is 0 in a word without offending bits (R48). -/
theorem extractLsb'_of_offendingBits {mask w : Word} (h : offendingBits mask w = 0)
    {start len : Nat}
    (hm : (mask &&& 0xFFFFFF00).extractLsb' start len = BitVec.allOnes len) :
    w.extractLsb' start len = 0 := by
  have hfield := congrArg (BitVec.extractLsb' start len) h
  rw [offendingBits, BitVec.and_assoc, BitVec.extractLsb'_and, hm, BitVec.and_allOnes] at hfield
  simpa using hfield

/-! ### Decoding (R48) -/

/-- No two rows of the opcode map have one OP. -/
theorem opcodeMap_op_inj {row row' : OpcodeRow} (h : row ∈ opcodeMap) (h' : row' ∈ opcodeMap)
    (hop : row.op = row'.op) : row = row' :=
  List.inj_on_of_nodup_map (f := OpcodeRow.op) (l := opcodeMap) (by decide) h h' hop

/-- The row of a word is the one with its OP. -/
theorem find_row {w : Word} {row : OpcodeRow} (h : row ∈ opcodeMap) (hop : opField w = row.op) :
    opcodeMap.find? (fun r => r.op = opField w) = some row := by
  cases hfind : opcodeMap.find? (fun r => r.op = opField w) with
  | none => exact absurd hop.symm (by simpa using List.find?_eq_none.1 hfind row h)
  | some row' =>
    have hop' : row'.op = opField w := by simpa using List.find?_some hfind
    rw [opcodeMap_op_inj (List.mem_of_find?_eq_some hfind) h (hop'.trans hop)]

/-- A word with the OP of a row and no offending bit decodes to the row's command. -/
theorem decode_of_row {w : Word} {row : OpcodeRow} (h : row ∈ opcodeMap) (hop : opField w = row.op)
    (hbits : offendingBits row.mask w = 0) : decode w = .ok (row.build w) := by
  simp only [decode, find_row h hop, hbits, if_true]

/-- A word with the OP of a row and an offending bit is refused with those bits. -/
theorem decode_of_offending {w : Word} {row : OpcodeRow} (h : row ∈ opcodeMap)
    (hop : opField w = row.op) (hbits : offendingBits row.mask w ≠ 0) :
    decode w = .error (.reserved (offendingBits row.mask w)) := by
  simp only [decode, find_row h hop, if_neg hbits]

/-- A word is refused with its OP exactly when no row has that OP. -/
theorem decode_eq_opcode_iff (w : Word) :
    decode w = .error (.opcode (opField w)) ↔ ∀ row ∈ opcodeMap, row.op ≠ opField w := by
  by_cases h : ∃ row ∈ opcodeMap, row.op = opField w
  · obtain ⟨row, hrow, hop⟩ := h
    refine iff_of_false ?_ fun hne => hne row hrow hop
    by_cases hbits : offendingBits row.mask w = 0
    · simp [decode_of_row hrow hop.symm hbits]
    · simp [decode_of_offending hrow hop.symm hbits]
  · have hnone : opcodeMap.find? (fun r => r.op = opField w) = none := by
      simpa using h
    simp only [decode, hnone]
    simpa using h

/-- A word that decodes is one of a row with no offending bit. -/
theorem decode_eq_ok {w : Word} {i : Instr} (h : decode w = .ok i) :
    ∃ row ∈ opcodeMap, opField w = row.op ∧ offendingBits row.mask w = 0 ∧ i = row.build w := by
  by_cases hop : ∀ row ∈ opcodeMap, row.op ≠ opField w
  · rw [(decode_eq_opcode_iff w).2 hop] at h
    cases h
  · push Not at hop
    obtain ⟨row, hrow, hop⟩ := hop
    by_cases hbits : offendingBits row.mask w = 0
    · rw [decode_of_row hrow hop.symm hbits] at h
      cases h
      exact ⟨row, hrow, hop.symm, hbits, rfl⟩
    · rw [decode_of_offending hrow hop.symm hbits] at h
      cases h

/-- A bit that the row fixes at 0 is 0 in a word without offending bits (R48). -/
theorem getLsbD_of_offendingBits {mask w : Word} (h : offendingBits mask w = 0) {k : Nat}
    (hm : (mask &&& 0xFFFFFF00).extractLsb' k 1 = BitVec.allOnes 1) : w.getLsbD k = false := by
  have hbit := extractLsb'_of_offendingBits h hm
  rw [← ofBool_getLsbD] at hbit
  cases hk : w.getLsbD k with
  | false => rfl
  | true => rw [hk] at hbit; cases hbit

/-- The command that a row builds from a word without offending bits encodes as that word. -/
theorem encode_build {w : Word} {row : OpcodeRow} (h : row ∈ opcodeMap) (hop : opField w = row.op)
    (hbits : offendingBits row.mask w = 0) : encode (row.build w) = w := by
  have hw : w.extractLsb' 23 9 = 0 := by
    refine extractLsb'_of_offendingBits hbits ?_
    have hhigh : ∀ row ∈ opcodeMap,
        (row.mask &&& 0xFFFFFF00).extractLsb' 23 9 = BitVec.allOnes 9 := by
      simp only [opcodeMap, List.forall_mem_cons]
      decide
    exact hhigh row h
  have hfmt := @extractLsb'_of_offendingBits _ _ hbits 8 4
  have hpfmt := @extractLsb'_of_offendingBits _ _ hbits 12 2
  have hf := @getLsbD_of_offendingBits _ _ hbits 14
  have hpp := @getLsbD_of_offendingBits _ _ hbits 15
  have hqsel := @extractLsb'_of_offendingBits _ _ hbits 16 2
  have hlvl := @extractLsb'_of_offendingBits _ _ hbits 18 5
  conv_rhs => rw [← commandWord_fields hw, hop]
  fin_cases h <;>
    simp (disch := decide) only [encode, fmtField, pfmtField, fField, ppField, qselField, lvlField,
      hfmt, hpfmt, hqsel, hlvl, hf, hpp]

/-! ### Decoding what was encoded -/

/-- The word of every command is one that its row accepts. -/
theorem matchesRow (i : Instr) : Laws.MatchesRow.Statement i := by
  cases i with
  | nop => exact Laws.MatchesRow.nop
  | desc fmt => exact Laws.MatchesRow.desc fmt
  | palmax fmt => exact Laws.MatchesRow.palmax fmt
  | dsize fmt lvl => exact Laws.MatchesRow.dsize fmt lvl
  | tsize fmt lvl => exact Laws.MatchesRow.tsize fmt lvl
  | mipcnt fmt => exact Laws.MatchesRow.mipcnt fmt
  | decb fmt pfmt pp => exact Laws.MatchesRow.decb fmt pfmt pp
  | deci fmt => exact Laws.MatchesRow.deci fmt
  | encb fmt => exact Laws.MatchesRow.encb fmt
  | enci fmt => exact Laws.MatchesRow.enci fmt
  | cdec4 => exact Laws.MatchesRow.cdec4
  | ckey => exact Laws.MatchesRow.ckey
  | cpal f => exact Laws.MatchesRow.cpal f
  | cidx => exact Laws.MatchesRow.cidx
  | cenc4 => exact Laws.MatchesRow.cenc4
  | qdist => exact Laws.MatchesRow.qdist
  | qavg => exact Laws.MatchesRow.qavg
  | qnear => exact Laws.MatchesRow.qnear
  | qpal f qsel => exact Laws.MatchesRow.qpal f qsel
  | xswp => exact Laws.MatchesRow.xswp
  | xreo => exact Laws.MatchesRow.xreo
  | xred => exact Laws.MatchesRow.xred
  | x2c => exact Laws.MatchesRow.x2c
  | c2x => exact Laws.MatchesRow.c2x
  | pdec pfmt => exact Laws.MatchesRow.pdec pfmt
  | penc pfmt => exact Laws.MatchesRow.penc pfmt
  | prange fmt pp => exact Laws.MatchesRow.prange fmt pp

/-- A command decodes from its word where row k has its OP and builds the command from that word. -/
theorem decode_encode_of_row {i : Instr} (k : Nat) (hk : k < opcodeMap.length := by decide)
    (hop : opField (encode i) = opcodeMap[k].op) (hbuild : opcodeMap[k].build (encode i) = i) :
    decode (encode i) = .ok i := by
  obtain ⟨row, hrow, hop', hbits⟩ := matchesRow i
  obtain rfl := opcodeMap_op_inj hrow (List.getElem_mem hk) (hop'.trans hop)
  rw [decode_of_row hrow hop hbits, hbuild]

/-- Settles O1: the OP of a command's word is that of its row, and each field that the row reads is
the one that was encoded. -/
theorem decodeOfEncode : Obligations.DecodeOfEncode := by
  intro i
  cases i with
  | nop =>
    exact decode_encode_of_row 0 (by decide) (opField_commandWord ..) rfl
  | desc fmt =>
    exact decode_encode_of_row 1 (by decide) (opField_commandWord ..)
      (congrArg Instr.desc (fmtField_commandWord ..))
  | palmax fmt =>
    exact decode_encode_of_row 2 (by decide) (opField_commandWord ..)
      (congrArg Instr.palmax (fmtField_commandWord ..))
  | dsize fmt lvl =>
    exact decode_encode_of_row 3 (by decide) (opField_commandWord ..)
      (congrArg₂ Instr.dsize (fmtField_commandWord ..) (lvlField_commandWord ..))
  | tsize fmt lvl =>
    exact decode_encode_of_row 4 (by decide) (opField_commandWord ..)
      (congrArg₂ Instr.tsize (fmtField_commandWord ..) (lvlField_commandWord ..))
  | mipcnt fmt =>
    exact decode_encode_of_row 5 (by decide) (opField_commandWord ..)
      (congrArg Instr.mipcnt (fmtField_commandWord ..))
  | decb fmt pfmt pp =>
    exact decode_encode_of_row 6 (by decide) (opField_commandWord ..)
      (congr (congrArg₂ Instr.decb (fmtField_commandWord ..) (pfmtField_commandWord ..))
        (ppField_commandWord ..))
  | deci fmt =>
    exact decode_encode_of_row 7 (by decide) (opField_commandWord ..)
      (congrArg Instr.deci (fmtField_commandWord ..))
  | encb fmt =>
    exact decode_encode_of_row 8 (by decide) (opField_commandWord ..)
      (congrArg Instr.encb (fmtField_commandWord ..))
  | enci fmt =>
    exact decode_encode_of_row 9 (by decide) (opField_commandWord ..)
      (congrArg Instr.enci (fmtField_commandWord ..))
  | cdec4 =>
    exact decode_encode_of_row 10 (by decide) (opField_commandWord ..) rfl
  | ckey =>
    exact decode_encode_of_row 11 (by decide) (opField_commandWord ..) rfl
  | cpal f =>
    exact decode_encode_of_row 12 (by decide) (opField_commandWord ..)
      (congrArg Instr.cpal (fField_commandWord ..))
  | cidx =>
    exact decode_encode_of_row 13 (by decide) (opField_commandWord ..) rfl
  | cenc4 =>
    exact decode_encode_of_row 14 (by decide) (opField_commandWord ..) rfl
  | qdist =>
    exact decode_encode_of_row 15 (by decide) (opField_commandWord ..) rfl
  | qavg =>
    exact decode_encode_of_row 16 (by decide) (opField_commandWord ..) rfl
  | qnear =>
    exact decode_encode_of_row 17 (by decide) (opField_commandWord ..) rfl
  | qpal f qsel =>
    exact decode_encode_of_row 18 (by decide) (opField_commandWord ..)
      (congrArg₂ Instr.qpal (fField_commandWord ..) (qselField_commandWord ..))
  | xswp =>
    exact decode_encode_of_row 19 (by decide) (opField_commandWord ..) rfl
  | xreo =>
    exact decode_encode_of_row 20 (by decide) (opField_commandWord ..) rfl
  | xred =>
    exact decode_encode_of_row 21 (by decide) (opField_commandWord ..) rfl
  | x2c =>
    exact decode_encode_of_row 22 (by decide) (opField_commandWord ..) rfl
  | c2x =>
    exact decode_encode_of_row 23 (by decide) (opField_commandWord ..) rfl
  | pdec pfmt =>
    exact decode_encode_of_row 24 (by decide) (opField_commandWord ..)
      (congrArg Instr.pdec (pfmtField_commandWord ..))
  | penc pfmt =>
    exact decode_encode_of_row 25 (by decide) (opField_commandWord ..)
      (congrArg Instr.penc (pfmtField_commandWord ..))
  | prange fmt pp =>
    exact decode_encode_of_row 26 (by decide) (opField_commandWord ..)
      (congrArg₂ Instr.prange (fmtField_commandWord ..) (ppField_commandWord ..))

/-- Settles O2: a word that decodes has the OP of a row and no offending bit, so the fields that the
row does not read are 0. -/
theorem encodeOfDecode : Obligations.EncodeOfDecode := by
  intro w i h
  obtain ⟨row, hrow, hop, hbits, rfl⟩ := decode_eq_ok h
  exact encode_build hrow hop hbits

/-! ### Words that are refused (R48, R49, R149) -/

/-- A word is its low byte exactly when no bit above is 1. -/
theorem eq_low_byte_iff (x : Word) :
    x = (x.extractLsb' 0 8).setWidth 32 ↔ x &&& 0xFFFFFF00 = 0 := by
  have hx : x = x.extractLsb' 8 24 ++ x.extractLsb' 0 8 :=
    (BitVec.extractLsb'_append_extractLsb' (w := 24) (len := 8)).symm
  have hlow : (x.extractLsb' 0 8).setWidth 32 = 0#24 ++ x.extractLsb' 0 8 :=
    BitVec.setWidth_eq_append (by decide)
  have hhigh : x &&& 0xFFFFFF00 = x.extractLsb' 8 24 ++ 0#8 := by
    conv_lhs => rw [hx, show (0xFFFFFF00 : Word) = BitVec.allOnes 24 ++ 0#8 by decide]
    rw [BitVec.and_append, BitVec.and_allOnes, BitVec.and_zero]
  rw [hlow, hhigh, show (0 : Word) = 0#24 ++ 0#8 by decide, BitVec.append_left_inj]
  conv_lhs => lhs; rw [hx]
  exact BitVec.append_left_inj _

/-- With the OP of the row, a word agrees with the row's match exactly when it has no offending
bit. -/
theorem and_mask_eq_op_iff {w : Word} {row : OpcodeRow} (h : row ∈ opcodeMap)
    (hop : opField w = row.op) :
    w &&& row.mask = row.op.setWidth 32 ↔ offendingBits row.mask w = 0 := by
  have hlow : (w &&& row.mask).extractLsb' 0 8 = row.op := by
    have hmask : ∀ row ∈ opcodeMap, row.mask.extractLsb' 0 8 = BitVec.allOnes 8 := by
      simp only [opcodeMap, List.forall_mem_cons]
      decide
    rw [BitVec.extractLsb'_and, hmask row h, BitVec.and_allOnes]
    exact hop
  rw [offendingBits, ← hlow]
  exact eq_low_byte_iff _

/-- The OP values that no row of the opcode map has (R49). -/
theorem op_unlisted_iff : ∀ op : BitVec 8, (∀ row ∈ opcodeMap, row.op ≠ op) ↔
    (0x06 ≤ op.toNat ∧ op.toNat ≤ 0x0F) ∨ (0x14 ≤ op.toNat ∧ op.toNat ≤ 0x1F) ∨
    (0x25 ≤ op.toNat ∧ op.toNat ≤ 0x2F) ∨ (0x34 ≤ op.toNat ∧ op.toNat ≤ 0x3F) ∨
    (0x45 ≤ op.toNat ∧ op.toNat ≤ 0x4F) ∨ 0x53 ≤ op.toNat := by
  decide

/-- Settles O3: a word is looked up by its OP, and with the row's OP the match fails exactly on
an offending bit. -/
theorem wordsRefusedByName : Obligations.WordsRefusedByName := by
  refine ⟨fun row hrow w hop => ⟨fun hmatch => ?_, fun hmatch => ?_⟩, fun w => ?_⟩
  · exact decode_of_row hrow hop ((and_mask_eq_op_iff hrow hop).1 hmatch)
  · exact decode_of_offending hrow hop (mt (and_mask_eq_op_iff hrow hop).2 hmatch)
  · rw [decode_eq_opcode_iff, op_unlisted_iff]

/-- Settles O4: the words are computed. -/
theorem decodedWords : Obligations.DecodedWords := by
  refine ⟨?_, ?_, ?_, ?_, ?_, ?_, ?_, ?_, ?_, ?_⟩ <;> decide

end Sys2Proof
end

section
/-! PROOFS of the statements about the limited palette of spec/44_quantizer.md: its length (R128)
and its transparent entries (R129, R133). -/

namespace Sys2Proof.Machine

/-! ### Length (R128) -/

/-- A split to depth d gives one entry for each colour, up to 2^d entries: the two halves differ in
length by one at most. -/
theorem splitToBuckets_length (d : Nat) (cs : List Color) :
    (splitToBuckets d cs).length = min cs.length (2 ^ d) := by
  induction d generalizing cs with
  | zero =>
    by_cases h : cs = []
    · simp [h, splitToBuckets_nil]
    · have hpos := List.length_pos_of_ne_nil h
      rw [splitToBuckets_zero h, List.length_singleton]
      omega
  | succ d ih =>
    by_cases h : cs = []
    · simp [h, splitToBuckets_nil]
    · rw [splitToBuckets_succ h, List.length_append, ih, ih, List.length_drop, List.length_take,
        sortByKey_length, Nat.pow_succ]
      omega

theorem maxColors_eq_two_pow (m : PaletteSize) : m.maxColors = 2 ^ m.depth := by
  cases m <;> rfl

theorem buildLimitedPalette_length (cs : List Color) (m : PaletteSize) (allowAlpha : Bool) :
    (buildLimitedPalette cs m allowAlpha).length = min cs.length m.maxColors := by
  rw [buildLimitedPalette, splitToBuckets_length, maxColors_eq_two_pow]
  cases allowAlpha <;> simp

/-- Settles O55: maxColors is 2 to the split depth. -/
theorem limitedPaletteLength : Obligations.LimitedPaletteLength := buildLimitedPalette_length

/-! ### Buckets (R126) -/

/-- The two halves of a sort hold the colours that were sorted, and no others. -/
theorem mem_halves_sortByKey (key : Color → Nat) (cs : List Color) (n : Nat) (c : Color) :
    c ∈ (sortByKey key cs).drop n ∨ c ∈ (sortByKey key cs).take n ↔ c ∈ cs := by
  rw [or_comm, ← List.mem_append, List.take_append_drop, (sortByKey_perm key cs).mem_iff]

/-- Every entry is the average of a bucket, and every bucket holds colours of the population. -/
theorem exists_bucket_of_mem {d : Nat} {cs : List Color} {e : Color}
    (h : e ∈ splitToBuckets d cs) :
    ∃ bucket, bucket ≠ [] ∧ bucket ⊆ cs ∧ e = averageColor bucket := by
  induction d generalizing cs with
  | zero =>
    by_cases hcs : cs = []
    · simp [hcs, splitToBuckets_nil] at h
    · rw [splitToBuckets_zero hcs, List.mem_singleton] at h
      exact ⟨cs, hcs, List.Subset.refl cs, h⟩
  | succ d ih =>
    by_cases hcs : cs = []
    · simp [hcs, splitToBuckets_nil] at h
    · rw [splitToBuckets_succ hcs, List.mem_append] at h
      have hsub := mem_halves_sortByKey (sortKey (splitChannel cs)) cs (cs.length / 2)
      rcases h with h | h
      · obtain ⟨bucket, hne, hb, he⟩ := ih h
        exact ⟨bucket, hne, fun c hc => (hsub c).1 (.inl (hb hc)), he⟩
      · obtain ⟨bucket, hne, hb, he⟩ := ih h
        exact ⟨bucket, hne, fun c hc => (hsub c).1 (.inr (hb hc)), he⟩

/-- Every colour of the population lies in a bucket whose average is an entry. -/
theorem exists_bucket_with {cs : List Color} {c : Color} (d : Nat) (h : c ∈ cs) :
    ∃ bucket, c ∈ bucket ∧ averageColor bucket ∈ splitToBuckets d cs := by
  induction d generalizing cs with
  | zero =>
    rw [splitToBuckets_zero (List.ne_nil_of_mem h)]
    exact ⟨cs, h, List.mem_singleton_self _⟩
  | succ d ih =>
    rw [splitToBuckets_succ (List.ne_nil_of_mem h)]
    rcases (mem_halves_sortByKey (sortKey (splitChannel cs)) cs (cs.length / 2) c).2 h with h | h
    · obtain ⟨bucket, hc, he⟩ := ih h
      exact ⟨bucket, hc, List.mem_append_left _ he⟩
    · obtain ⟨bucket, hc, he⟩ := ih h
      exact ⟨bucket, hc, List.mem_append_right _ he⟩

/-! ### Transparent entries (R129, R133) -/

/-- The average of a list with a fully transparent colour is a fully transparent colour of it. -/
theorem averageColor_of_transparent {cs : List Color} (h : ∃ c ∈ cs, c.a = 0) :
    averageColor cs ∈ cs ∧ (averageColor cs).a = 0 := by
  cases hfind : cs.find? (fun c => decide (c.a = 0)) with
  | none =>
    obtain ⟨c, hc, ha⟩ := h
    exact absurd ha (by simpa using List.find?_eq_none.1 hfind c hc)
  | some c =>
    have havg : averageColor cs = c := by rw [averageColor, hfind]
    rw [havg]
    exact ⟨List.mem_of_find?_eq_some hfind, by simpa using List.find?_some hfind⟩

/-- A lower and an upper bound of a channel bound its mean. -/
theorem channelMean_mem_Icc {k : Color → Byte} {cs : List Color} (h : cs ≠ []) {lo hi : Nat}
    (hk : ∀ c ∈ cs, lo ≤ (k c).toNat ∧ (k c).toNat ≤ hi) :
    lo ≤ (channelMean k cs).toNat ∧ (channelMean k cs).toNat ≤ hi := by
  have hpos := List.length_pos_of_ne_nil h
  have hlo : cs.length * lo ≤ (cs.map fun c => (k c).toNat).sum := by
    simpa using List.card_nsmul_le_sum (cs.map fun c => (k c).toNat) lo
      (by simpa using fun c hc => (hk c hc).1)
  have hhi : (cs.map fun c => (k c).toNat).sum ≤ cs.length * hi := by
    simpa using List.sum_le_card_nsmul (cs.map fun c => (k c).toNat) hi
      (by simpa using fun c hc => (hk c hc).2)
  rw [channelMean_toNat]
  exact ⟨(Nat.le_div_iff_mul_le hpos).2 (by linarith), Nat.div_le_of_le_mul hhi⟩

/-- A list without a fully transparent colour has an average whose alpha is the mean alpha. -/
theorem averageColor_a {cs : List Color} (h : ∀ c ∈ cs, c.a ≠ 0) :
    (averageColor cs).a = channelMean Color.a cs := by
  rw [averageColor_of_no_zero_alpha h]

/-- Settles O56: an entry is the average of a bucket, which is a transparent colour of the bucket
where it has one, and else has a mean alpha between the least and the greatest. -/
theorem transparentEntriesKept : Obligations.TransparentEntriesKept := by
  intro cs m
  refine ⟨fun ⟨c, hc, ha⟩ => ?_, fun e he ha => ?_, fun e he => ?_⟩
  · obtain ⟨bucket, hb, hentry⟩ := exists_bucket_with m.depth hc
    exact ⟨_, hentry, (averageColor_of_transparent ⟨c, hb, ha⟩).2⟩
  · obtain ⟨bucket, hne, hsub, rfl⟩ := exists_bucket_of_mem he
    by_cases h : ∃ c ∈ bucket, c.a = 0
    · exact hsub (averageColor_of_transparent h).1
    · push Not at h
      have hpos : ∀ c ∈ bucket, 1 ≤ c.a.toNat ∧ c.a.toNat ≤ 255 := fun c hc => by
        have := h c hc
        bv_omega
      have hmean := (channelMean_mem_Icc hne hpos).1
      rw [← averageColor_a h, ha] at hmean
      exact absurd hmean (by decide)
  · obtain ⟨bucket, hne, hsub, rfl⟩ := exists_bucket_of_mem he
    have hopaque : ∀ c ∈ bucket, c.a = 255 := fun c hc => by
      obtain ⟨d, -, rfl⟩ := List.mem_map.1 (hsub hc)
      rfl
    have hmean := channelMean_mem_Icc (k := Color.a) (lo := 255) (hi := 255) hne fun c hc => by
      rw [hopaque c hc]; decide
    rw [averageColor_a fun c hc => by rw [hopaque c hc]; decide]
    exact BitVec.eq_of_toNat_eq (Nat.le_antisymm hmean.2 hmean.1)

end Sys2Proof.Machine
end

section
/-! PROOFS of the statements about every command: how an engine step ends (R26, R153), what it
writes (R33), and the errors of the checks in the order of R152. -/

namespace Sys2Proof.Machine

/-! ### How an engine step ends -/

/-- The outputs of command i lie in a write range of its footprint, or there are no bytes to write.
-/
def Fits (i : Instr) (s : State) (o : Outputs) : Prop :=
  o.bytes = [] ∨ ∃ n, ⟨s.latched.args.dst, n⟩ ∈ (footprint i s.latched.args).writes ∧
    o.bytes.length ≤ n

/-- Everything that the engine step of command i from s can end in, by the order of R152: the error
of a field, of another check before the addresses, of the addresses, of a check after them, or a
completion. -/
inductive CommandEnd (i : Instr) (s : State) : State → Prop
  | format (v : Word) (hi : i.wellFormed = false) : CommandEnd i s (s.errorComplete .format v)
  | early (c : ErrCode) (v : Word) (hc : c ∈ [ErrCode.argument, .dim, .length]) :
      CommandEnd i s (s.errorComplete c v)
  | address (r : Range) (hr : (footprint i s.latched.args).firstOutside s.memSize = some r) :
      CommandEnd i s (s.errorComplete .address r.start)
  | late (c : ErrCode) (v : Word) (hr : s.reaches i) (hc : c ∈ [ErrCode.budget, .index]) :
      CommandEnd i s (s.errorComplete c v)
  | complete (o : Outputs) (hr : s.reaches i) (ho : Fits i s o) : CommandEnd i s (s.complete o)

namespace CommandEnd
variable {i : Instr} {s : State}

theorem withFormat {fmt : BitVec 4} {k : PixelFormat → State}
    (hi : PixelFormat.ofCode fmt = none → i.wellFormed = false)
    (h : ∀ f, PixelFormat.ofCode fmt = some f → CommandEnd i s (k f)) :
    CommandEnd i s (s.withFormat fmt k) := by
  rcases withFormat_cases s fmt k with ⟨hf, e⟩ | ⟨f, hf, e⟩ <;> rw [e]
  · exact format _ (hi hf)
  · exact h f hf

theorem withPaletteFormat {pfmt : BitVec 2} {k : PaletteFormat → State}
    (hi : PaletteFormat.ofCode pfmt = none → i.wellFormed = false)
    (h : ∀ p, CommandEnd i s (k p)) : CommandEnd i s (s.withPaletteFormat pfmt k) := by
  rcases withPaletteFormat_cases s pfmt k with ⟨hp, e⟩ | ⟨p, -, e⟩ <;> rw [e]
  · exact format _ (hi hp)
  · exact h p

theorem withPaletteSize {qsel : BitVec 2} {k : PaletteSize → State}
    (hi : PaletteSize.ofCode qsel = none → i.wellFormed = false)
    (h : ∀ m, PaletteSize.ofCode qsel = some m → CommandEnd i s (k m)) :
    CommandEnd i s (s.withPaletteSize qsel k) := by
  rcases withPaletteSize_cases s qsel k with ⟨hm, e⟩ | ⟨m, hm, e⟩ <;> rw [e]
  · exact format _ (hi hm)
  · exact h m hm

/-- A check before that of the addresses. -/
theorem check {bad : Bool} {c : ErrCode} {v : Word} {k : State}
    (hc : c ∈ [ErrCode.argument, .dim, .length]) (h : CommandEnd i s k) :
    CommandEnd i s (s.unless bad c v k) := by
  rcases unless_cases s bad c v k with ⟨-, e⟩ | ⟨-, e⟩ <;> rw [e]
  · exact early c v hc
  · exact h

theorem access {k : State} (h : s.reaches i → CommandEnd i s k) :
    CommandEnd i s (s.access i k) := by
  rcases access_cases s i k with ⟨hr, e⟩ | ⟨r, hr, e⟩ <;> rw [e]
  · exact h hr
  · exact address r hr

/-- A completion that writes no bytes. -/
theorem complete_nil {o : Outputs} (hr : s.reaches i) (ho : o.bytes = []) :
    CommandEnd i s (s.complete o) := complete o hr (.inl ho)

/-- A completion that writes into the one write range of the footprint. -/
theorem complete_range {o : Outputs} {n : Nat} (hr : s.reaches i)
    (hw : (footprint i s.latched.args).writes = [⟨s.latched.args.dst, n⟩])
    (ho : o.bytes.length ≤ n) : CommandEnd i s (s.complete o) :=
  complete o hr (.inr ⟨n, hw ▸ List.mem_singleton_self _, ho⟩)

end CommandEnd

/-- A permutation of whole words gives at most as many bytes as the buffer has. -/
theorem permuteWords_length_le (g : Nat → Nat) (b : List Byte) :
    (permuteWords g b).length ≤ b.length := by
  have hword : ∀ n, (dxtWord b n).length ≤ 8 := fun n => by simp [dxtWord]
  calc (permuteWords g b).length
      = ((List.range (b.length / 8)).map fun n => (dxtWord b (g n)).length).sum := by
        rw [permuteWords, List.length_flatMap]
    _ ≤ b.length / 8 * 8 := by
        simpa using List.sum_le_card_nsmul
          ((List.range (b.length / 8)).map fun n => (dxtWord b (g n)).length) 8
          (by simpa using fun n _ => hword (g n))
    _ ≤ b.length := Nat.div_mul_le_self _ _

theorem swapWords_length_le (b : List Byte) : (swapWords b).length ≤ b.length := by
  rw [swapWords, length_flatMap_const _ 8 _ fun _ _ => swapWord_length _, List.length_range]
  exact Nat.mul_div_le _ _

@[simp] theorem buffer_length (s : State) : s.buffer.length = s.latched.args.len.toNat :=
  readBytes_length _ _ _

/-- The bytes that ENCB writes fill a block (R92, R118). -/
theorem encb_length {f : PixelFormat} {ps : List Color} (x : Args) (hi : f.indexed = false)
    (h : ps.length = f.npix) :
    (if f = .cmpr then encodeCmpr ps x else encodeBlock f ps).length = f.blockBytes := by
  split
  next hc => rw [hc, encodeCmpr_length]; rfl
  next hc => exact encodeBlock_length f ps hi hc h

theorem cpalPalette_length (f : Bool) (x : Args) (m : Memory) : (cpalPalette f x m).length = 4 := by
  cases f <;> simp [cpalPalette]

/-- How every command's engine step can end. -/
theorem exec_commandEnd (i : Instr) (s : State) : ∃ t, exec i s = .next t ∧ CommandEnd i s t := by
  cases i <;> refine ⟨_, rfl, ?_⟩
  case nop => exact .complete_nil (reaches_of_empty rfl) rfl
  case desc fmt =>
    exact .withFormat (fun h => by simp [Instr.wellFormed, fmtNamed, h]) fun f _ =>
      .complete_nil (reaches_of_empty rfl) rfl
  case palmax fmt =>
    exact .withFormat (fun h => by simp [Instr.wellFormed, fmtIndexed, h]) fun f _ =>
      .check (by decide) <| .complete_nil (reaches_of_empty rfl) rfl
  case dsize fmt lvl | tsize fmt lvl =>
    exact .withFormat (fun h => by simp [Instr.wellFormed, fmtNamed, h]) fun f _ =>
      .check (by decide) <| .complete_nil (reaches_of_empty rfl) rfl
  case mipcnt fmt =>
    refine .withFormat (fun h => by simp [Instr.wellFormed, fmtNamed, h]) fun f _ =>
      .check (by decide) ?_
    rcases unless_cases s (wholeLevels f s.latched.args == 0) .budget s.latched.args.len _ with
      ⟨-, e⟩ | ⟨-, e⟩ <;> rw [e]
    · exact .late _ _ (reaches_of_empty rfl) (by decide)
    · exact .complete_nil (reaches_of_empty rfl) rfl
  case decb fmt pfmt pp =>
    refine .withFormat (fun h => by simp [Instr.wellFormed, fmtNamed, h]) fun f hf => ?_
    split
    next hpal =>
      refine .withPaletteFormat (fun h => ?_) fun p => .check (by decide) <| .access fun hr =>
        .complete_range (n := 4 * f.npix) hr ?_ ?_
      · simp [Instr.wellFormed, fmtIndexed, pfmtNamed, hf, h, hpal]
      · simp [footprint, decbFootprint, hf, hpal]
      · simp [decbIndexedOutputs]
    next hpal =>
      refine .access fun hr => .complete_range (n := 4 * f.grey.npix) hr ?_ ?_
      · simp [footprint, decbFootprint, hf, hpal]
      · simp [decbOutputs]
  case deci fmt =>
    refine .withFormat (fun h => by simp [Instr.wellFormed, fmtIndexed, h]) fun f hf =>
      .check (by decide) <| .access fun hr => .complete_range (n := 2 * f.npix) hr ?_ ?_
    · simp [footprint, hf]
    · simp
  case encb fmt =>
    refine .withFormat (fun h => by simp [Instr.wellFormed, fmtDirect, h]) fun f hf => ?_
    rcases needIndexed_cases s f false _ with ⟨-, e⟩ | ⟨hi, e⟩ <;> rw [e]
    · exact .early _ _ (by decide)
    · refine .access fun hr => .complete_range (n := f.blockBytes) hr ?_ ?_
      · simp [footprint, hf]
      · exact (encb_length _ hi (readColors_length ..)).le
  case enci fmt =>
    refine .withFormat (fun h => by simp [Instr.wellFormed, fmtIndexed, h]) fun f hf => ?_
    rcases needIndexed_cases s f true _ with ⟨-, e⟩ | ⟨hi, e⟩ <;> rw [e]
    · exact .early _ _ (by decide)
    · refine .access fun hr => ?_
      dsimp only
      split
      · exact .late _ _ hr (by decide)
      · exact .complete_range (n := 32) hr rfl
          (encodeIndexBlock_length f _ hi (readHalves_length ..)).le
  case cdec4 => exact .access fun hr => .complete_range hr rfl (by simp)
  case ckey => exact .access fun hr => .complete_range hr rfl (by simp)
  case cpal f =>
    exact .access fun hr => .complete_range hr rfl (by simp [cpalPalette_length])
  case cenc4 => exact .access fun hr => .complete_range hr rfl (by simp)
  case cidx | qdist => exact .access fun hr => .complete_nil hr rfl
  case qavg => exact .check (by decide) <| .access fun hr => .complete_nil hr rfl
  case qnear =>
    exact .check (by decide) <| .check (by decide) <| .access fun hr =>
      .complete_range hr rfl (by simp)
  case qpal f qsel =>
    refine .withPaletteSize (fun h => by simp [Instr.wellFormed, qselNamed, h]) fun m hm =>
      .check (by decide) <| .access fun hr =>
      .complete_range (n := 4 * min s.latched.args.len.toNat m.maxColors) hr ?_ ?_
    · simp [footprint, qpalFootprint, hm]
    · simp [buildLimitedPalette_length]
  case xswp =>
    exact .check (by decide) <| .access fun hr => .complete_range hr rfl
      ((swapWords_length_le _).trans (buffer_length s).le)
  case xreo | xred =>
    exact .check (by decide) <| .check (by decide) <| .access fun hr => .complete_range hr rfl
      ((permuteWords_length_le _ _).trans (buffer_length s).le)
  case x2c =>
    exact .check (by decide) <| .check (by decide) <| .access fun hr => .complete_range hr rfl
      ((swapWords_length_le _).trans <|
        (permuteWords_length_le _ _).trans (buffer_length s).le)
  case c2x =>
    exact .check (by decide) <| .check (by decide) <| .access fun hr => .complete_range hr rfl
      ((permuteWords_length_le _ _).trans <|
        (swapWords_length_le _).trans (buffer_length s).le)
  case pdec pfmt | penc pfmt =>
    exact .withPaletteFormat (fun h => by simp [Instr.wellFormed, pfmtNamed, h]) fun p =>
      .access fun hr => .complete_range hr rfl (by simp)
  case prange fmt pp =>
    exact .withFormat (fun h => by simp [Instr.wellFormed, fmtIndexed, h]) fun f _ =>
      .check (by decide) <| .check (by decide) <| .check (by decide) <| .access fun hr =>
      .complete_nil hr rfl

theorem exec_next_commandEnd {i : Instr} {s t : State} (h : exec i s = .next t) :
    CommandEnd i s t := by
  obtain ⟨t', ht', hend⟩ := exec_commandEnd i s
  rw [ht'] at h
  cases h
  exact hend

/-! ### What an engine step writes (R33) -/

/-- Outputs that lie in a write range change no byte outside the write ranges. -/
theorem complete_read_outside {i : Instr} {s : State} {o : Outputs} (ho : Fits i s o) {a : Nat}
    (ha : ∀ r ∈ (footprint i s.latched.args).writes, r.holds a = false) :
    (s.complete o).mem.read a = s.mem.read a := by
  rw [complete_mem, read_writeBytes, if_neg]
  rintro ⟨hl, hu⟩
  rcases ho with hnil | ⟨n, hw, hlen⟩
  · simp only [hnil, List.length_nil] at hu
    omega
  · have hin := (holds_iff ⟨s.latched.args.dst, n⟩ a).2 ⟨hl, by simp only; omega⟩
    rw [ha _ hw] at hin
    cases hin

theorem exec_read_outside {i : Instr} {s t : State} (h : exec i s = .next t) {a : Nat}
    (ha : ∀ r ∈ (footprint i s.latched.args).writes, r.holds a = false) :
    t.mem.read a = s.mem.read a := by
  cases exec_next_commandEnd h with
  | format | early | address | late => rfl
  | complete o hr ho => exact complete_read_outside ho ha

/-- Settles O17: an error writes no byte and a completion writes into a write range; and the
footprint of each command is read off its definition. -/
theorem engineWritesOnlyFootprint : Obligations.EngineWritesOnlyFootprint := by
  refine ⟨fun i s t h a ha => exec_read_outside h ha, fun x fmt lvl pfmt pp f => ?_⟩
  intro n
  simp only [List.forall_mem_cons]
  refine ⟨⟨rfl, rfl, rfl, rfl, rfl, rfl, nofun⟩, ?_, ?_, fun h => ?_, rfl, rfl, rfl, rfl, rfl, rfl,
    rfl, rfl, rfl, rfl, rfl, ⟨rfl, rfl, rfl, nofun⟩, rfl, ⟨rfl, rfl, rfl, rfl, rfl, nofun⟩, rfl⟩
  · exact ⟨⟨rfl, rfl, rfl, rfl⟩, ⟨rfl, rfl, rfl, rfl⟩, ⟨rfl, rfl, rfl, rfl⟩, ⟨rfl, rfl, rfl, rfl⟩,
      ⟨rfl, rfl, rfl, rfl⟩, ⟨rfl, rfl, rfl, rfl⟩, ⟨rfl, rfl, rfl, rfl⟩, ⟨rfl, rfl, rfl, rfl⟩, nofun⟩
  · exact ⟨⟨rfl, rfl, rfl, rfl, rfl⟩, ⟨rfl, rfl, rfl, rfl, rfl⟩, ⟨rfl, rfl, rfl, rfl, rfl⟩, nofun⟩
  · simp [footprint, decbFootprint, h]

/-! ### What an engine step leaves (R26, R153) -/

theorem errorComplete_frame (s : State) (c : ErrCode) (v : Word) :
    EngineFrame s (s.errorComplete c v) := ⟨rfl, rfl, rfl, rfl, rfl, rfl, rfl, rfl, rfl⟩

/-- Settles O18: the step is an error completion or a completion, and neither writes the host's
fields. -/
theorem engineStepEnds : Obligations.EngineStepEnds := by
  refine ⟨fun s e he => ?_, fun i s t h => ?_⟩
  · obtain ⟨c, v, hc, hs⟩ := rejectWord_cases s e
    exact ⟨c, v, hc, by simp only [engineStep, he, hs, erred_eq]⟩
  · rcases exec_next h with ⟨c, v, hc, rfl⟩ | ⟨o, -, -, rfl⟩
    · exact ⟨errorComplete_frame s c v, rfl, rfl, .inl ⟨c, v, hc, rfl⟩⟩
    · exact ⟨(complete_completion s o).frame, rfl, rfl, .inr ⟨rfl, rfl, rfl⟩⟩

/-! ### Errors of a field (R50 to R52) -/

theorem code_of_ofCode {fmt : BitVec 4} {f : PixelFormat} (h : PixelFormat.ofCode fmt = some f) :
    f.code = fmt := by
  revert h
  revert fmt
  cases f <;> decide

theorem needIndexed_neg {s k : State} {fmt : BitVec 4} {f : PixelFormat} {want : Bool}
    (hf : PixelFormat.ofCode fmt = some f) (hi : f.indexed ≠ want) :
    s.needIndexed f want k = s.errorComplete .argument (fmt.setWidth 32) := by
  rw [← code_of_ofCode hf]
  exact unless_pos (bne_iff_ne.2 hi)

theorem needIndexed_pos {s k : State} {f : PixelFormat} {want : Bool} (hi : f.indexed = want) :
    s.needIndexed f want k = k := unless_neg (by simp [hi])

/-- Settles O20: the check of the field is the first of the command. -/
theorem illFormedCommandsEndInError : Obligations.IllFormedCommandsEndInError := by
  refine ⟨fun s fmt lvl pfmt pp hf => ?_, fun s f => ⟨rfl, rfl, rfl⟩, fun s fmt f hf hi => ?_,
    fun s fmt f pp hf hi => ?_, fun i s t hi hc h => ?_⟩
  · simp only [List.forall_mem_cons]
    have herr : ∀ k : PixelFormat → State,
        Host.Outcome.next (s.withFormat fmt k) =
          (.next (s.erred .format (fmt.setWidth 32)) : Outcome) :=
      fun k => congrArg _ (withFormat_none hf)
    exact ⟨herr _, herr _, herr _, herr _, herr _, herr _, herr _, herr _, herr _, herr _, nofun⟩
  · constructor
    · refine congrArg _ ((withFormat_some hf).trans ?_)
      rw [if_pos (by simp [hi])]
      exact withPaletteFormat_none rfl
    · exact congrArg _ ((withFormat_some hf).trans (needIndexed_neg hf (by simp [hi])))
  · simp only [List.forall_mem_cons]
    have herr : ∀ k : PixelFormat → State,
        Host.Outcome.next (s.withFormat fmt fun f => s.needIndexed f true (k f)) =
          (.next (s.erred .argument (fmt.setWidth 32)) : Outcome) :=
      fun k => congrArg _ ((withFormat_some hf).trans (needIndexed_neg hf (by simp [hi])))
    exact ⟨herr _, herr _, herr _, herr _, nofun⟩
  · cases exec_next_commandEnd h with
    | format v hill => simp [hi] at hill
    | early c v hearly =>
      rintro rfl
      simp at hearly
    | address r hr => nofun
    | late c v hr hlate =>
      rintro rfl
      simp at hlate
    | complete o hr ho => simp [hc]

/-! ### Errors of PALLEN, of the dimensions and of the length (R16, R67, R131, R133, R141, R148) -/

theorem needPalette_neg {s k : State} (h : 16384 < s.latched.args.pallen.toNat) :
    s.needPalette k = s.errorComplete .argument (s.latched.args.pallen.setWidth 32) :=
  unless_pos (by simpa [maxPalette] using h)

theorem needPalette_pos {s k : State} (h : s.latched.args.pallen.toNat ≤ 16384) :
    s.needPalette k = k := unless_neg (by simpa [maxPalette] using h)

theorem needLength_neg {s k : State} {bad : Bool} (h : bad = true) :
    s.needLength bad k = s.errorComplete .length s.latched.args.len := unless_pos h

theorem needLength_pos {s k : State} {bad : Bool} (h : bad = false) : s.needLength bad k = k :=
  unless_neg h

theorem needDim_neg {s k : State} (h : s.latched.args.width = 0 ∨ s.latched.args.height = 0) :
    s.needDim k = s.errorComplete .dim s.latched.args.dim :=
  unless_pos (by simpa using h)

theorem needDim_pos {s k : State} (hw : 0 < s.latched.args.width) (hh : 0 < s.latched.args.height) :
    s.needDim k = k :=
  unless_neg (by simp; omega)

/-- The image is one of whole blocks (R141). -/
theorem badExtent_eq_false {x : Args} (hw : 0 < x.width) (hh : 0 < x.height) (hw8 : x.width % 8 = 0)
    (hh8 : x.height % 8 = 0) : badExtent x = false := by
  simp [badExtent, hw8, hh8]
  omega

theorem needImage_dim {s k : State} (h : s.latched.args.width = 0 ∨ s.latched.args.height = 0 ∨
    s.latched.args.width % 8 ≠ 0 ∨ s.latched.args.height % 8 ≠ 0) :
    s.needImage k = s.errorComplete .dim s.latched.args.dim := by
  refine unless_pos ?_
  simp only [badExtent, Bool.or_eq_true, beq_iff_eq, bne_iff_ne]
  tauto

theorem needImage_length {s k : State} (hx : badExtent s.latched.args = false)
    (h : s.latched.args.len.toNat ≠ s.latched.args.width * s.latched.args.height / 2) :
    s.needImage k = s.errorComplete .length s.latched.args.len :=
  (unless_neg hx).trans (needLength_neg (by simpa using h))

theorem needImage_pos {s k : State} (hx : badExtent s.latched.args = false)
    (h : s.latched.args.len.toNat = s.latched.args.width * s.latched.args.height / 2) :
    s.needImage k = k :=
  (unless_neg hx).trans (needLength_pos (by simpa using h))

/-- Settles O21: the palette check comes before the lengths and the addresses. -/
theorem badPaletteLengthEndsInError : Obligations.BadPaletteLengthEndsInError := by
  intro s fmt pfmt f p pp hf hi hp
  refine ⟨fun hlong => ⟨?_, ?_, ?_⟩, fun hzero => ?_⟩
  · refine congrArg _ ((withFormat_some hf).trans ?_)
    rw [if_pos (by simp [hi])]
    exact (withPaletteFormat_some hp).trans (needPalette_neg hlong)
  · exact congrArg _ ((withFormat_some hf).trans <| (needIndexed_pos hi).trans <|
      needPalette_neg hlong)
  · refine congrArg _ ((unless_neg ?_).trans (needPalette_neg hlong))
    rw [beq_eq_false_iff_ne]
    rintro hz
    simp [hz] at hlong
  · refine congrArg _ ((unless_pos (by simp [hzero])).trans ?_)
    rw [Args.pallenWord, hzero]
    rfl

/-- The length check of PRANGE (R148). -/
theorem prange_badLength_iff (f : PixelFormat) (len : Word) :
    (len == 0 || (decide (f = .c14x2) && len.toNat % 2 != 0)) = true ↔
      len = 0 ∨ (f = .c14x2 ∧ len.toNat % 2 = 1) := by
  simp

/-- Settles O22: these checks come before that of the addresses, and the dimensions before the
length. -/
theorem badDimensionsAndLengthsEndInError : Obligations.BadDimensionsAndLengthsEndInError := by
  intro s
  refine ⟨fun fmt lvl hf hdim => ?_, ?_, fun hlen => ?_, fun hlen => ?_, fun f qsel hq hlen => ?_,
    fun fmt f pp hf hi hpal hlen => ?_⟩
  · obtain ⟨f, hf⟩ := Option.isSome_iff_exists.1 hf
    have herr : ∀ k : PixelFormat → State,
        Host.Outcome.next (s.withFormat fmt fun f => s.needDim (k f)) =
          (.next (s.erred .dim s.latched.args.dim) : Outcome) :=
      fun k => congrArg _ ((withFormat_some hf).trans (needDim_neg hdim))
    simp only [List.forall_mem_cons]
    exact ⟨herr _, herr _, herr _, nofun⟩
  · have hdim : ∀ k, _ → Host.Outcome.next (s.needImage k) =
        (.next (s.erred .dim s.latched.args.dim) : Outcome) :=
      fun k h => congrArg _ (needImage_dim h)
    have hlen : ∀ k, 0 < s.latched.args.width → 0 < s.latched.args.height →
        s.latched.args.width % 8 = 0 → s.latched.args.height % 8 = 0 → _ →
        Host.Outcome.next (s.needImage k) =
          (.next (s.erred .length s.latched.args.len) : Outcome) :=
      fun k hw hh hw8 hh8 h => congrArg _ (needImage_length (badExtent_eq_false hw hh hw8 hh8) h)
    simp only [List.forall_mem_cons]
    exact ⟨⟨hdim _, hlen _⟩, ⟨hdim _, hlen _⟩, ⟨hdim _, hlen _⟩, ⟨hdim _, hlen _⟩, nofun⟩
  · exact congrArg _ (needLength_neg (by simpa using hlen))
  · refine congrArg _ ((needLength_neg (by simp [hlen])).trans ?_)
    rw [hlen]
    rfl
  · have hnamed : ∀ q : BitVec 2, q ≠ 3 → (PaletteSize.ofCode q).isSome = true := by decide
    obtain ⟨m, hm⟩ := Option.isSome_iff_exists.1 (hnamed qsel hq)
    exact congrArg _ ((withPaletteSize_some hm).trans (needLength_neg (decide_eq_true hlen)))
  · exact congrArg _ ((withFormat_some hf).trans <| (needIndexed_pos hi).trans <|
      (needPalette_pos hpal).trans <| needLength_neg ((prange_badLength_iff f _).2 hlen))

/-! ### Commands whose operands pass their checks -/

section Passed
variable {s : State} {fmt : BitVec 4} {pfmt : BitVec 2} {f : PixelFormat} {p : PaletteFormat}

theorem exec_decb_palette (hf : PixelFormat.ofCode fmt = some f) (hi : f.indexed = true)
    (hp : PaletteFormat.ofCode pfmt = some p) (hpal : s.latched.args.pallen.toNat ≤ 16384) :
    exec (.decb fmt pfmt true) s = .next (s.access (.decb fmt pfmt true)
      (s.complete (decbIndexedOutputs f p s.latched.args s.mem))) := by
  refine congrArg _ ((withFormat_some hf).trans ?_)
  rw [if_pos (by simp [hi])]
  exact (withPaletteFormat_some hp).trans (needPalette_pos hpal)

theorem exec_decb_block {pp : Bool} (hf : PixelFormat.ofCode fmt = some f)
    (hx : (f.indexed && pp) = false) :
    exec (.decb fmt pfmt pp) s = .next (s.access (.decb fmt pfmt pp)
      (s.complete (decbOutputs f.grey { palabsent := f.indexed } s.latched.args s.mem))) :=
  congrArg _ ((withFormat_some hf).trans (if_neg (by simp [hx])))

theorem exec_deci (hf : PixelFormat.ofCode fmt = some f) (hi : f.indexed = true) :
    exec (.deci fmt) s = .next (s.access (.deci fmt) (s.complete
      { bytes := indexBytes (decodeIndices f (s.mem.readBytes s.latched.args.src.toNat 32))
        res0 := some (Word.ofNat f.npix) })) :=
  congrArg _ ((withFormat_some hf).trans (needIndexed_pos hi))

theorem exec_encb (hf : PixelFormat.ofCode fmt = some f) (hi : f.indexed = false) :
    exec (.encb fmt) s = .next (s.access (.encb fmt) (s.complete
      { bytes :=
          if f = .cmpr then
            encodeCmpr (s.mem.readColors s.latched.args.src.toNat f.npix) s.latched.args
          else encodeBlock f (s.mem.readColors s.latched.args.src.toNat f.npix) })) :=
  congrArg _ ((withFormat_some hf).trans (needIndexed_pos hi))

theorem exec_enci (hf : PixelFormat.ofCode fmt = some f) (hi : f.indexed = true) :
    exec (.enci fmt) s = .next (s.access (.enci fmt)
      (match firstBadIndex f (s.mem.readHalves s.latched.args.src.toNat f.npix) with
        | some i => s.errorComplete .index (Word.ofNat i)
        | none => s.complete
          { bytes := encodeIndexBlock f
              (s.mem.readHalves s.latched.args.src.toNat f.npix) })) :=
  congrArg _ ((withFormat_some hf).trans (needIndexed_pos hi))

theorem exec_qavg (h : s.latched.args.len ≠ 0) :
    exec .qavg s = .next (s.access .qavg (s.complete
      { res0 := some (averageColor (s.mem.readColors s.latched.args.src.toNat
          s.latched.args.len.toNat)).word })) :=
  congrArg _ (needLength_pos (by simpa using h))

theorem exec_qnear (h : s.latched.args.pallen ≠ 0) (hpal : s.latched.args.pallen.toNat ≤ 16384) :
    exec .qnear s = .next (s.access .qnear (s.complete
      { bytes := indexBytes
          ((s.mem.readColors s.latched.args.src.toNat s.latched.args.len.toNat).map fun c =>
            BitVec.ofNat 16 (nearestColor c
              (s.mem.readColors s.latched.args.aux.toNat s.latched.args.pallen.toNat))) })) :=
  congrArg _ ((unless_neg (by simpa using h)).trans (needPalette_pos hpal))

theorem exec_qpal {allowAlpha : Bool} {qsel : BitVec 2} {m : PaletteSize}
    (hm : PaletteSize.ofCode qsel = some m) (h : s.latched.args.len.toNat ≤ s.qpopMax) :
    exec (.qpal allowAlpha qsel) s = .next (s.access (.qpal allowAlpha qsel) (s.complete
      { bytes := colorBytes (buildLimitedPalette
          (s.mem.readColors s.latched.args.src.toNat s.latched.args.len.toNat) m allowAlpha)
        res0 := some (Word.ofNat (buildLimitedPalette
          (s.mem.readColors s.latched.args.src.toNat s.latched.args.len.toNat) m
            allowAlpha).length) })) :=
  congrArg _ ((withPaletteSize_some hm).trans (needLength_pos (by simpa using h)))

theorem exec_xswp (h : s.latched.args.len.toNat % 8 = 0) :
    exec .xswp s = .next (s.access .xswp (s.complete { bytes := swapWords s.buffer })) :=
  congrArg _ (needLength_pos (by simp [h]))

theorem exec_pdec (hp : PaletteFormat.ofCode pfmt = some p) :
    exec (.pdec pfmt) s = .next (s.access (.pdec pfmt) (s.complete
      { bytes := colorBytes
          ((s.mem.readHalves s.latched.args.src.toNat s.latched.args.len.toNat).map
            (decPal p)) })) :=
  congrArg _ (withPaletteFormat_some hp)

theorem exec_penc (hp : PaletteFormat.ofCode pfmt = some p) :
    exec (.penc pfmt) s = .next (s.access (.penc pfmt) (s.complete
      { bytes := indexBytes
          ((s.mem.readColors s.latched.args.src.toNat s.latched.args.len.toNat).map
            (encPal p)) })) :=
  congrArg _ (withPaletteFormat_some hp)

theorem exec_prange {pp : Bool} (hf : PixelFormat.ofCode fmt = some f) (hi : f.indexed = true)
    (hpal : s.latched.args.pallen.toNat ≤ 16384) (hlen : s.latched.args.len ≠ 0)
    (heven : f = .c14x2 → s.latched.args.len.toNat % 2 = 0) :
    exec (.prange fmt pp) s = .next (s.access (.prange fmt pp)
      (s.complete (prangeOutputs f pp s.latched.args s.mem))) := by
  refine congrArg _ ((withFormat_some hf).trans <| (needIndexed_pos hi).trans <|
    (needPalette_pos hpal).trans <| needLength_pos ?_)
  rw [← Bool.not_eq_true, prange_badLength_iff]
  rintro (hzero | ⟨hc, hodd⟩)
  · exact hlen hzero
  · have := heven hc
    omega

end Passed

/-! ### Errors of an address (R32, R150) -/

/-- The range that the footprint check names is the first one, reads before writes, that is not in
data memory. -/
theorem firstOutside_eq_some_iff (n : Nat) (fp : Footprint) (r : Range) :
    fp.firstOutside n = some r ↔ ∃ before after, fp.reads ++ fp.writes = before ++ r :: after ∧
      (∀ q ∈ before, q.len = 0 ∨ q.start.toNat + q.len ≤ n) ∧ 0 < r.len ∧
      n < r.start.toNat + r.len := by
  have hout : (!r.inMemory n) = true ↔ 0 < r.len ∧ n < r.start.toNat + r.len := by
    rw [Bool.not_eq_true', ← Bool.not_eq_true, inMemory_iff]
    omega
  simp only [Footprint.firstOutside, List.find?_eq_some_iff_append, hout, Bool.not_not,
    inMemory_iff]
  constructor
  · rintro ⟨hr, before, after, hsplit, hbefore⟩
    exact ⟨before, after, hsplit, hbefore, hr⟩
  · rintro ⟨before, after, hsplit, hbefore, hr⟩
    exact ⟨hr, before, after, hsplit, hbefore⟩

/-- A command that touches no memory passes its footprint check. -/
theorem exec_access_of_empty {i : Instr} {s : State} (h : footprint i s.latched.args = {}) :
    ∃ k, exec i s = .next (s.access i k) := by
  obtain ⟨t, ht, -⟩ := exec_commandEnd i s
  exact ⟨t, by rw [ht, access_of_reaches (reaches_of_empty h)]⟩

/-- A well-formed command that passes the checks of its operands goes on to that of its addresses.
-/
theorem exec_of_passesChecks {i : Instr} {s : State} (hi : i.wellFormed = true)
    (h : s.passesChecks i) : ∃ k, exec i s = .next (s.access i k) := by
  cases i
  case nop | desc | palmax | dsize | tsize | mipcnt => exact exec_access_of_empty rfl
  case cdec4 | ckey | cpal | cidx | cenc4 | qdist => exact ⟨_, rfl⟩
  case decb fmt pfmt pp =>
    simp only [Instr.wellFormed, fmtNamed, fmtIndexed, Bool.and_eq_true] at hi
    obtain ⟨hfmt, hpfmt⟩ := hi
    obtain ⟨f, hf⟩ := Option.isSome_iff_exists.1 hfmt
    by_cases hx : (f.indexed && pp) = true
    · simp only [hf, Option.any_some, hx, Bool.not_true, Bool.false_or] at hpfmt
      obtain ⟨p, hp⟩ := Option.isSome_iff_exists.1 hpfmt
      obtain ⟨hindexed, rfl⟩ := Bool.and_eq_true_iff.1 hx
      exact ⟨_, exec_decb_palette hf hindexed hp (h (by simp [fmtIndexed, hf, hindexed]) rfl)⟩
    · exact ⟨_, exec_decb_block hf (by simpa using hx)⟩
  case deci fmt =>
    obtain ⟨f, hf, hx⟩ := (Option.any_eq_true ..).1 hi
    exact ⟨_, exec_deci hf hx⟩
  case enci fmt =>
    obtain ⟨f, hf, hx⟩ := (Option.any_eq_true ..).1 hi
    exact ⟨_, exec_enci hf hx⟩
  case encb fmt =>
    obtain ⟨f, hf, hx⟩ := (Option.any_eq_true ..).1 hi
    exact ⟨_, exec_encb hf (by simpa using hx)⟩
  case qavg => exact ⟨_, exec_qavg h⟩
  case qnear => exact ⟨_, exec_qnear h.1 h.2⟩
  case qpal f qsel =>
    obtain ⟨m, hm⟩ := Option.isSome_iff_exists.1 hi
    exact ⟨_, exec_qpal hm h⟩
  case xswp => exact ⟨_, exec_xswp h⟩
  case xreo | xred | x2c | c2x =>
    obtain ⟨hw, hh, hw8, hh8, hlen⟩ := h
    exact ⟨_, congrArg _ (needImage_pos (badExtent_eq_false hw hh hw8 hh8) hlen)⟩
  case pdec pfmt =>
    obtain ⟨p, hp⟩ := Option.isSome_iff_exists.1 hi
    exact ⟨_, exec_pdec hp⟩
  case penc pfmt =>
    obtain ⟨p, hp⟩ := Option.isSome_iff_exists.1 hi
    exact ⟨_, exec_penc hp⟩
  case prange fmt pp =>
    obtain ⟨f, hf, hx⟩ := (Option.any_eq_true ..).1 hi
    obtain ⟨hpal, hlen, heven⟩ := h
    exact ⟨_, exec_prange hf hx hpal hlen fun hc => heven (hf.trans (congrArg some hc))⟩

/-- Settles O23: the check of the addresses comes after those of the operands and before everything
else, and no other check ends with E_ADDRESS. -/
theorem addressErrorNamesFirstRange : Obligations.AddressErrorNamesFirstRange := by
  refine ⟨fun i s hi hchecks before r after hsplit hbefore hlen hout => ?_,
    fun i s t h herr hcode => ⟨fun hreach => ?_, fun haddr => ?_⟩⟩
  · obtain ⟨k, hk⟩ := exec_of_passesChecks hi hchecks
    have hfirst := (firstOutside_eq_some_iff s.memSize (footprint i s.latched.args) r).2
      ⟨before, after, hsplit, hbefore, hlen, hout⟩
    rw [hk, State.access, hfirst, erred_eq]
  · cases exec_next_commandEnd h with
    | format v => exact ⟨rfl, .head _⟩
    | early c v hearly => exact ⟨rfl, by simp at hearly ⊢; tauto⟩
    | address r hr => exact ⟨rfl, by simp⟩
    | late c v hr => exact absurd hr hreach
    | complete o hr => exact absurd hr hreach
  · cases exec_next_commandEnd h with
    | format v => cases haddr
    | early c v hearly =>
      obtain rfl : c = .address := haddr
      simp at hearly
    | address r hr =>
      obtain ⟨before, after, hsplit, hbefore, hlen, hout⟩ := (firstOutside_eq_some_iff _ _ _).1 hr
      exact ⟨before, r, after, hsplit, hbefore, hlen, hout, rfl⟩
    | late c v hr hlate =>
      obtain rfl : c = .address := haddr
      simp at hlate
    | complete o hr => cases hcode.symm.trans haddr

end Sys2Proof.Machine
end

section
/-! PROOF that every step keeps the invariant (R6, R17, R24, R31, R149, R153, R154): one lemma for
each way a step can change the state. -/

namespace Sys2Proof.Machine

namespace State.Inv
variable {s : State} (h : s.Inv)
include h

/-! ### The engine -/

/-- An error completion of a running command: it clears BUSY and leaves the diagnostics clear. -/
theorem errorComplete (hb : s.status.busy = true) {c : ErrCode} (hc : c ≠ .none) (v : Word) :
    (s.errorComplete c v).Inv where
  memWf := h.memWf
  memBelow := h.memBelow
  memSizeLegal := h.memSizeLegal
  qpopMaxLegal := h.qpopMaxLegal
  latchedCurrent := nofun
  busyClear := nofun
  noError hnone := absurd hnone hc
  errNoDiag _ := by
    obtain ⟨-, -, hpalshort, hpalabsent, hrangeshort, -, -⟩ := h.busyClear hb
    exact ⟨hpalshort, hpalabsent, hrangeshort⟩

/-- Bytes written to a write range of a footprint in range lie below MEM_SIZE. -/
theorem below_complete {i : Instr} {o : Outputs} (hr : s.reaches i) (ho : Fits i s o) :
    (s.complete o).mem.below s.memSize = true := by
  refine below_writeBytes _ _ _ _ ?_ h.memBelow
  rcases ho with hnil | ⟨n, hw, hlen⟩
  · exact .inl hnil
  · rcases hr _ (List.mem_append_right _ hw) with hzero | hin
    · obtain rfl : n = 0 := hzero
      exact .inl (List.eq_nil_of_length_eq_zero (Nat.le_zero.1 hlen))
    · exact .inr ((Nat.add_le_add_left hlen _).trans hin)

/-- A completion of a running command: ERR was clear and stays so. -/
theorem complete {i : Instr} {o : Outputs} (hb : s.status.busy = true) (hr : s.reaches i)
    (ho : Fits i s o) : (s.complete o).Inv where
  memWf := wf_writeBytes _ _ _ h.memWf
  memBelow := h.below_complete hr ho
  memSizeLegal := h.memSizeLegal
  qpopMaxLegal := h.qpopMaxLegal
  latchedCurrent := nofun
  busyClear := nofun
  noError := h.noError
  errNoDiag herr := by
    obtain ⟨-, hclear, -⟩ := h.busyClear hb
    exact absurd (hclear.symm.trans herr) (by decide)

/-- The engine step of any command. -/
theorem commandEnd {i : Instr} {t : State} (hb : s.status.busy = true) (ht : CommandEnd i s t) :
    t.Inv := by
  have herr : ∀ {c : ErrCode} (v : Word), c ≠ .none → (s.errorComplete c v).Inv :=
    fun v hc => h.errorComplete hb hc v
  cases ht with
  | format v => exact herr v (by decide)
  | early c v hc => exact herr v (by rintro rfl; simp at hc)
  | address r => exact herr _ (by decide)
  | late c v hr hc => exact herr v (by rintro rfl; simp at hc)
  | complete o hr ho => exact h.complete hb hr ho

theorem engineTurn {t : State} (ht : Machine.engineTurn s = .next t) : t.Inv := by
  rcases engineTurn_cases s with ⟨-, e⟩ | ⟨hb, ⟨i, -, e⟩ | ⟨d, -, e⟩⟩ <;> rw [e] at ht
  · cases ht
    exact h
  · exact h.commandEnd hb (exec_next_commandEnd ht)
  · cases ht
    obtain ⟨c, v, hc, e⟩ := rejectWord_cases s d
    exact e ▸ h.errorComplete hb hc v

/-! ### The host -/

/-- An issue latches what the registers hold and clears what R24 clears. -/
theorem issue (v : Word) : (s.issue v).Inv where
  memWf := h.memWf
  memBelow := h.memBelow
  memSizeLegal := h.memSizeLegal
  qpopMaxLegal := h.qpopMaxLegal
  latchedCurrent _ := rfl
  busyClear _ := ⟨rfl, rfl, rfl, rfl, rfl, rfl, rfl⟩
  noError _ := ⟨rfl, rfl⟩
  errNoDiag := nofun

/-- Clearing bits of STATUS while no command runs. -/
theorem clearStatus (hb : s.status.busy = false) (v : Word) :
    State.Inv { s with status := s.status.clear v } where
  memWf := h.memWf
  memBelow := h.memBelow
  memSizeLegal := h.memSizeLegal
  qpopMaxLegal := h.qpopMaxLegal
  latchedCurrent hbusy := absurd (hb.symm.trans hbusy) (by decide)
  busyClear hbusy := absurd (hb.symm.trans hbusy) (by decide)
  noError hnone := by
    obtain ⟨hinfo, herr⟩ := h.noError hnone
    exact ⟨hinfo, by simp [herr]⟩
  errNoDiag herr := by
    obtain ⟨hpalshort, hpalabsent, hrangeshort⟩ := h.errNoDiag (Bool.and_eq_true_iff.1 herr).1
    simp [hpalshort, hpalabsent, hrangeshort]

/-- Other argument registers while no command runs. -/
theorem setArgs (hb : s.status.busy = false) (x : Args) : State.Inv { s with args := x } where
  memWf := h.memWf
  memBelow := h.memBelow
  memSizeLegal := h.memSizeLegal
  qpopMaxLegal := h.qpopMaxLegal
  latchedCurrent hbusy := absurd (hb.symm.trans hbusy) (by decide)
  busyClear hbusy := absurd (hb.symm.trans hbusy) (by decide)
  noError := h.noError
  errNoDiag := h.errNoDiag

/-- A dropped write: nothing of the invariant looks at WBUSY. -/
theorem dropped : State.Inv { s with status := s.status.dropped } :=
  ⟨h.memWf, h.memBelow, h.memSizeLegal, h.qpopMaxLegal, h.latchedCurrent, h.busyClear, h.noError,
    h.errNoDiag⟩

/-- Nothing of the invariant looks at the reply. -/
theorem setReply (r : HostReply) : State.Inv { s with reply := r } :=
  ⟨h.memWf, h.memBelow, h.memSizeLegal, h.qpopMaxLegal, h.latchedCurrent, h.busyClear, h.noError,
    h.errNoDiag⟩

/-- Nothing of the invariant looks at the agenda. -/
theorem setAgenda (turns : List Turn) : State.Inv { s with agenda := turns } :=
  ⟨h.memWf, h.memBelow, h.memSizeLegal, h.qpopMaxLegal, h.latchedCurrent, h.busyClear, h.noError,
    h.errNoDiag⟩

/-- A host write in data memory. -/
theorem writeBytes {a : Nat} {bs : List Byte} (hin : bs.length = 0 ∨ a + bs.length ≤ s.memSize) :
    State.Inv { s with mem := s.mem.writeBytes a bs } :=
  ⟨wf_writeBytes _ _ _ h.memWf,
    below_writeBytes _ _ _ _ (hin.imp_left List.eq_nil_of_length_eq_zero) h.memBelow,
    h.memSizeLegal, h.qpopMaxLegal, h.latchedCurrent, h.busyClear, h.noError, h.errNoDiag⟩

theorem regWrite (offset : Nat) (v : Word) : (s.regWrite offset v).Inv := by
  cases hb : s.status.busy with
  | true =>
    rw [regWrite_busy hb]
    exact h.dropped
  | false =>
    rw [regWrite_idle hb]
    rcases regWriteIdle_cases s offset v with e | e | ⟨x, e⟩ <;> rw [e]
    · exact h.issue v
    · exact h.clearStatus hb v
    · exact h.setArgs hb x

theorem hostStep {op : HostOp} {t : State} (ht : Machine.hostStep op s = .next t) : t.Inv := by
  cases op with
  | regRead width addr =>
    rcases windowOffset_cases s width addr with e | ⟨off, -, -, -, -, e⟩ <;>
      simp only [Machine.hostStep, e] at ht <;> cases ht
    exact h.setReply _
  | regWrite width addr v =>
    rcases windowOffset_cases s width addr with e | ⟨off, -, -, -, -, e⟩ <;>
      simp only [Machine.hostStep, e] at ht <;> cases ht
    exact h.regWrite off v
  | memRead addr n =>
    rcases hostMemRead_cases s addr n with ⟨-, e⟩ | ⟨-, e⟩ | ⟨-, -, e⟩ <;>
      simp only [Machine.hostStep, e] at ht <;> cases ht
    exact h.setReply _
  | memWrite addr bs =>
    rcases hostMemWrite_cases s addr bs with ⟨-, e⟩ | ⟨-, e⟩ | ⟨hin, -, e⟩ <;>
      simp only [Machine.hostStep, e] at ht <;> cases ht
    exact h.writeBytes hin

/-! ### The platform -/

/-- A reset keeps data memory and the parameters and clears everything else. -/
theorem platformReset : s.platformReset.Inv where
  memWf := h.memWf
  memBelow := h.memBelow
  memSizeLegal := h.memSizeLegal
  qpopMaxLegal := h.qpopMaxLegal
  latchedCurrent := nofun
  busyClear := nofun
  noError _ := ⟨rfl, rfl⟩
  errNoDiag := nofun

end State.Inv

/-- Settles O6, by the agent that the step moves. -/
theorem stepKeepsInv : Obligations.StepKeepsInv := by
  intro s t h ht
  rcases step_cases s with ⟨-, e⟩ | ⟨turn, rest, -, ⟨-, e⟩ | ⟨op, -, e⟩ | ⟨-, e⟩⟩ <;> rw [e] at ht
  · exact h.engineTurn ht
  · exact (h.setAgenda rest).engineTurn ht
  · exact (h.setAgenda rest).hostStep ht
  · cases ht
    exact (h.setAgenda rest).platformReset

/-- Settles O7: MEM_SIZE and QPOP_MAX are one more than a 32-bit value and a natural number. -/
theorem resetHasInv : Obligations.ResetHasInv where
  memWf := rfl
  memBelow := rfl
  memSizeLegal := ⟨Nat.le_add_left _ _, Config.lastAddress.isLt⟩
  qpopMaxLegal := Nat.le_add_left _ _
  latchedCurrent := nofun
  busyClear := nofun
  noError _ := ⟨rfl, rfl⟩
  errNoDiag := nofun

end Sys2Proof.Machine
end

section
/-! PROOFS of the remaining statements about steps: the engine's turn (R26), the host's register and
memory accesses (R14, R15, R16, R44, R151) and the reset (R162). -/

namespace Sys2Proof.Machine

/-! ### The engine's turn (R26) -/

theorem engineTurn_of_idle {s : State} (h : s.status.busy = false) : engineTurn s = .next s := by
  simp [engineTurn, h]

theorem engineTurn_of_decode {s : State} {i : Instr} (h : s.status.busy = true)
    (hd : decode s.latched.word = .ok i) : engineTurn s = exec i s := by
  simp [engineTurn, engineStep, h, hd]

theorem engineTurn_of_reject {s : State} {e : DecodeError} (h : s.status.busy = true)
    (hd : decode s.latched.word = .error e) : engineTurn s = .next (s.rejectWord e) := by
  simp [engineTurn, engineStep, h, hd]

/-- A table row's word decodes to the command that `decodeTableWord` names. -/
theorem decode_of_decodeTableWord {nbits w : Nat} {i : Instr}
    (h : decodeTableWord nbits w = some i) : decode (tableWord nbits w) = .ok i := by
  rw [decodeTableWord] at h
  cases hd : decode (tableWord nbits w) with
  | error e => rw [hd] at h; cases h
  | ok j => rw [hd] at h; cases h; rfl

/-- Settles O5: both agendas make the engine's turn of `u`, which holds what `s` holds but the
agenda. -/
theorem stepRunsDecodedCommand : Obligations.StepRunsDecodedCommand := by
  refine ⟨fun s u hu => ?_, fun s nbits w i hi => ?_⟩
  · obtain ⟨hstep, hstatus, hlatched⟩ :
        step s = engineTurn u ∧ u.status = s.status ∧ u.latched = s.latched := by
      rcases hu with ⟨ha, rfl⟩ | ⟨rest, ha, rfl⟩
      · exact ⟨by simp only [step, ha], rfl, rfl⟩
      · exact ⟨by simp only [step, ha], rfl, rfl⟩
    rw [hstep, ← hstatus, ← hlatched]
    exact ⟨fun hb => ⟨fun i => engineTurn_of_decode hb, fun op => engineTurn_of_reject hb,
      fun bits => engineTurn_of_reject hb⟩, engineTurn_of_idle⟩
  · exact engineTurn_of_decode (s := s.withFetchWord nbits w) rfl (decode_of_decodeTableWord hi)

/-! ### Register accesses (R14 to R16) -/

/-- A host register access of another width, unaligned or outside the window is at no offset. -/
theorem windowOffset_none {s : State} {width addr : Nat}
    (h : width ≠ 32 ∨ addr < s.regBase ∨ (addr - s.regBase) % 4 ≠ 0 ∨ s.regBase + 0xFC < addr) :
    s.windowOffset width addr = none := by
  rcases windowOffset_cases s width addr with e | ⟨off, hal, hwin, hwidth, rfl, -⟩
  · exact e
  · omega

/-- Settles O11: a read does not look at BUSY, and each register is read off `State.regRead`. -/
theorem statusAndErrorCodeRead : Obligations.StatusAndErrorCodeRead := by
  intro s
  refine ⟨fun off => hostStep_regRead s, ?_, status_word_getLsbD s.status, ?_⟩
  · have hread : ∀ off v, off % 4 = 0 → off < 0x100 → s.regRead off = v →
        hostStep (.regRead 32 (s.regBase + off)) s = .next { s with reply := .register v } := by
      rintro off v hal hwin rfl
      exact hostStep_regRead s hal hwin
    simp only [List.forall_mem_cons]
    refine ⟨?_, ?_, ?_, ?_, ?_, ?_, ?_, ?_, ?_, ?_, ?_, ?_, ?_, ?_, ?_, ?_, nofun⟩ <;>
      exact hread _ _ (by decide) (by decide) rfl
  · cases h : s.errCode <;> simp [State.regRead, h, ErrCode.word]

/-- What the window reads as with other argument registers, where the register at offset k alone
reads otherwise. -/
theorem regRead_setArgs {s : State} {x : Args} {k : Nat} {v : Nat → Word}
    (hk : State.regRead { s with args := x } k = v k)
    (hne : ∀ off ∈ [0x10, 0x14, 0x18, 0x1C, 0x20, 0x24, 0x28], off = k ∨
      State.regRead { s with args := x } off = s.regRead off) (off : Nat) :
    State.regRead { s with args := x } off = if off = k then v off else s.regRead off := by
  split
  next h => rw [h, hk]
  next h =>
    by_cases hoff : off ∈ [0x10, 0x14, 0x18, 0x1C, 0x20, 0x24, 0x28]
    · exact (hne off hoff).resolve_left h
    · simp only [List.mem_cons, List.not_mem_nil, or_false] at hoff
      unfold State.regRead
      split
      case h_5 | h_6 | h_7 | h_8 | h_9 | h_10 | h_11 => omega
      all_goals rfl

/-- PALLEN reads as bits 14:0 of the value written (R16). -/
theorem pallenWord_setWidth (x : Args) (v : Word) :
    Args.pallenWord { x with pallen := v.setWidth 15 } = v &&& 0x7FFF := by
  refine BitVec.eq_of_toNat_eq ?_
  have hmask := Nat.and_two_pow_sub_one_eq_mod v.toNat 15
  simp only [Args.pallenWord, BitVec.toNat_setWidth, BitVec.toNat_and] at hmask ⊢
  rw [Nat.mod_eq_of_lt (by omega), ← hmask]
  rfl

/-- Settles O12: a write is an update of one argument register, and each reads at its own offset. -/
theorem argumentWritesReadBack : Obligations.ArgumentWritesReadBack := by
  intro s v hidle
  have hwrite : ∀ off x, off % 4 = 0 → off < 0x100 → s.regWriteIdle off v = { s with args := x } →
      hostStep (.regWrite 32 (s.regBase + off) v) s = .next { s with args := x } := by
    intro off x hal hwin hx
    rw [hostStep_regWrite s hal hwin, regWrite_idle hidle, hx]
  simp only [List.forall_mem_cons]
  refine ⟨?_, ?_, ?_, ?_, ?_, ?_, ?_, nofun⟩
  · refine ⟨hwrite _ _ (by decide) (by decide) rfl, regRead_setArgs rfl ?_⟩
    simp only [List.forall_mem_cons]
    exact ⟨.inl trivial, .inr rfl, .inr rfl, .inr rfl, .inr rfl, .inr rfl, .inr rfl, nofun⟩
  · refine ⟨hwrite _ _ (by decide) (by decide) rfl, regRead_setArgs rfl ?_⟩
    simp only [List.forall_mem_cons]
    exact ⟨.inr rfl, .inl trivial, .inr rfl, .inr rfl, .inr rfl, .inr rfl, .inr rfl, nofun⟩
  · refine ⟨hwrite _ _ (by decide) (by decide) rfl, regRead_setArgs rfl ?_⟩
    simp only [List.forall_mem_cons]
    exact ⟨.inr rfl, .inr rfl, .inl trivial, .inr rfl, .inr rfl, .inr rfl, .inr rfl, nofun⟩
  · refine ⟨hwrite _ _ (by decide) (by decide) rfl, regRead_setArgs rfl ?_⟩
    simp only [List.forall_mem_cons]
    exact ⟨.inr rfl, .inr rfl, .inr rfl, .inl trivial, .inr rfl, .inr rfl, .inr rfl, nofun⟩
  · refine ⟨hwrite _ _ (by decide) (by decide) rfl, regRead_setArgs rfl ?_⟩
    simp only [List.forall_mem_cons]
    exact ⟨.inr rfl, .inr rfl, .inr rfl, .inr rfl, .inl trivial, .inr rfl, .inr rfl, nofun⟩
  · refine ⟨hwrite _ _ (by decide) (by decide) rfl,
      regRead_setArgs (pallenWord_setWidth s.args v) ?_⟩
    simp only [List.forall_mem_cons]
    exact ⟨.inr rfl, .inr rfl, .inr rfl, .inr rfl, .inr rfl, .inl trivial, .inr rfl, nofun⟩
  · refine ⟨hwrite _ _ (by decide) (by decide) rfl, regRead_setArgs rfl ?_⟩
    simp only [List.forall_mem_cons]
    exact ⟨.inr rfl, .inr rfl, .inr rfl, .inr rfl, .inr rfl, .inr rfl, .inl trivial, nofun⟩

/-- A write to a read-only register or a reserved offset changes nothing while no command runs
(R15). -/
theorem regWriteIdle_readOnly (s : State) {off : Nat} (v : Word)
    (h : off ∈ [0x08, 0x0C, 0x2C, 0x30, 0x34, 0x38, 0x3C, 0x40] ∨ 0x44 ≤ off ∧ off ≤ 0xFC) :
    s.regWriteIdle off v = s := by
  simp only [List.mem_cons, List.not_mem_nil, or_false] at h
  unfold State.regWriteIdle
  split
  case h_10 => rfl
  all_goals omega

/-- A reserved offset reads 0 (R15). -/
theorem regRead_reserved (s : State) {off : Nat} (h : off = 0x2C ∨ 0x44 ≤ off) :
    s.regRead off = 0 := by
  unfold State.regRead
  split
  case h_17 => rfl
  all_goals omega

/-- Settles O13: an undefined access is at no offset of the window, and the two cases of BUSY are
those of `State.regWrite`. -/
theorem undefinedRegisterAccesses : Obligations.UndefinedRegisterAccesses := by
  intro s
  refine ⟨fun width addr v h => ?_, fun off v hal hoff => ?_, fun off hal hoff => ?_⟩
  · have hnone := windowOffset_none h
    exact ⟨by simp only [hostStep, hnone], by simp only [hostStep, hnone]⟩
  · have hwin : off < 0x100 := by
      simp only [List.mem_cons, List.not_mem_nil, or_false] at hoff
      omega
    rw [hostStep_regWrite s hal hwin]
    refine ⟨fun hidle => ?_, fun hbusy => congrArg _ (regWrite_busy hbusy off v)⟩
    rw [regWrite_idle hidle, regWriteIdle_readOnly s v hoff]
  · rw [hostStep_regRead s hal (by omega), regRead_reserved s (by omega)]

/-! ### Memory accesses (R44, R151) -/

/-- An access of n bytes races a range exactly when it touches a byte of it. -/
theorem meets_access_iff (r : Range) (addr : Word) (n : Nat) :
    Range.meets ⟨addr, n⟩ r = true ↔ ∃ k < n, r.holds (addr.toNat + k) = true := by
  rw [meets_iff]
  constructor
  · rintro ⟨a, ha, hr⟩
    obtain ⟨hl, hu⟩ := (holds_iff _ _).1 ha
    obtain ⟨k, rfl⟩ := Nat.exists_eq_add_of_le hl
    exact ⟨k, by simpa using hu, hr⟩
  · rintro ⟨k, hk, hr⟩
    exact ⟨_, (holds_iff _ _).2 ⟨Nat.le_add_right _ _, Nat.add_lt_add_left hk _⟩, hr⟩

/-- A range list that an access of n bytes touches, or does not. -/
theorem any_meets_iff (rs : List Range) (addr : Word) (n : Nat) :
    rs.any (Range.meets ⟨addr, n⟩) = true ↔ ∃ r ∈ rs, ∃ k < n, r.holds (addr.toNat + k) = true := by
  simp only [List.any_eq_true, meets_access_iff]

section Access
variable {s : State} {addr : Word}

theorem hostMemRead_badMem {n : Nat} (hn : 0 < n) (h : s.memSize < addr.toNat + n) :
    s.hostMemRead addr n = .fault .badMem := by
  have hout : Range.inMemory s.memSize ⟨addr, n⟩ = false := by
    rw [← Bool.not_eq_true, inMemory_iff]
    simp only
    omega
  simp [State.hostMemRead, hout]

theorem hostMemWrite_badMem {bs : List Byte} (hbs : bs ≠ [])
    (h : s.memSize < addr.toNat + bs.length) : s.hostMemWrite addr bs = .fault .badMem := by
  have hout : Range.inMemory s.memSize ⟨addr, bs.length⟩ = false := by
    have hpos := List.length_pos_of_ne_nil hbs
    rw [← Bool.not_eq_true, inMemory_iff]
    simp only
    omega
  simp [State.hostMemWrite, hout]

theorem hostMemRead_hazRace {n : Nat} (h : addr.toNat + n ≤ s.memSize)
    (hr : s.readRaces ⟨addr, n⟩ = true) : s.hostMemRead addr n = .fault .hazRace := by
  simp [State.hostMemRead, (inMemory_iff _ ⟨addr, n⟩).2 (.inr h), hr]

theorem hostMemWrite_hazRace {bs : List Byte} (h : addr.toNat + bs.length ≤ s.memSize)
    (hr : s.writeRaces ⟨addr, bs.length⟩ = true) : s.hostMemWrite addr bs = .fault .hazRace := by
  simp [State.hostMemWrite, (inMemory_iff _ ⟨addr, bs.length⟩).2 (.inr h), hr]

theorem hostMemRead_made {n : Nat} (h : addr.toNat + n ≤ s.memSize)
    (hr : s.readRaces ⟨addr, n⟩ = false) :
    s.hostMemRead addr n = .next { s with reply := .bytes (s.mem.readBytes addr.toNat n) } := by
  simp [State.hostMemRead, (inMemory_iff _ ⟨addr, n⟩).2 (.inr h), hr]

theorem hostMemWrite_made {bs : List Byte} (h : addr.toNat + bs.length ≤ s.memSize)
    (hr : s.writeRaces ⟨addr, bs.length⟩ = false) :
    s.hostMemWrite addr bs = .next { s with mem := s.mem.writeBytes addr.toNat bs } := by
  simp [State.hostMemWrite, (inMemory_iff _ ⟨addr, bs.length⟩).2 (.inr h), hr]

/-- A host read races a running command where it touches a byte of its write ranges (R44). -/
theorem readRaces_iff {i : Instr} (hb : s.status.busy = true) (hd : decode s.latched.word = .ok i)
    (n : Nat) : s.readRaces ⟨addr, n⟩ = true ↔
      ∃ r ∈ (footprint i s.latched.args).writes, ∃ k < n, r.holds (addr.toNat + k) = true := by
  rw [State.readRaces, State.runningFootprint, hb, hd, Bool.true_and, any_meets_iff]

/-- A host write races a running command where it touches a byte of its footprint (R44). -/
theorem writeRaces_iff {i : Instr} (hb : s.status.busy = true) (hd : decode s.latched.word = .ok i)
    (n : Nat) : s.writeRaces ⟨addr, n⟩ = true ↔
      ∃ r ∈ (footprint i s.latched.args).reads ++ (footprint i s.latched.args).writes,
        ∃ k < n, r.holds (addr.toNat + k) = true := by
  rw [State.writeRaces, State.runningFootprint, hb, hd, Bool.true_and, any_meets_iff]

/-- Nothing races an engine that runs no command. -/
theorem races_idle (hb : s.status.busy = false) (r : Range) :
    s.readRaces r = false ∧ s.writeRaces r = false := by
  simp [State.readRaces, State.writeRaces, hb]

end Access

/-- No byte of an access lies in the ranges where none of its bytes does. -/
theorem not_exists_holds {rs : List Range} {addr : Word} {n : Nat}
    (h : ∀ r ∈ rs, ∀ k < n, r.holds (addr.toNat + k) = false) :
    ¬ ∃ r ∈ rs, ∃ k < n, r.holds (addr.toNat + k) = true := by
  rintro ⟨r, hr, k, hk, hin⟩
  rw [h r hr k hk] at hin
  cases hin

/-- Settles O14: two ranges meet exactly where they share a byte. -/
theorem hostRacesFault : Obligations.HostRacesFault := by
  intro s i addr hb hd
  refine ⟨fun bs _ hin => ⟨fun hrace => ?_, fun hfree => ?_⟩,
    fun n _ hin => ⟨fun hrace => ?_, fun hfree => ?_⟩⟩
  · exact hostMemWrite_hazRace hin ((writeRaces_iff hb hd _).2 hrace)
  · exact hostMemWrite_made hin
      (Bool.not_eq_true _ ▸ mt (writeRaces_iff hb hd _).1 (not_exists_holds hfree))
  · exact hostMemRead_hazRace hin ((readRaces_iff hb hd _).2 hrace)
  · exact hostMemRead_made hin
      (Bool.not_eq_true _ ▸ mt (readRaces_iff hb hd _).1 (not_exists_holds hfree))

/-- Settles O15: the bound is looked at before a race, and an engine that runs no command is in
none. -/
theorem hostMemoryAccesses : Obligations.HostMemoryAccesses := by
  intro s addr
  exact ⟨fun bs => hostMemWrite_badMem, fun n => hostMemRead_badMem,
    fun bs hidle hin => ⟨_, hostMemWrite_made hin (races_idle hidle _).2, rfl,
      writeBytes_update _ _ _⟩,
    fun n hidle hin => hostMemRead_made hin (races_idle hidle _).1⟩

/-! ### Reset (R161, R162) -/

/-- Every register but ID reads 0 where the registers hold what a reset leaves. -/
theorem regRead_platformReset (s : State) (off : Nat) :
    s.platformReset.regRead off = if off = 0x40 then 0x434D5052 else 0 := by
  unfold State.regRead
  split
  case h_2 => exact (by decide : Status.word {} = 0)
  case h_16 => rfl
  case h_17 h => exact (if_neg h).symm
  all_goals rfl

/-- A reset of the state after reset changes nothing. -/
theorem platformReset_reset : State.reset.platformReset = State.reset := rfl

/-- Settles O16: the state after reset is its own reset. -/
theorem resetClearsRegisters : Obligations.ResetClearsRegisters := by
  refine ⟨fun s rest ha => ?_, rfl, fun off => ?_⟩
  · exact ⟨{ s with agenda := rest }.platformReset, by simp only [step, ha], rfl, rfl, rfl, rfl,
      rfl, rfl, regRead_platformReset _⟩
  · rw [← platformReset_reset, regRead_platformReset]

end Sys2Proof.Machine
end

section
/-! PROOFS of the statements about the results of the descriptor commands (R59 to R69). -/

namespace Sys2Proof.Machine

/-! ### Constants (R64 to R66) -/

/-- A completion that raises no diagnostic sets DONE and ends BUSY. -/
theorem status_complete_none (st : Status) :
    st.complete {} = { st with done := true, busy := false } := by
  simp [Status.complete]

/-- Settles O24: NOP has no outputs. -/
theorem nopCompletes : Obligations.NopCompletes := by
  intro s
  rw [← status_complete_none]
  rfl

theorem exec_desc (s : State) {fmt : BitVec 4} {f : PixelFormat}
    (hf : PixelFormat.ofCode fmt = some f) :
    exec (.desc fmt) s = .next { s with
      res0 := descriptorWord f
      res1 := Word.ofNat f.blockBytes
      status := { s.status with done := true, busy := false } } := by
  rw [← status_complete_none]
  exact congrArg _ (withFormat_some hf)

theorem exec_palmax (s : State) {fmt : BitVec 4} {f : PixelFormat}
    (hf : PixelFormat.ofCode fmt = some f) (hi : f.indexed = true) :
    exec (.palmax fmt) s = .next { s with
      res0 := Word.ofNat f.maxColours
      res1 := Word.ofNat (2 * f.maxColours)
      status := { s.status with done := true, busy := false } } := by
  rw [← status_complete_none]
  exact congrArg _ ((withFormat_some hf).trans (needIndexed_pos hi))

/-- Settles O25: the constants of each format, row by row. -/
theorem descriptorTable : Obligations.DescriptorTable := by
  refine ⟨fun s => ?_, fun s => ?_⟩ <;> simp only [List.forall_mem_cons]
  · exact ⟨exec_desc s (f := .i4) rfl, exec_desc s (f := .i8) rfl, exec_desc s (f := .ia4) rfl,
      exec_desc s (f := .ia8) rfl, exec_desc s (f := .rgb565) rfl, exec_desc s (f := .rgb5a3) rfl,
      exec_desc s (f := .rgba32) rfl, exec_desc s (f := .c4) rfl, exec_desc s (f := .c8) rfl,
      exec_desc s (f := .c14x2) rfl, exec_desc s (f := .cmpr) rfl, nofun⟩
  · exact ⟨exec_palmax s (f := .c4) rfl rfl, exec_palmax s (f := .c8) rfl rfl,
      exec_palmax s (f := .c14x2) rfl rfl, nofun⟩

/-! ### Sizes (R59 to R62, R67, R68) -/

/-- A 64-bit number from its two words (R18). -/
theorem highWord_lowWord {n : Nat} (h : n < 2 ^ 64) :
    (highWord n).toNat * 2 ^ 32 + (lowWord n).toNat = n := by
  simp only [highWord, lowWord, Word.ofNat, BitVec.toNat_ofNat]
  omega

theorem width_lt (x : Args) : x.width < 2 ^ 16 := (x.dim.extractLsb' 0 16).isLt

theorem height_lt (x : Args) : x.height < 2 ^ 16 := (x.dim.extractLsb' 16 16).isLt

/-- Rounding up adds less than a block. -/
theorem pad_le (v b : Nat) : pad v b ≤ v + b := by
  have := Nat.div_mul_le_self (v + b - 1) b
  rw [pad]
  omega

/-- An image of 16-bit dimensions, rounded up to whole blocks, takes less than 2^36 bytes. -/
theorem dataSize_lt (f : PixelFormat) {w h : Nat} (hw : w < 2 ^ 16) (hh : h < 2 ^ 16) :
    dataSize f w h < 2 ^ 36 := by
  have hbw : f.bw ≤ 8 := by cases f <;> decide
  have hbh : f.bh ≤ 8 := by cases f <;> decide
  have hbpp : f.bpp ≤ 32 := by cases f <;> decide
  have hpw : pad w f.bw ≤ 2 ^ 17 := (pad_le w f.bw).trans (by omega)
  have hph : pad h f.bh ≤ 2 ^ 16 + 7 := (pad_le h f.bh).trans (by omega)
  have hbits : pad w f.bw * pad h f.bh * f.bpp ≤ 2 ^ 17 * (2 ^ 16 + 7) * 32 :=
    Nat.mul_le_mul (Nat.mul_le_mul hpw hph) hbpp
  rw [dataSize]
  omega

theorem totalDataSize_eq_sum (f : PixelFormat) (w h n : Nat) :
    totalDataSize f w h n = ∑ l ∈ Finset.range (n + 1), dataSizeAt f w h l := by
  induction n with
  | zero => simp [totalDataSize]
  | succ n ih => rw [totalDataSize, ih, Finset.sum_range_succ _ (n + 1)]

/-- A level of an image of 16-bit dimensions has 16-bit dimensions. -/
theorem dataSizeAt_lt (f : PixelFormat) (x : Args) (l : Nat) :
    dataSizeAt f x.width x.height l < 2 ^ 37 := by
  have hlevel : ∀ v < 2 ^ 16, max 1 (v >>> l) < 2 ^ 16 := fun v hv => by
    have := Nat.shiftRight_le v l
    omega
  have := dataSize_lt f (hlevel _ (width_lt x)) (hlevel _ (height_lt x))
  rw [dataSizeAt]
  omega

theorem totalDataSize_lt (f : PixelFormat) (x : Args) (lvl : BitVec 5) :
    totalDataSize f x.width x.height lvl.toNat < 2 ^ 64 := by
  have hsum : totalDataSize f x.width x.height lvl.toNat ≤ (lvl.toNat + 1) * 2 ^ 37 := by
    rw [totalDataSize_eq_sum]
    simpa using Finset.sum_le_card_nsmul (Finset.range (lvl.toNat + 1)) _ (2 ^ 37)
      fun l _ => (dataSizeAt_lt f x l).le
  have := lvl.isLt
  omega

theorem dataSizeAt_eq (f : PixelFormat) (w h l : Nat) :
    dataSizeAt f w h l =
      (max 1 (w / 2 ^ l) + f.bw - 1) / f.bw * f.bw *
        ((max 1 (h / 2 ^ l) + f.bh - 1) / f.bh * f.bh) * f.bpp / 8 := by
  rw [dataSizeAt, Nat.shiftRight_eq_div_pow, Nat.shiftRight_eq_div_pow]
  rfl

/-- The completion of DSIZE and TSIZE with a size below 2^64. -/
theorem sizeOutputs_completion {s : State} {i : Instr} {n : Nat} (h : n < 2 ^ 64)
    (hexec : exec i s = .next (s.complete (sizeOutputs n))) :
    ∃ t, exec i s = .next t ∧
      Completion s t {} [] t.res0 t.res1 s.res2 s.res3 ∧
      t.res1.toNat * 2 ^ 32 + t.res0.toNat = n :=
  ⟨_, hexec, completion_of rfl rfl rfl rfl rfl rfl, highWord_lowWord h⟩

/-- Settles O26: both sizes fit in 64 bits. -/
theorem sizeCommandsComplete : Obligations.SizeCommandsComplete := by
  intro s fmt lvl f hf hw hh size
  have hsize : ∀ l, size l = dataSizeAt f s.latched.args.width s.latched.args.height l :=
    fun l => (dataSizeAt_eq ..).symm
  simp only [hsize, ← totalDataSize_eq_sum]
  exact ⟨sizeOutputs_completion ((dataSizeAt_lt ..).trans (by decide))
      (congrArg _ ((withFormat_some hf).trans (needDim_pos hw hh))),
    sizeOutputs_completion (totalDataSize_lt ..)
      (congrArg _ ((withFormat_some hf).trans (needDim_pos hw hh)))⟩

/-! ### Levels that fit (R63, R69) -/

/-- The size of the first n levels, halved by a plain shift (R63). -/
def levelsSize (f : PixelFormat) (w h n : Nat) : Nat :=
  ∑ l ∈ Finset.range n, dataSize f (w / 2 ^ l) (h / 2 ^ l)

/-- A dimension halved once is one level further down. -/
theorem shiftRight_one_div (v l : Nat) : (v >>> 1) / 2 ^ l = v / 2 ^ (l + 1) := by
  rw [Nat.shiftRight_eq_div_pow, Nat.div_div_eq_div_mul, ← Nat.pow_add, Nat.add_comm]

theorem levelsSize_succ (f : PixelFormat) (w h n : Nat) :
    levelsSize f w h (n + 1) = dataSize f w h + levelsSize f (w >>> 1) (h >>> 1) n := by
  simp only [levelsSize, shiftRight_one_div, Finset.sum_range_succ' _ n, pow_zero, Nat.div_one,
    Nat.add_comm]

/-- n levels fit whole in `size` bytes, and either the loop's fuel is spent or one more does not
fit. -/
structure LevelsFit (f : PixelFormat) (fuel size w h n : Nat) : Prop where
  pos : ∀ l < n, 0 < w / 2 ^ l ∧ 0 < h / 2 ^ l
  fit : levelsSize f w h n ≤ size
  last : n = fuel ∨ w / 2 ^ n = 0 ∨ h / 2 ^ n = 0 ∨ size < levelsSize f w h (n + 1)

theorem mipLevels_fit (f : PixelFormat) (fuel size w h : Nat) :
    LevelsFit f fuel size w h (mipLevels f fuel size w h) := by
  induction fuel generalizing size w h with
  | zero => exact ⟨nofun, Nat.zero_le _, .inl rfl⟩
  | succ fuel ih =>
    rw [mipLevels]
    split
    next hbase =>
      obtain ⟨hw, hh, hsize⟩ := hbase
      obtain ⟨hpos, hfit, hlast⟩ := ih (size - dataSize f w h) (w >>> 1) (h >>> 1)
      generalize mipLevels f fuel (size - dataSize f w h) (w >>> 1) (h >>> 1) = n at hpos hfit hlast
      simp only [shiftRight_one_div] at hpos hlast
      refine ⟨fun l hl => ?_, ?_, ?_⟩
      · cases l with
        | zero => simpa using ⟨hw, hh⟩
        | succ l => exact hpos l (by omega)
      · rw [levelsSize_succ]
        omega
      · rw [levelsSize_succ f w h (n + 1)]
        omega
    next hbase =>
      refine ⟨nofun, Nat.zero_le _, .inr ?_⟩
      have hone : levelsSize f w h (0 + 1) = dataSize f w h := by simp [levelsSize]
      rw [hone, pow_zero, Nat.div_one, Nat.div_one]
      omega

theorem wholeLevels_pos_iff (f : PixelFormat) (x : Args) (hw : 0 < x.width) (hh : 0 < x.height) :
    0 < wholeLevels f x ↔ dataSize f x.width x.height ≤ x.len.toNat := by
  rw [wholeLevels, mipLevels]
  split <;> simp_all

/-- Settles O27: the loop keeps count of the levels that fit, and 16 halvings leave nothing of a
16-bit dimension. -/
theorem mipcntCountsWholeLevels : Obligations.MipcntCountsWholeLevels := by
  intro s fmt f hf hw hh w h upTo
  have hexec : exec (.mipcnt fmt) s =
      .next (s.unless (wholeLevels f s.latched.args == 0) .budget s.latched.args.len
        (s.complete { res0 := some (Word.ofNat (wholeLevels f s.latched.args - 1)) })) :=
    congrArg _ ((withFormat_some hf).trans (needDim_pos hw hh))
  have hpos := wholeLevels_pos_iff f s.latched.args hw hh
  refine ⟨fun hlen => ?_, fun hlen => ?_⟩
  · rw [hexec, unless_pos (by simp; omega), erred_eq]
  · obtain ⟨hlevels, hfit, hlast⟩ :=
      mipLevels_fit f 16 s.latched.args.len.toNat s.latched.args.width s.latched.args.height
    refine ⟨_, wholeLevels f s.latched.args, hexec.trans (congrArg _ (unless_neg (by simp; omega))),
      hpos.2 hlen, completion_of rfl rfl rfl rfl rfl rfl, hlevels, hfit, ?_⟩
    rcases hlast with hfuel | hlast
    · refine .inl ?_
      have hspent : wholeLevels f s.latched.args = 16 := hfuel
      rw [hspent]
      exact Nat.div_eq_of_lt (width_lt _)
    · exact hlast

end Sys2Proof.Machine
end

section
/-! PROOFS of the statements about the results of the block commands DECB, DECI, ENCB, ENCI, PDEC,
PENC (R84 to R95, R104, R118) and the byte layout of arrays (R35 to R38). -/

namespace Sys2Proof.Machine

/-- A command whose footprint is in range goes on past its footprint check. -/
theorem exec_of_access {i : Instr} {s k : State} (h : exec i s = .next (s.access i k))
    (hr : s.reaches i) : exec i s = .next k := by
  rw [h, access_of_reaches hr]

/-! ### DECB (R86 to R90, R104) -/

theorem grey_of_direct {f : PixelFormat} (h : f.indexed = false) : f.grey = f := by
  cases f with
  | c4 | c8 | c14x2 => cases h
  | _ => rfl

/-- The grey counterpart of an indexed format is the format FMT - 8 (R87). -/
theorem ofCode_grey {fmt : BitVec 4} {f : PixelFormat} (hf : PixelFormat.ofCode fmt = some f)
    (hi : f.indexed = true) :
    PixelFormat.ofCode (fmt - 8) = some f.grey ∧ f.grey.indexed = false ∧ f.grey.code = fmt - 8 ∧
      f.grey.blockBytes = 32 := by
  rw [← code_of_ofCode hf]
  cases f with
  | c4 | c8 | c14x2 => decide
  | _ => cases hi

/-- Settles O28: a direct format is its own grey counterpart, and PP does not matter to it. -/
theorem decbDirectCompletes : Obligations.DecbDirectCompletes := by
  intro s fmt pfmt pp f hf hi hr
  refine ⟨_, exec_of_access (exec_decb_block hf (by simp [hi])) hr, ?_⟩
  rw [grey_of_direct hi, hi, ← code_of_ofCode hf]
  exact completion_of rfl rfl rfl rfl rfl rfl

/-- Settles O29: without a palette an indexed format decodes as its grey counterpart. -/
theorem decbAbsentPaletteDegrades : Obligations.DecbAbsentPaletteDegrades := by
  intro s fmt pfmt f hf hi hr
  obtain ⟨hgrey, hdirect, hcode, hbytes⟩ := ofCode_grey hf hi
  refine ⟨f.grey, hgrey, hdirect, _, exec_of_access (exec_decb_block hf (by simp)) hr, ?_⟩
  rw [hi, ← hcode]
  refine completion_of rfl ?_ rfl rfl rfl rfl
  rw [decbOutputs, hbytes]
  rfl

/-- An index below PALLEN selects the palette entry at AUX, any other index BLACK (R86). -/
theorem resolveIndex_readHalves (p : PaletteFormat) (m : Memory) (a n : Nat) (k : Half) :
    resolveIndex p (m.readHalves a n) k =
      if k.toNat < n then decPal p (m.readHalf (a + 2 * k.toNat)) else black := by
  by_cases h : k.toNat < n
  · simp [resolveIndex, Memory.readHalves, h]
  · simp [resolveIndex, Memory.readHalves, h]

/-- Settles O30: the palette has PALLEN entries, so an index is beyond it exactly where it is not
below PALLEN. -/
theorem decbPaletteResolves : Obligations.DecbPaletteResolves := by
  intro s fmt pfmt f p hf hi hp hpal hr is
  refine ⟨_, exec_of_access (exec_decb_palette hf hi hp hpal) hr,
    completion_of rfl ?_ ?_ rfl rfl rfl⟩
  · exact congrArg colorBytes (List.map_congr_left fun k _ => resolveIndex_readHalves ..)
  · exact congrArg (BitVec.setWidth 32) (code_of_ofCode hf)

/-! ### DECI, ENCI and ENCB (R91 to R93, R118) -/

theorem firstBadIndex_eq_none {f : PixelFormat} {is : List Half}
    (h : ∀ v ∈ is, v.toNat ≤ f.maxIndex) : firstBadIndex f is = none := by
  rw [firstBadIndex, List.findIdx?_eq_none_iff]
  exact fun v hv => decide_eq_false (Nat.not_lt.2 (h v hv))

theorem firstBadIndex_eq_some {f : PixelFormat} {is : List Half} {i : Nat} (hi : i < is.length)
    (hbad : f.maxIndex < is[i].toNat) (hgood : ∀ j, (hj : j < i) → is[j].toNat ≤ f.maxIndex) :
    firstBadIndex f is = some i := by
  rw [firstBadIndex, List.findIdx?_eq_some_iff_getElem]
  exact ⟨hi, decide_eq_true hbad, fun j hj => by simpa using hgood j hj⟩

/-- Settles O31: ENCI looks for the first index above the maximum. -/
theorem indexCommandsComplete : Obligations.IndexCommandsComplete := by
  intro s fmt f hf hi
  refine ⟨fun hr => ?_, fun hr => ?_⟩
  · exact ⟨_, exec_of_access (exec_deci hf hi) hr, completion_of rfl rfl rfl rfl rfl rfl⟩
  · intro is
    have hexec := exec_of_access (exec_enci hf hi) hr
    refine ⟨fun hgood => ?_, fun i h hbad hgood => ?_⟩
    · rw [hexec, firstBadIndex_eq_none hgood]
      exact ⟨_, rfl, completion_of rfl rfl rfl rfl rfl rfl⟩
    · rw [hexec, firstBadIndex_eq_some h hbad hgood]
      rfl

/-- Settles O32: for CMPR the sub-blocks are those of `encodeCmpr`, whose bounds are the extent of
DIM. -/
theorem encbCompletes : Obligations.EncbCompletes := by
  intro s fmt f hf hi hr ps
  have hexec := exec_of_access (exec_encb hf hi) hr
  refine ⟨fun hc => ⟨_, hexec, completion_of rfl (if_neg hc) rfl rfl rfl rfl⟩,
    fun hc => ⟨_, hexec, completion_of rfl (if_pos hc) rfl rfl rfl rfl⟩⟩

/-! ### Byte layout of arrays (R35 to R38) -/

/-- The bytes of colour k of a colour array (R36). -/
theorem colorBytes_getElem? (cs : List Color) {k : Nat} (h : k < cs.length) :
    (colorBytes cs)[4 * k]? = some cs[k].r ∧ (colorBytes cs)[4 * k + 1]? = some cs[k].g ∧
      (colorBytes cs)[4 * k + 2]? = some cs[k].b ∧ (colorBytes cs)[4 * k + 3]? = some cs[k].a := by
  induction cs generalizing k with
  | nil => cases h
  | cons c cs ih =>
    cases k with
    | zero => exact ⟨rfl, rfl, rfl, rfl⟩
    | succ k => exact ih (Nat.lt_of_succ_lt_succ h)

/-- The bytes of a 16-bit value as numbers (R35). -/
theorem halfBytes_toNat (v : Half) :
    (halfBytes v).map BitVec.toNat = [v.toNat / 256, v.toNat % 256] := by
  have hhigh : v.toNat / 256 % 256 = v.toNat / 256 := Nat.mod_eq_of_lt (by omega)
  simp [halfBytes, Nat.shiftRight_eq_div_pow, hhigh]

/-- The bytes of a 32-bit value as numbers. -/
theorem wordBytes_toNat (w : Word) :
    (wordBytes w).map BitVec.toNat = [w.toNat / 2 ^ 24, w.toNat / 2 ^ 16 % 256,
      w.toNat / 2 ^ 8 % 256, w.toNat % 256] := by
  have hhigh : w.toNat / 16777216 % 256 = w.toNat / 16777216 := Nat.mod_eq_of_lt (by omega)
  simp only [wordBytes, List.map_cons, List.map_nil, BitVec.extractLsb'_toNat,
    Nat.shiftRight_eq_div_pow, hhigh, Nat.pow_zero, Nat.div_one, Nat.reducePow]

/-- The bytes of index k of an index array (R37). -/
theorem indexBytes_getElem? (is : List Half) {k : Nat} (h : k < is.length) :
    (indexBytes is)[2 * k]?.map BitVec.toNat = some (is[k].toNat / 256) ∧
      (indexBytes is)[2 * k + 1]?.map BitVec.toNat = some (is[k].toNat % 256) := by
  induction is generalizing k with
  | nil => cases h
  | cons v is ih =>
    cases k with
    | zero =>
      have hbytes := halfBytes_toNat v
      simp only [halfBytes, List.map_cons, List.map_nil, List.cons.injEq, and_true] at hbytes
      exact ⟨congrArg some hbytes.1, congrArg some hbytes.2⟩
    | succ k => exact ih (Nat.lt_of_succ_lt_succ h)

/-- Two values side by side as a number. -/
theorem append_toNat {m n : Nat} (x : BitVec m) (y : BitVec n) :
    (x ++ y).toNat = x.toNat * 2 ^ n + y.toNat := by
  rw [BitVec.toNat_append, ← Nat.shiftLeft_add_eq_or_of_lt y.isLt, Nat.shiftLeft_eq]

/-- A big-endian value as a number (R35). -/
theorem be16_toNat (hi lo : Byte) : (be16 hi lo).toNat = 256 * hi.toNat + lo.toNat := by
  rw [be16, append_toNat]
  omega

theorem byteAt_of_lt {b : List Byte} {k : Nat} (h : k < b.length) : byteAt b k = b[k] :=
  List.getD_eq_getElem _ _ h

/-- Settles O33: the layouts are those of one element, repeated. -/
theorem paletteCommandsComplete : Obligations.PaletteCommandsComplete := by
  refine ⟨fun cs => ⟨colorBytes_length cs, fun k => colorBytes_getElem? cs⟩,
    fun is => ⟨indexBytes_length is, fun k => indexBytes_getElem? is⟩,
    fun m a n => ⟨rfl, rfl, rfl, be16_toNat _ _, rfl⟩,
    fun v w hi lo => ⟨halfBytes_toNat v, wordBytes_toNat w, be16_toNat hi lo⟩,
    fun b k => byteAt_of_lt, fun s pfmt p hp => ⟨fun hr => ?_, fun hr => ?_⟩⟩
  · exact ⟨_, exec_of_access (exec_pdec hp) hr,
      completion_of rfl (congrArg colorBytes List.map_map) rfl rfl rfl rfl⟩
  · exact ⟨_, exec_of_access (exec_penc hp) hr,
      completion_of rfl (congrArg indexBytes List.map_map) rfl rfl rfl rfl⟩

end Sys2Proof.Machine
end

section
/-! PROOFS of the statements about the results of the CMPR commands (R103, R111 to R118), of the
quantizer (R130 to R133), of the transcoder (R141 to R146) and of PRANGE (R147, R148). -/

namespace Sys2Proof.Machine

/-! ### Words of a register -/

/-- The big-endian value at offset k of bytes read from memory is the one there in memory (R35). -/
theorem halfAt_readBytes (m : Memory) (a : Nat) {n k : Nat} (h : k + 1 < n) :
    halfAt (m.readBytes a n) k = m.readHalf (a + k) := by
  have hbyte : ∀ j < n, byteAt (m.readBytes a n) j = m.read (a + j) := fun j hj => by
    rw [byteAt_of_lt (by simpa using hj), readBytes_getElem]
  rw [halfAt, hbyte k (by omega), hbyte (k + 1) h]
  rfl

theorem wordAt_readBytes_toNat (m : Memory) (a : Nat) {n k : Nat} (h : k + 3 < n) :
    (wordAt (m.readBytes a n) k).toNat =
      (m.readHalf (a + k)).toNat * 2 ^ 16 + (m.readHalf (a + (k + 2))).toNat := by
  rw [wordAt, append_toNat, halfAt_readBytes m a (by omega), halfAt_readBytes m a (by omega)]

/-! ### CMPR (R103, R111 to R117) -/

/-- Settles O34: the words are read off the bytes of the sub-block, and CPAL's palette is the one
of its F. -/
theorem subBlockPaletteCommandsComplete : Obligations.SubBlockPaletteCommandsComplete := by
  intro s
  refine ⟨fun hr => ?_, fun hr => ?_, fun hr => ?_⟩
  · exact ⟨_, exec_of_access rfl hr, completion_of rfl rfl rfl rfl rfl rfl,
      wordAt_readBytes_toNat _ _ (by decide), wordAt_readBytes_toNat _ _ (by decide)⟩
  · exact ⟨_, exec_of_access rfl hr, completion_of rfl rfl rfl rfl rfl rfl⟩
  · exact ⟨_, exec_of_access rfl hr, completion_of rfl rfl rfl rfl rfl rfl⟩

/-- Settles O35: the in-bounds test is the extent of DIM, the words are the two raw words in one
register. -/
theorem encoderCommandsComplete : Obligations.EncoderCommandsComplete := by
  intro s ps inb k raw flags
  have hraw : k.raw.toNat = raw := append_toNat ..
  have hflags : k.flags.toNat = flags := flags_toNat k
  exact ⟨fun hr => ⟨_, exec_of_access rfl hr, completion_of rfl rfl rfl rfl rfl rfl, hraw, hflags⟩,
    fun hr => ⟨_, exec_of_access rfl hr, completion_of rfl rfl rfl rfl rfl rfl⟩,
    fun hr => ⟨_, exec_of_access rfl hr, completion_of rfl rfl rfl rfl rfl rfl, hraw, hflags, rfl⟩⟩

/-! ### Quantizer (R130 to R133) -/

/-- A colour packed in a register (R18). -/
theorem color_word_toNat (c : Color) :
    c.word.toNat = c.r.toNat * 2 ^ 24 + c.g.toNat * 2 ^ 16 + c.b.toNat * 2 ^ 8 + c.a.toNat := by
  have hword : c.word = be16 c.r c.g ++ be16 c.b c.a := rfl
  rw [hword, append_toNat, be16_toNat, be16_toNat]
  ring

theorem distance_lt (s p : Color) : distance s p < 2 ^ 64 := by
  have hs := byte_sq_le s.a
  have hp := byte_sq_le p.a
  have := distance_le s p
  omega

/-- Settles O36: a distance fits in 64 bits. -/
theorem metricCommandsComplete : Obligations.MetricCommandsComplete := by
  intro s
  refine ⟨fun hr => ?_, fun hlen hr => ?_⟩
  · exact ⟨_, exec_of_access rfl hr, completion_of rfl rfl rfl rfl rfl rfl,
      highWord_lowWord (distance_lt _ _)⟩
  · exact ⟨_, exec_of_access (exec_qavg hlen) hr, completion_of rfl rfl rfl rfl rfl rfl,
      color_word_toNat _⟩

/-- Settles O37: the colours are those at SRC, and the palette of QPAL has min(LEN, maxColors)
entries. -/
theorem paletteBuildingCommandsComplete : Obligations.PaletteBuildingCommandsComplete := by
  intro s
  refine ⟨fun hzero hpal hr => ?_, fun f qsel m hm hlen hr => ?_⟩
  · exact ⟨_, exec_of_access (exec_qnear hzero hpal) hr,
      completion_of rfl (congrArg indexBytes List.map_map) rfl rfl rfl rfl⟩
  · refine ⟨_, exec_of_access (exec_qpal hm hlen) hr, completion_of rfl rfl ?_ rfl rfl rfl⟩
    rw [buildLimitedPalette_length, readColors_length]
    rfl

/-! ### Transcoder (R141 to R146) -/

/-- Settles O38: the commands run their transforms on the LEN bytes at SRC. -/
theorem transcoderCommandsComplete : Obligations.TranscoderCommandsComplete := by
  intro s b wb
  refine ⟨fun hlen hr => ?_, fun hw hh hw8 hh8 hlen => ?_⟩
  · exact ⟨_, exec_of_access (exec_xswp hlen) hr, completion_of rfl rfl rfl rfl rfl rfl⟩
  · have hchecks : ∀ k, s.needImage k = k :=
      fun k => needImage_pos (badExtent_eq_false hw hh hw8 hh8) hlen
    have hexec : ∀ {i : Instr} {o : Outputs},
        exec i s = .next (s.needImage (s.access i (s.complete o))) →
        s.reaches i → exec i s = .next (s.complete o) := fun h hr =>
      exec_of_access (h.trans (congrArg _ (hchecks _))) hr
    simp only [List.forall_mem_cons]
    exact ⟨fun hr => ⟨_, hexec rfl hr, completion_of rfl rfl rfl rfl rfl rfl⟩,
      fun hr => ⟨_, hexec rfl hr, completion_of rfl rfl rfl rfl rfl rfl⟩,
      fun hr => ⟨_, hexec rfl hr, completion_of rfl rfl rfl rfl rfl rfl⟩,
      fun hr => ⟨_, hexec rfl hr, completion_of rfl rfl rfl rfl rfl rfl⟩, nofun⟩

/-! ### PRANGE (R147, R148) -/

/-- The least index of a non-empty list of indices is in the list and below every other. -/
theorem minIndex_spec {is : List Nat} (hne : is ≠ []) (hle : ∀ k ∈ is, k ≤ 65535) :
    minIndex is ∈ is ∧ ∀ k ∈ is, minIndex is ≤ k := by
  obtain ⟨x, hx⟩ := Option.ne_none_iff_exists'.1 (mt List.min?_eq_none_iff.1 hne)
  obtain ⟨hmem, hmin⟩ := List.min?_eq_some_iff.1 hx
  have heq : minIndex is = x := by
    rw [minIndex, List.foldl_min, hx, Option.getD_some, Nat.min_eq_right (hle x hmem)]
  rw [heq]
  exact ⟨hmem, hmin⟩

/-- The greatest index of a non-empty list is in the list and above every other. -/
theorem topIndex_spec {is : List Nat} (hne : is ≠ []) :
    topIndex is ∈ is ∧ ∀ k ∈ is, k ≤ topIndex is := by
  obtain ⟨x, hx⟩ := Option.ne_none_iff_exists'.1 (mt List.max?_eq_none_iff.1 hne)
  obtain ⟨hmem, hmax⟩ := List.max?_eq_some_iff.1 hx
  have heq : topIndex is = x := by
    rw [topIndex, List.foldl_max, hx, Option.getD_some, Nat.zero_max]
  rw [heq]
  exact ⟨hmem, hmax⟩

theorem usedIndices_le (f : PixelFormat) (b : List Byte) : ∀ k ∈ usedIndices f b, k ≤ 65535 := by
  intro k hk
  obtain ⟨i, -, rfl⟩ := List.mem_map.1 hk
  exact Nat.le_of_lt_succ (indexAt f b i).isLt

/-- The number of indices that PRANGE looks at (R147). -/
theorem indexCount_of_indexed {f : PixelFormat} (hi : f.indexed = true) (n : Nat) :
    indexCount f n = if f = .c4 then 2 * n else if f = .c8 then n else n / 2 := by
  cases f with
  | c4 | c8 | c14x2 => rfl
  | _ => cases hi

/-- Some bytes, an even number of them for C14X2, hold some index. -/
theorem usedIndices_ne_nil {f : PixelFormat} {b : List Byte} (hi : f.indexed = true)
    (hb : 0 < b.length) (heven : f = .c14x2 → b.length % 2 = 0) : usedIndices f b ≠ [] := by
  have hcount : 0 < indexCount f b.length := by
    cases f with
    | c4 => exact Nat.mul_pos (by decide) hb
    | c8 => exact hb
    | c14x2 =>
      have := heven rfl
      exact Nat.div_pos (by omega) (by decide)
    | _ => cases hi
  simp only [usedIndices, ne_eq, List.map_eq_nil_iff, List.range_eq_nil]
  omega

/-- Settles O39: LEN bytes hold at least one index, so the least and the greatest are attained. -/
theorem prangeCompletes : Obligations.PrangeCompletes := by
  intro s fmt f pp hf hi hpal hlen heven hr n is
  have his : usedIndices f
      (s.mem.readBytes s.latched.args.src.toNat s.latched.args.len.toNat) = is := by
    rw [usedIndices, readBytes_length, indexCount_of_indexed hi]
  have hne : is ≠ [] := by
    refine his ▸ usedIndices_ne_nil hi ?_ (by simpa using heven)
    rw [readBytes_length]
    exact Nat.pos_of_ne_zero fun h => hlen (BitVec.eq_of_toNat_eq h)
  obtain ⟨hmin, hmins⟩ := minIndex_spec hne (his ▸ usedIndices_le f _)
  obtain ⟨hmax, hmaxs⟩ := topIndex_spec hne
  refine ⟨_, minIndex is, topIndex is, exec_of_access (exec_prange hf hi hpal hlen heven) hr, hmin,
    hmax, fun k hk => ⟨hmins k hk, hmaxs k hk⟩, ?_⟩
  rw [prangeOutputs, his]
  exact completion_of rfl rfl rfl rfl rfl rfl

end Sys2Proof.Machine
end

section
/-! PROOFS of the statements about the layouts of spec/42_block_codecs.md in plain arithmetic: what
a block decodes to (R70 to R81, R83, R85), what it encodes to (R74 to R83, R85), and index blocks
(R84, R93). -/

namespace Sys2Proof.Machine

/-! ### Channels as numbers (R70 to R73) -/

theorem expand3_toNat :
    ∀ a, (expand3 a).toNat = 32 * a.toNat + 4 * a.toNat + a.toNat / 2 := by decide

theorem rep4_toNat : ∀ v, (rep4 v).toNat = 17 * v.toNat := by decide

theorem shl4_toNat : ∀ v, (shl4 v).toNat = 16 * v.toNat := by decide

/-- Nibble i of a byte list as a number (R76, R84). -/
theorem nibbleAt_toNat (b : List Byte) (i : Nat) :
    (nibbleAt b i).toNat =
      if i % 2 = 0 then (byteAt b (i / 2)).toNat / 16 else (byteAt b (i / 2)).toNat % 16 := by
  have hhigh : (byteAt b (i / 2)).toNat / 16 % 16 = (byteAt b (i / 2)).toNat / 16 :=
    Nat.mod_eq_of_lt (by omega)
  rw [nibbleAt]
  split <;> simp [Nat.shiftRight_eq_div_pow, hhigh]

theorem halfAt_toNat (b : List Byte) (k : Nat) :
    (halfAt b k).toNat = 256 * (byteAt b k).toNat + (byteAt b (k + 1)).toNat := be16_toNat _ _

/-! ### Decoded pixels (R76 to R81, R83, R85) -/

/-- The mode bit of an RGB5A3 word (R81). -/
theorem mode5A3 (v : Half) : v.getLsbD 15 = decide (32768 ≤ v.toNat) :=
  (BitVec.msb_eq_getLsbD_last v).symm.trans (BitVec.msb_eq_decide v)

/-- The channels of an RGB5A3 word in opaque mode (R81). -/
theorem dec5A3_opaque_toNat {v : Half} (h : 32768 ≤ v.toNat) :
    (dec5A3 v).r.toNat = 8 * (v.toNat / 1024 % 32) + v.toNat / 1024 % 32 / 4 ∧
    (dec5A3 v).g.toNat = 8 * (v.toNat / 32 % 32) + v.toNat / 32 % 32 / 4 ∧
    (dec5A3 v).b.toNat = 8 * (v.toNat % 32) + v.toNat % 32 / 4 ∧ (dec5A3 v).a.toNat = 255 := by
  rw [dec5A3, mode5A3, decide_eq_true h, if_pos rfl]
  simp [expand5_toNat, Nat.shiftRight_eq_div_pow]

/-- The channels of an RGB5A3 word in alpha mode (R81). -/
theorem dec5A3_alpha_toNat {v : Half} (h : ¬ 32768 ≤ v.toNat) :
    (dec5A3 v).r.toNat = 16 * (v.toNat / 256 % 16) ∧
    (dec5A3 v).g.toNat = 16 * (v.toNat / 16 % 16) ∧
    (dec5A3 v).b.toNat = 16 * (v.toNat % 16) ∧
    (dec5A3 v).a.toNat =
      32 * (v.toNat / 4096 % 8) + 4 * (v.toNat / 4096 % 8) + v.toNat / 4096 % 8 / 2 := by
  rw [dec5A3, mode5A3, decide_eq_false h, if_neg (by decide)]
  simp [expand3_toNat, shl4_toNat, Nat.shiftRight_eq_div_pow]

/-- Settles O40: each channel is a widened field of the pixel's word, byte or nibble. -/
theorem decodedPixels : Obligations.DecodedPixels := by
  intro b i x v chans five six nib
  have hv : (halfAt b (2 * i)).toNat = v := halfAt_toNat b (2 * i)
  have hnib : (nibbleAt b i).toNat = nib := nibbleAt_toNat b i
  refine ⟨?_, rfl, ?_, ?_, ?_, ?_, rfl, rfl, rfl, rfl, fun f => rfl⟩
  · simp only [chans, decodePixel, greyColor, rep4_toNat, hnib]
  · have hhigh : x i / 16 % 16 = x i / 16 := Nat.mod_eq_of_lt (by simp only [x]; omega)
    simp [chans, decodePixel, greyColor, rep4_toNat, Nat.shiftRight_eq_div_pow, x, hhigh]
  · simp only [chans, decodePixel, decIA8, halfAt_lowByte, halfAt_highByte, x]
  · obtain ⟨hr, hg, hb⟩ := dec565_toNat (halfAt b (2 * i))
    have hred : v / 2048 % 32 = v / 2048 := Nat.mod_eq_of_lt (by rw [← hv]; omega)
    simp only [chans, decodePixel, hr, hg, hb, dec565_a, hv, five, six, hred]
    rfl
  · by_cases h : 32768 ≤ v
    · obtain ⟨hr, hg, hb, ha⟩ := dec5A3_opaque_toNat (hv ▸ h)
      rw [if_pos h]
      simp only [chans, decodePixel, hr, hg, hb, ha, hv, five]
    · obtain ⟨hr, hg, hb, ha⟩ := dec5A3_alpha_toNat (hv ▸ h)
      rw [if_neg h]
      simp only [chans, decodePixel, hr, hg, hb, ha, hv]

/-! ### Index blocks (R55, R84, R93) -/

theorem and_3FFF_toNat (v : Half) : (v &&& 0x3FFF).toNat = v.toNat % 16384 :=
  Nat.and_two_pow_sub_one_eq_mod v.toNat 14

/-- The index layouts as numbers (R84). -/
theorem indexAt_toNat (b : List Byte) (i : Nat) :
    (indexAt .c4 b i).toNat = (nibbleAt b i).toNat ∧
    (indexAt .c8 b i).toNat = (byteAt b i).toNat ∧
    (indexAt .c14x2 b i).toNat =
      (256 * (byteAt b (2 * i)).toNat + (byteAt b (2 * i + 1)).toNat) % 16384 := by
  refine ⟨?_, ?_, ?_⟩
  · exact BitVec.toNat_setWidth_of_le (by decide)
  · exact BitVec.toNat_setWidth_of_le (by decide)
  · rw [indexAt, and_3FFF_toNat, halfAt_toNat]

/-- No index that a block can hold is above the format's maximum (R55). -/
theorem indexAt_le_maxIndex (f : PixelFormat) (b : List Byte) (i : Nat) :
    (indexAt f b i).toNat ≤ f.maxIndex := by
  obtain ⟨h4, h8, h14⟩ := indexAt_toNat b i
  cases f with
  | c4 => exact h4 ▸ Nat.le_of_lt_succ (nibbleAt b i).isLt
  | c8 => exact h8 ▸ Nat.le_of_lt_succ (byteAt b i).isLt
  | c14x2 => exact h14 ▸ Nat.le_of_lt_succ (Nat.mod_lt _ (by decide))
  | _ => exact Nat.le_refl 0

/-- Byte k of a 16-bit array (R37). -/
theorem byteAt_indexBytes (vs : List Half) (k : Nat) :
    byteAt (indexBytes vs) k =
      (vs.getD (k / 2) 0).extractLsb' (if k % 2 = 0 then 8 else 0) 8 := by
  rw [← halfAt_indexBytes]
  split
  next h => rw [halfAt_highByte, show 2 * (k / 2) = k by omega]
  next h => rw [halfAt_lowByte, show 2 * (k / 2) + 1 = k by omega]

theorem encodeIndexBlock_c14x2 (is : List Half) :
    encodeIndexBlock .c14x2 is = indexBytes (is.map fun v => v &&& 0x3FFF) := by
  rw [indexBytes, List.flatMap_map]
  rfl

/-- Packing the indices of a C4 or C8 block gives the block back (R84, R93). -/
theorem encodeIndexBlock_decodeIndices {f : PixelFormat} {b : List Byte} (hi : f.indexed = true)
    (hx : f ≠ .c14x2) (hb : b.length = 32) : encodeIndexBlock f (decodeIndices f b) = b := by
  cases f with
  | c4 =>
    have hnib : ∀ i, (indexAt .c4 b i).setWidth 4 = nibbleAt b i := fun i => by
      rw [indexAt, BitVec.setWidth_setWidth_of_le _ (by decide), BitVec.setWidth_eq]
    rw [encodeIndexBlock, decodeIndices, List.map_map]
    simp only [Function.comp_def, hnib]
    exact packNibbles_nibbleAt (n := 32) hb
  | c8 =>
    have hbyte : ∀ i, (indexAt .c8 b i).setWidth 8 = byteAt b i := fun i => by
      rw [indexAt, BitVec.setWidth_setWidth_of_le _ (by decide), BitVec.setWidth_eq]
    rw [encodeIndexBlock, decodeIndices, List.map_map]
    simp only [Function.comp_def, hbyte]
    exact map_byteAt_range (n := 32) hb
  | c14x2 => exact absurd rfl hx
  | _ => cases hi

/-- Packing the indices of a C14X2 block clears bits 15:14 of each value (R84, R93). -/
theorem encodeIndexBlock_decodeIndices_c14x2 (b : List Byte) {k : Nat} (h : k < 32) :
    byteAt (encodeIndexBlock .c14x2 (decodeIndices .c14x2 b)) k =
      if k % 2 = 0 then byteAt b k &&& 0x3F else byteAt b k := by
  have hvalue : ((decodeIndices .c14x2 b).map fun v => v &&& 0x3FFF).getD (k / 2) 0 =
      halfAt b (2 * (k / 2)) &&& 0x3FFF := by
    have hlt : k / 2 < PixelFormat.c14x2.npix := by
      have : PixelFormat.c14x2.npix = 16 := rfl
      omega
    rw [List.getD_eq_getElem _ _ (by simpa using hlt), List.getElem_map]
    simp [decodeIndices, indexAt, BitVec.and_assoc]
  rw [encodeIndexBlock_c14x2, byteAt_indexBytes, hvalue, BitVec.extractLsb'_and]
  split
  next heven =>
    rw [halfAt_highByte, show 2 * (k / 2) = k by omega]
    rfl
  next hodd =>
    rw [halfAt_lowByte, show 2 * (k / 2) + 1 = k by omega]
    exact BitVec.and_allOnes

/-- Settles O43: only C14X2 has bits that no index holds. -/
theorem indexBlocksRoundTrip : Obligations.IndexBlocksRoundTrip := by
  refine ⟨⟨rfl, rfl, rfl⟩, fun b i => ?_, fun f b hi hb => ⟨fun v hv => ?_, fun hx => ?_,
    fun hx k hk => ?_⟩⟩
  · obtain ⟨h4, h8, h14⟩ := indexAt_toNat b i
    exact ⟨h4.trans (nibbleAt_toNat b i), h8, h14, fun f => rfl⟩
  · obtain ⟨i, -, rfl⟩ := List.mem_map.1 hv
    exact indexAt_le_maxIndex f b i
  · exact encodeIndexBlock_decodeIndices hi hx hb
  · subst hx
    exact encodeIndexBlock_decodeIndices_c14x2 b hk

/-! ### Encoded words as numbers (R74, R79, R80, R82) -/

theorem encIA8_toNat (p : Color) : (encIA8 p).toNat = 256 * p.a.toNat + (intensity p).toNat :=
  be16_toNat _ _

theorem enc565_toNat (p : Color) :
    (enc565 p).toNat = 2048 * (p.r.toNat / 8) + 32 * (p.g.toNat / 4) + p.b.toNat / 8 := by
  rw [enc565, append_toNat, append_toNat, narrow_toNat (by decide), narrow_toNat (by decide),
    narrow_toNat (by decide)]
  simp only [Nat.reduceSub, Nat.reducePow]
  ring

theorem opaque5A3_toNat (p : Color) :
    (opaque5A3 p).toNat =
      32768 + 1024 * (p.r.toNat / 8) + 32 * (p.g.toNat / 8) + p.b.toNat / 8 := by
  simp only [opaque5A3, append_toNat, narrow_toNat, Nat.reduceLeDiff, Nat.reduceSub, Nat.reducePow,
    BitVec.toNat_ofNat, Nat.reduceMod]
  ring

theorem alpha5A3_toNat (p : Color) :
    (alpha5A3 p).toNat =
      4096 * (p.a.toNat / 32) + 256 * (p.r.toNat / 16) + 16 * (p.g.toNat / 16) +
        p.b.toNat / 16 := by
  simp only [alpha5A3, append_toNat, narrow_toNat, Nat.reduceLeDiff, Nat.reduceSub, Nat.reducePow,
    BitVec.toNat_ofNat, Nat.reduceMod]
  ring

/-- A channel is exact in five bits (R82). -/
theorem eq_expand5_narrow_iff (c : Byte) :
    c = expand5 (narrow 5 c) ↔ c.toNat = 8 * (c.toNat / 8) + c.toNat / 32 := by
  rw [← BitVec.toNat_inj, expand5_toNat, narrow_toNat (by decide)]
  simp only [Nat.reduceSub, Nat.reducePow]
  omega

/-- An alpha is exact in three bits (R82). -/
theorem eq_expand3_narrow_iff (c : Byte) :
    c = expand3 (narrow 3 c) ↔
      c.toNat = 32 * (c.toNat / 32) + 4 * (c.toNat / 32) + c.toNat / 64 := by
  rw [← BitVec.toNat_inj, expand3_toNat, narrow_toNat (by decide)]
  simp only [Nat.reduceSub, Nat.reducePow]
  omega

/-- The RGB5A3 word of a colour, by the four cases of R82. -/
theorem enc5A3_toNat (p : Color) :
    (enc5A3 p).toNat =
      if p.a.toNat = 255 ∧ p.r.toNat = 8 * (p.r.toNat / 8) + p.r.toNat / 32 ∧
          p.g.toNat = 8 * (p.g.toNat / 8) + p.g.toNat / 32 ∧
          p.b.toNat = 8 * (p.b.toNat / 8) + p.b.toNat / 32 then
        32768 + 1024 * (p.r.toNat / 8) + 32 * (p.g.toNat / 8) + p.b.toNat / 8
      else if p.a.toNat = 32 * (p.a.toNat / 32) + 4 * (p.a.toNat / 32) + p.a.toNat / 64 ∧
          p.r.toNat % 16 = 0 ∧ p.g.toNat % 16 = 0 ∧ p.b.toNat % 16 = 0 then
        4096 * (p.a.toNat / 32) + 256 * (p.r.toNat / 16) + 16 * (p.g.toNat / 16) + p.b.toNat / 16
      else if p.a.toNat = 255 then
        32768 + 1024 * (p.r.toNat / 8) + 32 * (p.g.toNat / 8) + p.b.toNat / 8
      else 4096 * (p.a.toNat / 32) + 256 * (p.r.toNat / 16) + 16 * (p.g.toNat / 16) +
        p.b.toNat / 16 := by
  have halpha : p.a = 255 ↔ p.a.toNat = 255 := BitVec.toNat_inj.symm
  rw [← opaque5A3_toNat, ← alpha5A3_toNat]
  simp only [← halpha, ← eq_expand5_narrow_iff, ← eq_expand3_narrow_iff, enc5A3,
    apply_ite BitVec.toNat]

/-! ### Encoded blocks (R76 to R83) -/

/-- Nibble i of packed 4-bit values (R76). -/
theorem nibbleAt_packNibbles {vs : List (BitVec 4)} (heven : vs.length % 2 = 0) {i : Nat}
    (h : i < vs.length) : nibbleAt (packNibbles vs) i = vs[i] := by
  have hbyte : byteAt (packNibbles vs) (i / 2) =
      vs.getD (2 * (i / 2)) 0 ++ vs.getD (2 * (i / 2) + 1) 0 := by
    rw [byteAt_of_lt (by simp; omega)]
    simp [packNibbles]
  rw [nibbleAt, hbyte]
  split
  next h0 =>
    rw [BitVec.extractLsb'_append_eq_left, show 2 * (i / 2) = i by omega,
      List.getD_eq_getElem _ _ h]
  next h1 =>
    rw [BitVec.extractLsb'_append_eq_right, show 2 * (i / 2) + 1 = i by omega,
      List.getD_eq_getElem _ _ h]

/-- The word that encoding leaves for pixel i, for a format of 16-bit words. -/
theorem word_indexBytes_map (enc : Color → Half) {ps : List Color} {i : Nat} (hi : i < ps.length) :
    256 * (byteAt (indexBytes (ps.map enc)) (2 * i)).toNat +
      (byteAt (indexBytes (ps.map enc)) (2 * i + 1)).toNat = (enc ps[i]).toNat := by
  rw [← halfAt_toNat, halfAt_indexBytes, List.getD_eq_getElem _ _ (by simpa using hi),
    List.getElem_map]

/-- The bytes of pixel i of a list of pairs of bytes. -/
theorem flatMap_pair_getElem? (f g : Color → Byte) {ps : List Color} {i : Nat}
    (hi : i < ps.length) :
    (ps.flatMap fun p => [f p, g p])[2 * i]? = some (f ps[i]) ∧
      (ps.flatMap fun p => [f p, g p])[2 * i + 1]? = some (g ps[i]) := by
  induction ps generalizing i with
  | nil => cases hi
  | cons p ps ih =>
    cases i with
    | zero => exact ⟨rfl, rfl⟩
    | succ i => exact ih (Nat.lt_of_succ_lt_succ hi)

/-- The four bytes of pixel i of an RGBA32 block: A and R in the first half, G and B in the second
(R83). -/
theorem encodeBlock_rgba32_byteAt {ps : List Color} {i : Nat} (h16 : ps.length = 16)
    (hi : i < ps.length) :
    byteAt (encodeBlock .rgba32 ps) (2 * i) = ps[i].a ∧
      byteAt (encodeBlock .rgba32 ps) (2 * i + 1) = ps[i].r ∧
      byteAt (encodeBlock .rgba32 ps) (32 + 2 * i) = ps[i].g ∧
      byteAt (encodeBlock .rgba32 ps) (33 + 2 * i) = ps[i].b := by
  have hlen : (ps.flatMap fun p => [p.a, p.r]).length = 32 := by
    rw [length_flatMap_const _ 2 _ fun _ _ => rfl, h16]
  have hfirst : ∀ k < 32, byteAt (encodeBlock .rgba32 ps) k =
      (ps.flatMap fun p => [p.a, p.r])[k]?.getD 0 := fun k hk => by
    rw [byteAt, List.getD_eq_getElem?_getD, encodeBlock, List.getElem?_append_left (by omega)]
  have hsecond : ∀ k, byteAt (encodeBlock .rgba32 ps) (32 + k) =
      (ps.flatMap fun p => [p.g, p.b])[k]?.getD 0 := fun k => by
    rw [byteAt, List.getD_eq_getElem?_getD, encodeBlock, List.getElem?_append_right (by omega),
      hlen, Nat.add_sub_cancel_left]
  obtain ⟨ha, hr⟩ := flatMap_pair_getElem? Color.a Color.r hi
  obtain ⟨hg, hb⟩ := flatMap_pair_getElem? Color.g Color.b hi
  rw [show 33 + 2 * i = 32 + (2 * i + 1) by omega, hfirst _ (by omega), hfirst _ (by omega),
    hsecond, hsecond, ha, hr, hg, hb]
  exact ⟨rfl, rfl, rfl, rfl⟩

/-- Settles O41: each byte or word is that of its pixel, and the three 16-bit formats share their
word with the palette entry of the same name. -/
theorem encodedPixels : Obligations.EncodedPixels := by
  intro ps i hi p y r g b a byte word opaqueWord alphaWord exact5
  have hia8 : word .ia8 = (encIA8 p).toNat := by
    simp only [word, byte, encodeBlock_ia8]
    exact word_indexBytes_map encIA8 hi
  have h565 : word .rgb565 = (enc565 p).toNat := by
    simp only [word, byte, encodeBlock_rgb565]
    exact word_indexBytes_map enc565 hi
  have h5a3 : word .rgb5a3 = (enc5A3 p).toNat := by
    simp only [word, byte, encodeBlock_rgb5a3]
    exact word_indexBytes_map enc5A3 hi
  refine ⟨fun heven => ?_, ?_, ?_, hia8.trans (encIA8_toNat p), h565.trans (enc565_toNat p),
    h5a3.trans (enc5A3_toNat p), fun h16 => ?_, hia8.symm, h565.symm, h5a3.symm, h565.symm⟩
  · have hnib := nibbleAt_packNibbles (vs := ps.map fun p => narrow 4 (intensity p))
      (by simpa using heven) (by simpa using hi)
    have hy := congrArg BitVec.toNat hnib
    rw [nibbleAt_toNat, List.getElem_map, narrow_toNat (by decide)] at hy
    exact hy
  · have hbyte : byteAt (ps.map intensity) i = intensity p := by
      rw [byteAt_of_lt (by simpa using hi), List.getElem_map]
    exact congrArg BitVec.toNat hbyte
  · have hbyte : byteAt (encodeBlock .ia4 ps) i = narrow 4 p.a ++ narrow 4 (intensity p) := by
      rw [encodeBlock, byteAt_of_lt (by simpa using hi), List.getElem_map]
    simp only [byte, hbyte, append_toNat, narrow_toNat (n := 4) (by decide)]
    exact congrArg (· + _) (Nat.mul_comm _ _)
  · obtain ⟨ha, hr, hg, hb⟩ := encodeBlock_rgba32_byteAt h16 hi
    exact ⟨congrArg BitVec.toNat ha, congrArg BitVec.toNat hr, congrArg BitVec.toNat hg,
      congrArg BitVec.toNat hb⟩

end Sys2Proof.Machine
end

section
/-! PROOF of the statement about a sub-block of one colour (R109, R116, R117). -/

namespace Sys2Proof.Machine

/-! ### Its keys (R107 to R110) -/

/-- The pair at maximum distance is a pair of colours of the list. -/
theorem mem_of_maxDistancePair {cs : List Color} {x y : Color} (hlen : 2 ≤ cs.length)
    (h : maxDistancePair cs = some (x, y)) : x ∈ cs ∧ y ∈ cs := by
  obtain ⟨i, j, hi, hj, -, hpair, -⟩ := maxDistancePairIsFirst cs hlen
  cases h.symm.trans hpair
  exact ⟨List.getElem_mem hi, List.getElem_mem hj⟩

section Uniform
variable {c : Color} {inb : Nat → Bool} {n : Nat}

theorem mem_survivors_replicate {x : Color} (h : x ∈ survivors (List.replicate n c) inb) :
    x = c := by
  rw [survivors_eq_map _ _ black, List.mem_map] at h
  obtain ⟨p, hp, rfl⟩ := h
  have hlt : p < (List.replicate n c).length := List.mem_range.1 (List.mem_filter.1 hp).1
  rw [List.getD_eq_getElem _ _ hlt, List.getElem_replicate]

/-- A pixel in bounds with A ≥ 16 survives. -/
theorem survivors_replicate_ne_nil (hc : 16 ≤ c.a.toNat) (hin : ∃ p < n, inb p = true) :
    survivors (List.replicate n c) inb ≠ [] := by
  obtain ⟨p, hp, hinb⟩ := hin
  rw [survivors_eq_map _ _ c]
  refine List.ne_nil_of_mem (List.mem_map_of_mem (a := p) (List.mem_filter.2 ⟨?_, ?_⟩))
  · simpa using hp
  · simp [hinb, hp, hc]

theorem needsPunchThrough_replicate (hc : 16 ≤ c.a.toNat) :
    needsPunchThrough (List.replicate n c) inb = false := by
  rw [← Bool.not_eq_true, needsPunchThrough_iff]
  rintro ⟨p, d, hd, -, hlow⟩
  obtain rfl := List.eq_of_mem_replicate (List.mem_of_getElem? hd)
  omega

/-- Both picks of a sub-block of one colour are that colour. -/
theorem tieBroken_replicate (hc : 16 ≤ c.a.toNat) (hin : ∃ p < n, inb p = true) :
    TieBroken c c (pickedKeys (List.replicate n c) inb) := by
  have hne := survivors_replicate_ne_nil hc hin
  obtain ⟨x, y, hone, htwo, hbroken⟩ := pickedKeys_of_ne_nil hne
  have hpicks : x ∈ survivors (List.replicate n c) inb ∧
      y ∈ survivors (List.replicate n c) inb := by
    rcases Nat.lt_or_ge (survivors (List.replicate n c) inb).length 2 with hlt | hge
    · have hpos := List.length_pos_of_ne_nil hne
      obtain ⟨hx, rfl⟩ := hone (by omega)
      rw [hx]
      exact ⟨.head _, .head _⟩
    · exact mem_of_maxDistancePair hge (htwo hge)
  obtain ⟨hx, hy⟩ := hpicks
  rwa [mem_survivors_replicate hx, mem_survivors_replicate hy] at hbroken

/-- Keys without a flag are their colours and words. -/
theorem Keys.eq_pairKeys {k : Keys} {x y : Color} (h0 : k.k0 = x) (h1 : k.k1 = y)
    (hr0 : k.r0 = enc565 x) (hr1 : k.r1 = enc565 y) (hpt : k.pt = false)
    (hdflt : k.dflt = false) (htie : k.tie = false) (hswp : k.swp = false) : k = pairKeys x y := by
  cases k
  rw [pairKeys, Keys.mk.injEq]
  exact ⟨h0, h1, hr0, hr1, hpt, hdflt, htie, hswp⟩

/-- The keys of a sub-block of one colour: that colour twice, and no flag. -/
theorem selectKeys_replicate (hc : 16 ≤ c.a.toNat) (hin : ∃ p < n, inb p = true) :
    selectKeys (List.replicate n c) inb = pairKeys c c := by
  have hbroken := tieBroken_replicate hc hin
  have hkeys := ordered_selectKeys (List.replicate n c) inb
  rw [needsPunchThrough_replicate hc] at hkeys
  have htie : (pickedKeys (List.replicate n c) inb).tie = false := by
    rw [← Bool.not_eq_true, hbroken.tie]
    exact fun h => h.2 rfl
  have hk0 := hbroken.first
  have hk1 := hbroken.kept htie
  have hswp : (selectKeys (List.replicate n c) inb).swp = false := by
    rw [← Bool.not_eq_true, hkeys.swp, hk0, hk1, misordered_false]
    exact Nat.lt_irrefl _
  obtain ⟨hpt, hdflt, htie', hr0, hr1, hfirst, hsecond, -, -⟩ := hkeys
  rw [if_neg (by simp [hswp])] at hfirst hsecond
  rw [hfirst, hk0] at hr0
  rw [hsecond, hk1] at hr1
  exact Keys.eq_pairKeys (hfirst.trans hk0) (hsecond.trans hk1) hr0 hr1 hpt
    (hdflt.trans hbroken.dflt) (htie'.trans htie) hswp

/-! ### Its indices (R114, R116) -/

/-- A colour is nearest to entry 0 where that entry is the colour (R123). -/
theorem nearestColor_cons_self (c : Color) (cs : List Color) : nearestColor c (c :: cs) = 0 := by
  simp [nearestColor, List.findIdx?_cons]

theorem indexField_replicate (palette : List Color) :
    indexField (List.replicate n c) inb (c :: palette) = 0 := by
  have hsum : digitSum (paletteDigit inb (c :: palette)) (List.replicate n c) 0 = 0 := by
    refine List.sum_eq_zero fun x hx => ?_
    obtain ⟨⟨d, p⟩, hd, rfl⟩ := List.mem_map.1 hx
    obtain rfl := List.eq_of_mem_replicate (List.fst_mem_of_mem_zipIdx hd)
    simp [paletteDigit, nearestColor_cons_self]
  rw [indexField_eq_digitSum, hsum]
  rfl

/-- Entry 0 of a local palette is its first colour (R100). -/
theorem localPalette_head (p q : Color) (four : Bool) :
    ∃ palette, localPalette p q four = p :: palette := by
  cases four <;> exact ⟨_, rfl⟩

theorem encodeIndices_replicate (hc : 16 ≤ c.a.toNat) (hin : ∃ p < n, inb p = true) :
    encodeIndices (List.replicate n c) inb = 0 := by
  obtain ⟨palette, hpalette⟩ := localPalette_head c c (fourColour (enc565 c) (enc565 c))
  rw [encodeIndices, selectKeys_replicate hc hin]
  exact (congrArg _ hpalette).trans (indexField_replicate palette)

end Uniform

/-- Settles O49: both keys are the colour itself, so every pixel in bounds is nearest to entry 0. -/
theorem uniformSubBlock : Obligations.UniformSubBlock := by
  intro c inb hc hin
  rw [encodeSub, selectKeys_replicate hc hin, encodeIndices_replicate hc hin]
  exact ⟨BitVec.eq_of_toNat_eq (flags_toNat _), rfl⟩

end Sys2Proof.Machine
end

section
/-! PROOF of the statement about the transcoder's round trips (R140). -/

namespace Sys2Proof.Machine

section Words
variable {b b' : List Byte} {c : Nat}

/-- A buffer of whole words is its words in order. -/
theorem flatMap_dxtWord (h : b.length = 8 * c) : (List.range c).flatMap (dxtWord b) = b := by
  induction c generalizing b with
  | zero => exact (List.eq_nil_of_length_eq_zero h).symm
  | succ c ih =>
    have hrest : (b.drop 8).length = 8 * c := by
      rw [List.length_drop]
      omega
    have hword : ∀ n, dxtWord b (n + 1) = dxtWord (b.drop 8) n := fun n => by
      rw [dxtWord, dxtWord, List.drop_drop, Nat.mul_succ, Nat.add_comm]
    rw [List.range_succ_eq_map, List.flatMap_cons, List.flatMap_map]
    simp only [Nat.succ_eq_add_one, hword]
    rw [ih hrest]
    exact List.take_append_drop 8 b

/-- Buffers of the same whole words are equal. -/
theorem ext_dxtWord (h : b.length = 8 * c) (h' : b'.length = 8 * c)
    (hw : ∀ n < c, dxtWord b n = dxtWord b' n) : b = b' := by
  rw [← flatMap_dxtWord h, ← flatMap_dxtWord h']
  simp only [List.flatMap]
  rw [List.map_congr_left fun n hn => hw n (List.mem_range.1 hn)]

/-- Permuting the words by g after f takes word n from word f (g n), and is the identity where f
undoes g. -/
theorem permuteWords_permuteWords {f g : Nat → Nat} (h : b.length = 8 * c)
    (hf : ∀ n < c, f n < c) (hg : ∀ n < c, g n < c) (hfg : ∀ n < c, f (g n) = n) :
    permuteWords g (permuteWords f b) = b := by
  have hlen := (permuteWords_length h hf).trans h
  refine ext_dxtWord ((permuteWords_length hlen hg).trans hlen) h fun n hn => ?_
  rw [dxtWord_permuteWords hlen hg hn, dxtWord_permuteWords h hf (hg n hn), hfg n hn]

/-- A permutation that moves no word is the identity. -/
theorem permuteWords_of_fixed {g : Nat → Nat} (h : b.length = 8 * c) (hg : ∀ n, g n = n) :
    permuteWords g b = b := by
  have hlt : ∀ n < c, g n < c := fun n hn => (hg n).symm ▸ hn
  refine ext_dxtWord ((permuteWords_length h hlt).trans h) h fun n hn => ?_
  rw [dxtWord_permuteWords h hlt hn, hg]

/-- Swapping the words twice gives the buffer back. -/
theorem swapWords_swapWords (h : b.length = 8 * c) : swapWords (swapWords b) = b := by
  have hlen : (swapWords b).length = b.length := swapWords_length b (by omega)
  refine ext_dxtWord ((swapWords_length _ (by omega)).trans (hlen.trans h)) h fun n hn => ?_
  rw [dxtWord_swapWords (by omega), dxtWord_swapWords (by omega),
    swapWord_swapWord (dxtWord_length b n (by omega))]

end Words

section Indices
variable {m t n : Nat}

theorem localIndex_foreignIndex (h : n < 2 * m * (2 * t)) :
    localIndex (2 * m) (foreignIndex (2 * m) n) = n := by
  obtain ⟨s, -, k, hk, q, hq, rfl⟩ := exists_localNumber h
  rw [foreignIndex_localNumber hk hq, localIndex_foreignNumber hk hq]

theorem foreignIndex_localIndex (h : n < 2 * m * (2 * t)) :
    foreignIndex (2 * m) (localIndex (2 * m) n) = n := by
  obtain ⟨s, -, k, hk, q, hq, rfl⟩ := exists_foreignNumber h
  rw [localIndex_foreignNumber hk hq, foreignIndex_localNumber hk hq]

/-- In an image one block wide both orders are the same. -/
theorem foreignIndex_two (n : Nat) : foreignIndex 2 n = n := by
  rw [foreignIndex]
  omega

theorem localIndex_two (n : Nat) : localIndex 2 n = n := by
  rw [localIndex]
  omega

end Indices

section RoundTrips
variable {m t : Nat} {b : List Byte}

theorem reorderDecode_reorderEncode (h : b.length = 8 * (2 * m * (2 * t))) :
    reorderDecode (2 * m) (reorderEncode (2 * m) b) = b :=
  permuteWords_permuteWords h (fun _ => foreignIndex_lt) (fun _ => localIndex_lt)
    fun _ => foreignIndex_localIndex

theorem reorderEncode_reorderDecode (h : b.length = 8 * (2 * m * (2 * t))) :
    reorderEncode (2 * m) (reorderDecode (2 * m) b) = b :=
  permuteWords_permuteWords h (fun _ => localIndex_lt) (fun _ => foreignIndex_lt)
    fun _ => localIndex_foreignIndex

theorem localToForeign_foreignToLocal (h : b.length = 8 * (2 * m * (2 * t))) :
    localToForeign (2 * m) (foreignToLocal (2 * m) b) = b := by
  have hlen : (reorderEncode (2 * m) b).length = 8 * (2 * m * (2 * t)) :=
    (permuteWords_length h fun _ => foreignIndex_lt).trans h
  rw [localToForeign, foreignToLocal, swapWords_swapWords hlen, reorderDecode_reorderEncode h]

theorem foreignToLocal_localToForeign (h : b.length = 8 * (2 * m * (2 * t))) :
    foreignToLocal (2 * m) (localToForeign (2 * m) b) = b := by
  have hlen : (swapWords b).length = 8 * (2 * m * (2 * t)) :=
    (swapWords_length b (by omega)).trans h
  rw [localToForeign, foreignToLocal, reorderEncode_reorderDecode hlen, swapWords_swapWords h]

end RoundTrips

/-- Settles O60: the two index functions undo each other on the words of an image, and swapping a
word undoes itself. -/
theorem transcoderRoundTrips : Obligations.TranscoderRoundTrips := by
  intro w h b _ _ hw8 hh8 hb
  obtain ⟨m, rfl⟩ := Nat.dvd_of_mod_eq_zero hw8
  obtain ⟨t, rfl⟩ := Nat.dvd_of_mod_eq_zero hh8
  have hwb : 8 * m / 4 = 2 * m := by omega
  have hlen : b.length = 8 * (2 * m * (2 * t)) := by
    rw [hb, show 8 * m * (8 * t) = 8 * (2 * m * (2 * t)) * 2 by ring,
      Nat.mul_div_cancel _ (by decide)]
  rw [hwb]
  refine ⟨localToForeign_foreignToLocal hlen, foreignToLocal_localToForeign hlen,
    reorderDecode_reorderEncode hlen, reorderEncode_reorderDecode hlen, swapWords_swapWords hlen,
    fun hone => ?_⟩
  obtain rfl : m = 1 := by omega
  exact ⟨permuteWords_of_fixed hlen foreignIndex_two, permuteWords_of_fixed hlen localIndex_two⟩

end Sys2Proof.Machine
end
